-- ==== Sys2Proof/Word.lean ====
section
/-! DEFINITION. Word.lean: the bit vectors of the block (00_scope.md R10; 30_encoding.md R70, R72, R73; 10_state.md R21). -/

namespace Sys2Proof

/-- A byte: a command byte, a display-memory byte or a status byte. -/
abbrev Byte := BitVec 8

/-- Half of a byte, what one strobe cycle carries in 4-bit width (20_memory.md R55). -/
abbrev Nibble := BitVec 4

/-- The host request word `{dir, sel, data[7:0]}`, format HOSTREQ (30_encoding.md R70). -/
abbrev HostReqWord := BitVec 10

/-- The SETUP request `{READ_EN, MODE8_EN, pin_ok[10:0]}`, format SETUPREQ (30_encoding.md R72). -/
abbrev SetupReqWord := BitVec 13

/-- One bit per pin port, D0-D7 = 0-7, RS = 8, RW = 9, E = 10 (10_state.md R21). -/
abbrev PinVec := BitVec 11

end Sys2Proof
end

