-- ==== Sys2Proof/Syntax.lean ====
section
/-! DEFINITION. Syntax.lean: the instructions (one constructor per row of spec/opcode_table.json) and the requests a host
presents (30_encoding.md R70 to R73; 46_host_operations.md R190). -/

namespace Sys2Proof

/-- The rows of the opcode table. The three formats are SETUPREQ, HOSTREQ and CMDBYTE. A command byte reaches the block as
the data of an instruction write (40_command_bytes.md R90), so the command-byte constructors are the pseudo-instructions
`WRI Clear()` and so on of 30_encoding.md R83. -/
inductive Instr where
  /-- `SETUP r m` with the registry's answers `pin_ok` (45_node_lifecycle.md R170). -/
  | setup (r m : Bool) (pinOk : PinVec)
  /-- `WRD d`: display-memory write (46_host_operations.md R193). -/
  | wrd (d : Byte)
  /-- `WRI d`: instruction write (46_host_operations.md R194). -/
  | wri (d : Byte)
  /-- `RDD`: display-memory read; `x` are the ignored data bits (46_host_operations.md R195). -/
  | rdd (x : Byte)
  /-- `RDS`: status read; `x` are the ignored data bits (46_host_operations.md R196). -/
  | rds (x : Byte)
  /-- CLEAR, `00000001` (40_command_bytes.md R91). -/
  | clear
  /-- HOME, `0000001x` (R92). -/
  | home (x : Bool)
  /-- ENTRYMODE, `000001is` (R93). -/
  | entryMode (inc sh : Bool)
  /-- ONOFF, `00001dcb` (R94). -/
  | onOff (d c b : Bool)
  /-- SHIFT, `0001srxx` (R95). -/
  | shift (sc rl : Bool) (x : BitVec 2)
  /-- FUNCSET, `001lnfxx` (R96). -/
  | funcSet (l n f : Bool) (x : BitVec 2)
  /-- SETCGRAM, `01aaaaaa`: the host's argument, in range up to 0x3F (R97). -/
  | setCgram (a : Nat)
  /-- SETDDRAM, `1aaaaaaa`: the host's argument, in range up to 0x7F (R98). -/
  | setDdram (a : Nat)
  /-- The classless byte `00000000` (R99). -/
  | undef00
  deriving DecidableEq, Repr

/-- The three encoding formats (30_encoding.md R70, R72, R73). -/
inductive Format where
  | hostreq
  | setupreq
  | cmdbyte
  deriving DecidableEq, Repr

/-- One word in one of the three formats. `hostreq` arrives on the request port, `setupreq` on the setup port, and
`cmdbyte` is an instruction write of that byte (30_encoding.md R83; log entry 10). -/
inductive PortWord where
  | hostreq (w : HostReqWord)
  | setupreq (w : SetupReqWord)
  | cmdbyte (b : Byte)
  deriving DecidableEq, Repr

/-- What a host can present to the block: a word at a port, or an access at a pseudo-pin address (20_memory.md R50). A
host's write value may be wider than a byte (46_host_operations.md R198). -/
inductive HostRequest where
  | port (w : PortWord)
  | write (addr value : Nat)
  | read (addr : Nat)
  deriving DecidableEq, Repr

end Sys2Proof
end

