-- ==== Sys2Proof/WellFormed.lean ====
section
/-! DEFINITION. WellFormed.lean: which instructions are well formed. Every operand but two has its exact width in its type;
the two constructor addresses are host values with a stated range (40_command_bytes.md R97, R98; U6). -/

namespace Sys2Proof

/-- `SetCGRAM` takes "address 0-0x3F" and `SetDDRAM` "address 0-0x7F" (30_encoding.md R83); every other form is well formed
as it stands (30_encoding.md R79: the block refuses no byte). -/
def Instr.wellFormed : Instr → Bool
  | .setup _ _ _     => true
  | .wrd _           => true
  | .wri _           => true
  | .rdd _           => true
  | .rds _           => true
  | .clear           => true
  | .home _          => true
  | .entryMode _ _   => true
  | .onOff _ _ _     => true
  | .shift _ _ _     => true
  | .funcSet _ _ _ _ => true
  | .setCgram a      => decide (a ≤ 0x3F)
  | .setDdram a      => decide (a ≤ 0x7F)
  | .undef00         => true

/-- The instruction is well formed. -/
abbrev WellFormed (i : Instr) : Prop := i.wellFormed = true

end Sys2Proof
end

