-- ==== Sys2Proof/Decode.lean ====
section
/-! DEFINITION. Decode.lean: the decoders of the three formats, the encoder, and the placement of a table word
(30_encoding.md R70 to R73, R79). -/

namespace Sys2Proof

/-! ## Decoding -/

/-- `{dir, sel}` selects the operation, `data` is the low byte (30_encoding.md R70, R71). -/
def decodeHostReq (w : HostReqWord) : Instr :=
  let data : Byte := w.setWidth 8
  match w.getLsbD 9, w.getLsbD 8 with
  | false, false => .wrd data
  | false, true  => .wri data
  | true,  false => .rdd data
  | true,  true  => .rds data

/-- `{READ_EN, MODE8_EN, pin_ok[10:0]}` (30_encoding.md R72). -/
def decodeSetupReq (w : SetupReqWord) : Instr :=
  .setup (w.getLsbD 12) (w.getLsbD 11) (w.setWidth 11)

/-- "The class of a byte is given by the position of its most significant 1 bit" (30_encoding.md R73). -/
def decodeCmdByte (b : Byte) : Instr :=
  if b.getLsbD 7 then .setDdram (b.extractLsb' 0 7).toNat
  else if b.getLsbD 6 then .setCgram (b.extractLsb' 0 6).toNat
  else if b.getLsbD 5 then .funcSet (b.getLsbD 4) (b.getLsbD 3) (b.getLsbD 2) (b.extractLsb' 0 2)
  else if b.getLsbD 4 then .shift (b.getLsbD 3) (b.getLsbD 2) (b.extractLsb' 0 2)
  else if b.getLsbD 3 then .onOff (b.getLsbD 2) (b.getLsbD 1) (b.getLsbD 0)
  else if b.getLsbD 2 then .entryMode (b.getLsbD 1) (b.getLsbD 0)
  else if b.getLsbD 1 then .home (b.getLsbD 0)
  else if b.getLsbD 0 then .clear
  else .undef00

/-- The instruction a word stands for. Every word of every format is an instruction: the four request patterns are all
patterns, SETUPREQ has no fixed bit, and the nine command-byte patterns cover all 256 bytes (30_encoding.md R71 to R73). -/
def decodeWord : PortWord → Instr
  | .hostreq w  => decodeHostReq w
  | .setupreq w => decodeSetupReq w
  | .cmdbyte b  => decodeCmdByte b

/-- How many bits a word of the format has (30_encoding.md R70, R72, R73). -/
def Format.width : Format → Nat
  | .hostreq  => 10
  | .setupreq => 13
  | .cmdbyte  => 8

/-- Why bits are no instruction. -/
inductive DecodeReject where
  /-- The number has a bit above the format's width. -/
  | tooWide (f : Format)
  deriving DecidableEq, Repr

/-- Bits numbered from 0 as a word of the format, or the rejection by name when they do not fit it. -/
def portWordOfBits (f : Format) (bits : Nat) : Except DecodeReject PortWord :=
  if bits < 2 ^ f.width then
    match f with
    | .hostreq  => .ok (.hostreq (BitVec.ofNat 10 bits))
    | .setupreq => .ok (.setupreq (BitVec.ofNat 13 bits))
    | .cmdbyte  => .ok (.cmdbyte (BitVec.ofNat 8 bits))
  else .error (.tooWide f)

/-- The decoder on arbitrary bits: total, and what does not fit the format is rejected by name. -/
def decode (f : Format) (bits : Nat) : Except DecodeReject Instr :=
  (portWordOfBits f bits).map decodeWord

/-! ## Encoding -/

/-- Bit `k` of a byte, as a byte. -/
def bitAt (x : Bool) (k : Nat) : Byte := (BitVec.ofBool x).setWidth 8 <<< k

/-- CLEAR `00000001` (40_command_bytes.md R91). -/
def clearByte : Byte := 0x01#8

/-- HOME `0000001x` (R92). -/
def homeByte (x : Bool) : Byte := 0x02#8 ||| bitAt x 0

/-- ENTRYMODE `000001is` = `0x04 | (i << 1) | s` (R93). -/
def entryModeByte (inc sh : Bool) : Byte := 0x04#8 ||| bitAt inc 1 ||| bitAt sh 0

/-- ONOFF `00001dcb` = `0x08 | (display << 2) | (cursor << 1) | blink` (R94). -/
def onOffByte (d c b : Bool) : Byte := 0x08#8 ||| bitAt d 2 ||| bitAt c 1 ||| bitAt b 0

/-- SHIFT `0001srxx` = `0x10 | (s << 3) | (r << 2)`, with the two ignored bits as given (R95). -/
def shiftByte (sc rl : Bool) (x : BitVec 2) : Byte := 0x10#8 ||| bitAt sc 3 ||| bitAt rl 2 ||| x.setWidth 8

/-- FUNCSET `001lnfxx` = `0x20 | (eightBit << 4) | (twoLine << 3) | (tallFont << 2)`, ignored bits as given (R96). -/
def funcSetByte (l n f : Bool) (x : BitVec 2) : Byte :=
  0x20#8 ||| bitAt l 4 ||| bitAt n 3 ||| bitAt f 2 ||| x.setWidth 8

/-- SETCGRAM `01aaaaaa` = `0x40 | address` (R97); for an address in range. -/
def setCgramByte (a : Nat) : Byte := 0x40#8 ||| BitVec.ofNat 8 a

/-- SETDDRAM `1aaaaaaa` = `0x80 | address` (R98); for an address in range. -/
def setDdramByte (a : Nat) : Byte := 0x80#8 ||| BitVec.ofNat 8 a

/-- The classless byte (R99). -/
def undef00Byte : Byte := 0x00#8

/-- The word of an instruction, from the patterns of 30_encoding.md R71 to R73. -/
def encode : Instr → PortWord
  | .setup r m k     => .setupreq (BitVec.ofBool r ++ BitVec.ofBool m ++ k)
  | .wrd d           => .hostreq (0b00#2 ++ d)
  | .wri d           => .hostreq (0b01#2 ++ d)
  | .rdd x           => .hostreq (0b10#2 ++ x)
  | .rds x           => .hostreq (0b11#2 ++ x)
  | .clear           => .cmdbyte clearByte
  | .home x          => .cmdbyte (homeByte x)
  | .entryMode i s   => .cmdbyte (entryModeByte i s)
  | .onOff d c b     => .cmdbyte (onOffByte d c b)
  | .shift sc rl x   => .cmdbyte (shiftByte sc rl x)
  | .funcSet l n f x => .cmdbyte (funcSetByte l n f x)
  | .setCgram a      => .cmdbyte (setCgramByte a)
  | .setDdram a      => .cmdbyte (setDdramByte a)
  | .undef00         => .cmdbyte undef00Byte

/-! ## The rows of the opcode table -/

/-- A row of spec/opcode_table.json: a word of its format belongs to the row when its bits under `mask` are `pat`. -/
structure Row where
  format : Format
  mask   : Nat
  pat    : Nat
  deriving DecidableEq, Repr

/-- The word's format and its bits as a number. -/
def PortWord.formatBits : PortWord → Format × Nat
  | .hostreq w  => (.hostreq, w.toNat)
  | .setupreq w => (.setupreq, w.toNat)
  | .cmdbyte b  => (.cmdbyte, b.toNat)

/-- The word belongs to the row. -/
def Row.holds (r : Row) (w : PortWord) : Bool :=
  decide (w.formatBits.1 = r.format) && decide (w.formatBits.2 &&& r.mask = r.pat)

/-- The instruction's row: `mask` and `match` as the table has them. -/
def Instr.row : Instr → Row
  | .setup _ _ _     => ⟨.setupreq, 0x0000, 0x0000⟩
  | .wrd _           => ⟨.hostreq, 0x300, 0x000⟩
  | .wri _           => ⟨.hostreq, 0x300, 0x100⟩
  | .rdd _           => ⟨.hostreq, 0x300, 0x200⟩
  | .rds _           => ⟨.hostreq, 0x300, 0x300⟩
  | .clear           => ⟨.cmdbyte, 0xFF, 0x01⟩
  | .home _          => ⟨.cmdbyte, 0xFE, 0x02⟩
  | .entryMode _ _   => ⟨.cmdbyte, 0xFC, 0x04⟩
  | .onOff _ _ _     => ⟨.cmdbyte, 0xF8, 0x08⟩
  | .shift _ _ _     => ⟨.cmdbyte, 0xF0, 0x10⟩
  | .funcSet _ _ _ _ => ⟨.cmdbyte, 0xE0, 0x20⟩
  | .setCgram _      => ⟨.cmdbyte, 0xC0, 0x40⟩
  | .setDdram _      => ⟨.cmdbyte, 0x80, 0x80⟩
  | .undef00         => ⟨.cmdbyte, 0xFF, 0x00⟩

/-- The nine rows of format CMDBYTE (30_encoding.md R73). -/
def cmdRows : List Row :=
  [⟨.cmdbyte, 0xFF, 0x01⟩, ⟨.cmdbyte, 0xFE, 0x02⟩, ⟨.cmdbyte, 0xFC, 0x04⟩, ⟨.cmdbyte, 0xF8, 0x08⟩, ⟨.cmdbyte, 0xF0, 0x10⟩,
   ⟨.cmdbyte, 0xE0, 0x20⟩, ⟨.cmdbyte, 0xC0, 0x40⟩, ⟨.cmdbyte, 0x80, 0x80⟩, ⟨.cmdbyte, 0xFF, 0x00⟩]

/-! ## Host accesses -/

/-- The word a host request amounts to, or nothing when it does not reach the block: a write or read at `BASE` or
`BASE + 1` is a HOSTREQ with `sel` the address offset, any other address is not the block's (20_memory.md R50, R58); of a
write value the low 8 bits count (46_host_operations.md R198). -/
def HostRequest.toPort (base : Nat) : HostRequest → Option PortWord
  | .port w => some w
  | .write addr value =>
    if addr = base then some (.hostreq (0b00#2 ++ BitVec.ofNat 8 value))
    else if addr = base + 1 then some (.hostreq (0b01#2 ++ BitVec.ofNat 8 value))
    else none
  | .read addr =>
    if addr = base then some (.hostreq (0b10#2 ++ 0x00#8))
    else if addr = base + 1 then some (.hostreq (0b11#2 ++ 0x00#8))
    else none

/-! ## Words numbered as the opcode table numbers them -/

/-- The word of a table row given as `nbits` bits. 8 bits are a CMDBYTE, 10 a HOSTREQ, 13 a SETUPREQ. In whole bytes both
HOSTREQ and SETUPREQ take 16 bits, though they arrive on different ports: a number below 2^10 is read as a HOSTREQ, one
from 2^10 to 2^13 as a SETUPREQ (DESIGN CHOICE, log entry 7). -/
def portWordOfTable (nbits w : Nat) : Option PortWord :=
  let fit (f : Format) : Option PortWord := (portWordOfBits f w).toOption
  if nbits = 8 then fit .cmdbyte
  else if nbits = 10 then fit .hostreq
  else if nbits = 13 then fit .setupreq
  else if nbits = 16 then (if w < 2 ^ 10 then fit .hostreq else fit .setupreq)
  else none

/-- The instruction the decoder reads from a word of the opcode table. -/
def decodeTableWord (nbits w : Nat) : Option Instr := (portWordOfTable nbits w).map decodeWord

end Sys2Proof
end

