-- ==== Sys2Proof/Config.lean ====
section
/-! DEFINITION. Config.lean: the named parameters of the block (00_scope.md R7, R8) and what the environment is free to
choose between two events (00_scope.md R12; 93_implementation_defined.md U12, U13). -/

namespace Sys2Proof

/-- The parameters of 00_scope.md R7 and R8; the times are in nanoseconds. A model takes them as arguments: the state
carries one such record, no step changes it, and every rule uses the names (log entry 5). `READ_EN` and `MODE8_EN` are
registers (10_state.md R20). `TIME_W` has no counterpart: times are natural numbers (41_deadline_tracker.md R110, log entry 4). -/
structure Params where
  /-- `BASE`: the pseudo-pin number of the data register; `BASE + 1` is the instruction register. -/
  base      : Nat
  /-- `T_PW`: the pulse-width delay before and after the falling edge of E. -/
  tPw       : Nat
  /-- `T_THRESH`: the blind-sleep threshold of `AwaitReady`. -/
  tThresh   : Nat
  /-- `T_PRIME`: the settle delay after the priming cycle. -/
  tPrime    : Nat
  /-- `T_LONG`: the long delay class. -/
  tLong     : Nat
  /-- `T_SHORT`: the short delay class. -/
  tShort    : Nat
  /-- `T_EXT`: the extended delay class. -/
  tExt      : Nat
  /-- `POLL_TAIL_8`: strobe cycles after the busy flag reads low, 8-bit width. -/
  pollTail8 : Nat
  /-- `POLL_TAIL_4`: the same in 4-bit width. -/
  pollTail4 : Nat
  /-- `POLL_PAIR_4`: in 4-bit width a poll that reads busy is followed by a dummy cycle. -/
  pollPair4 : Bool
  deriving DecidableEq, Repr

/-- The defaults of 00_scope.md R8, and for `BASE` the source's example value 64 (R7). `T_SHORT` and `T_EXT` are the spec's
own general-knowledge figures (93_implementation_defined.md G2). -/
def Params.default : Params where
  base      := 64
  tPw       := 300
  tThresh   := 100000
  tPrime    := 37000
  tLong     := 1520000
  tShort    := 37000
  tExt      := 41000
  pollTail8 := 1
  pollTail4 := 2
  pollPair4 := false

/-- What the environment does between two steps of the block: `NOW` grows by `dt` (0 is the ideal clock of
41_deadline_tracker.md R113) and the pin inputs take the levels `pins` (bit index as in 10_state.md R21). -/
structure EnvMove where
  dt   : Nat
  pins : PinVec
  deriving DecidableEq, Repr, Inhabited

/-- DESIGN CHOICE (log entry 2): the environment's n-th move, where the state's script of moves gives none. Nothing is
known of it: any amount of time, any pin levels (93_implementation_defined.md U12, U13). -/
opaque Config.freeMove : Nat → EnvMove

/-- DESIGN CHOICE (log entry 2): how many free moves, from the n-th on, the clock may stand still before it must go on, if it
went on in the move before. Nothing is known of it: any finite number (41_deadline_tracker.md R110). -/
opaque Config.freeStill : Nat → Nat

end Sys2Proof
end

