-- ==== Sys2Proof/Machine/State.lean ====
section
/-! DEFINITION. Machine/State.lean: the registers of the block, its inputs, the events the sequencer issues, the reasons a
step can be refused, and the state at power-on (10_state.md; 00_scope.md R11; 70_reset_and_hazards.md R241). -/

namespace Sys2Proof.Machine

/-- A pin's direction (10_state.md R23). -/
inductive Dir where
  | In
  | Out
  deriving DecidableEq, Repr

/-- A pin's pull resistor (10_state.md R25). -/
inductive Pull where
  | None
  | Up
  deriving DecidableEq, Repr

/-- The eleven pin ports (10_state.md R21). -/
inductive Pin where
  | D0 | D1 | D2 | D3 | D4 | D5 | D6 | D7
  | RS | RW | E
  deriving DecidableEq, Repr

/-- The cause codes of 60_exceptions.md R212 that have a name. -/
inductive Cause where
  /-- 0: a successful SETUP. -/
  | none
  /-- 1: configuration error. -/
  | cfgErr
  /-- 2: allocation error, reserved, never raised (R214). -/
  | allocErr
  deriving DecidableEq, Repr

/-- Where a sampled level goes: the strobe cycle's own `v[p]` (43_bus_decoder.md R143), or the nibble of the first or second
cycle of a 4-bit read (30_encoding.md R81). -/
inductive SampleTo where
  | v
  | hi
  | lo
  deriving DecidableEq, Repr

/-- The register updates `name <- constant` of SETUP (45_node_lifecycle.md R170). -/
inductive Assign where
  | readEn (x : Bool)
  | mode8En (x : Bool)
  | deadline (t : Nat)
  | width8 (x : Bool)
  | installed (x : Bool)
  | setupOk (x : Bool)
  | cause (c : Cause)
  | badPins (b : PinVec)
  deriving DecidableEq, Repr

/-- What the sequencer does in one step: an event of 00_scope.md R11, a register update, one of the two tests that decide
how a transaction goes on, or the response that ends it. -/
inductive Micro where
  /-- `Drive(p, x)`. -/
  | drive (p : Pin) (x : Bool)
  /-- `PinMode(p, m)`. -/
  | pinMode (p : Pin) (m : Dir)
  /-- `PullUp(p)`. -/
  | pullUp (p : Pin)
  /-- `Sample(p)`, and where its level goes. -/
  | sample (p : Pin) (dst : SampleTo)
  /-- `tnow <- ClockRead()`. -/
  | clockRead
  /-- `Wait(n)`. -/
  | wait (n : Nat)
  /-- `WaitUntil(t)`. -/
  | waitUntil (t : Nat)
  /-- `name <- constant`. -/
  | assign (a : Assign)
  /-- `Negotiate(b)` on the latched byte: `width8 <-` (44_mode_negotiator.md R161, R162). -/
  | negotiate
  /-- `bf <- v[D7]` (43_bus_decoder.md R150). -/
  | updateBf
  /-- `deadline <- tnow + SelectDelayClass(rs, wbyte)` (41_deadline_tracker.md R115). -/
  | recordDeadline
  /-- `rbyte <- {v[D7], ..., v[D0]}` (43_bus_decoder.md R144). -/
  | rbyteFromLines
  /-- `rbyte <- {hi, lo}` (43_bus_decoder.md R145). -/
  | rbyteFromNibbles
  /-- The test of `AwaitReady`: blind-sleep or not (41_deadline_tracker.md R117). -/
  | awaitTest
  /-- The test at the end of a poll: leave the loop or poll again (43_bus_decoder.md R150). -/
  | loopTest
  /-- The end of the transaction: the response, and back to Idle (46_host_operations.md R191). -/
  | respond
  /-- `raise <Cause>(info)` (60_exceptions.md R211). -/
  | raise (c : Cause) (info : PinVec)
  deriving DecidableEq, Repr

/-- The parameters and inputs of the step, none of which is state of the block (10_state.md R35). -/
structure Env where
  /-- The parameters of 00_scope.md R7 and R8. -/
  params : Params
  /-- `NOW`, in nanoseconds (41_deadline_tracker.md R110). -/
  now    : Nat
  /-- `in[p]`, one bit per pin (10_state.md R25). -/
  pinIn  : PinVec
  /-- The model's own: the environment's next moves; when it is empty they are `freeMoveAt` (log entry 2). -/
  script : List EnvMove
  /-- The model's own: how many moves the environment has made (log entry 2). -/
  draws  : Nat
  /-- The requests the host holds at the port until they are accepted, in its order (46_host_operations.md R191; log entry 6). -/
  host   : List HostRequest
  deriving DecidableEq, Repr

/-- The state of the block (10_state.md), with its inputs in `env`. Pins are indexed as in 10_state.md R21. -/
@[ext]
structure State where
  /-- `READ_EN` (R20). -/
  readEn     : Bool
  /-- `MODE8_EN` (R20). -/
  mode8En    : Bool
  /-- `dir[p]` (R23). -/
  dir        : Vector Dir 11
  /-- `pull[p]` (R25). -/
  pull       : Vector Pull 11
  /-- `out[p]`, a latch (R24). -/
  out        : Vector Bool 11
  /-- `width8`: 0 is FourBit, 1 is EightBit (R26). -/
  width8     : Bool
  /-- `deadline`, in nanoseconds (R27). -/
  deadline   : Nat
  /-- `installed` (R28). -/
  installed  : Bool
  /-- `op` = `{dir, sel}` of the accepted request (R29). -/
  op         : BitVec 2
  /-- `wbyte` (R29). -/
  wbyte      : Byte
  /-- `rbyte` (R29). -/
  rbyte      : Byte
  /-- The latched SETUP operand `r` (46_host_operations.md R191). -/
  setupR     : Bool
  /-- The latched SETUP operand `m` (46_host_operations.md R191). -/
  setupM     : Bool
  /-- The latched SETUP operand `pin_ok` (46_host_operations.md R191). -/
  setupPinOk : PinVec
  /-- `bf`, the last sample of D7 in the busy-wait loop (R30). -/
  bf         : Bool
  /-- `hi`, the first nibble of a 4-bit read (R30). -/
  hi         : Nibble
  /-- `lo`, the second nibble of a 4-bit read (R30). -/
  lo         : Nibble
  /-- `tnow`, the last `ClockRead()` result (R30). -/
  tnow       : Nat
  /-- `rs`, the target of the current transfer (R30). -/
  rs         : Bool
  /-- `v`, the samples of a read strobe cycle, bit i = line Di (43_bus_decoder.md R143). -/
  v          : Byte
  /-- `seq`, the sequencer: the remaining list of events of the current transaction, empty when Idle (R31). -/
  seq        : List Micro
  /-- `setup_ok` (R32). -/
  setupOk    : Bool
  /-- `cause` (R32). -/
  cause      : BitVec 2
  /-- `bad_pins` (R32). -/
  badPins    : PinVec
  /-- `rsp_valid` (46_host_operations.md R190, R191). -/
  rspValid   : Bool
  /-- The parameters and inputs (R35). -/
  env        : Env
  deriving DecidableEq, Repr

/-- No rule of the spec makes the machine stop with a fault: a failed SETUP reports and goes on (60_exceptions.md R211), a
stuck busy flag runs on for ever (R216), and what the block does not serve is refused (46_host_operations.md R197). So no
constructor, and nobody raises one (log entry 13; safe). -/
inductive Fault where
  deriving DecidableEq, Repr

/-- Why a request is given no step (93_implementation_defined.md, treatment `refuse`). -/
inductive Refusal where
  /-- `exec` raises it for an instruction that has no meaning yet; none is left. Safe: nothing follows of such a run. -/
  | notModelled (mnemonic : String)
  /-- Every instruction raises it while a transaction runs: "any request while `busy` = 1" (46_host_operations.md R197 (c),
  U1). Safe: the spec refuses the run. -/
  | busy
  /-- WRD, WRI, RDD, RDS and every command byte raise it "while `installed` = 0" (R197 (a), U9). Safe: the spec refuses
  the run. -/
  | notInstalled
  /-- RDD and RDS raise it "while `READ_EN` = 0" (R197 (b), R215, U2). Safe: the spec refuses the run. -/
  | readWithoutCapability
  /-- SETUP raises it after a successful SETUP (45_node_lifecycle.md R181, U10). Safe: the spec refuses the run. -/
  | alreadyInstalled
  /-- SETCGRAM and SETDDRAM raise it for an address out of range (40_command_bytes.md R97, R98, U6). Safe: the spec
  refuses the constructor call. -/
  | constructorArgument
  deriving DecidableEq, Repr

/-- The state at power-on with given parameters. The spec's own values: `installed` = 0 and `seq` = Idle
(70_reset_and_hazards.md R241). Every other register is unspecified there; the values below are the model's DESIGN CHOICE
(log entry 1, unsafe). -/
def State.powerOn (p : Params) : State where
  readEn     := false
  mode8En    := false
  dir        := Vector.replicate 11 .In
  pull       := Vector.replicate 11 .None
  out        := Vector.replicate 11 false
  width8     := false
  deadline   := 0
  installed  := false
  op         := 0
  wbyte      := 0
  rbyte      := 0
  setupR     := false
  setupM     := false
  setupPinOk := 0
  bf         := false
  hi         := 0
  lo         := 0
  tnow       := 0
  rs         := false
  v          := 0
  seq        := []
  setupOk    := false
  cause      := 0
  badPins    := 0
  rspValid   := false
  env        := { params := p, now := 0, pinIn := 0, script := [], draws := 0, host := [] }

/-- The machine right after reset: power-on with the default parameters of 00_scope.md R8 (log entry 5). -/
def State.reset : State := State.powerOn Params.default

end Sys2Proof.Machine
end

