-- ==== Sys2Proof/Machine/Pins.lean ====
section
/-! DEFINITION. Machine/Pins.lean: the pin index, the lists of lines and the used pins (10_state.md R21; 43_bus_decoder.md
R142; 45_node_lifecycle.md R170, R171). -/

namespace Sys2Proof.Machine

/-- The index table of 10_state.md R21. -/
def Pin.index : Pin → Fin 11
  | .D0 => 0 | .D1 => 1 | .D2 => 2 | .D3 => 3
  | .D4 => 4 | .D5 => 5 | .D6 => 6 | .D7 => 7
  | .RS => 8 | .RW => 9 | .E => 10

/-- The pin's bit in a vector such as `pin_ok` and `bad_pins`. -/
def Pin.bit (p : Pin) : PinVec := 1#11 <<< p.index.val

/-- D0 to D7, ascending. -/
def lines8 : List Pin := [.D0, .D1, .D2, .D3, .D4, .D5, .D6, .D7]

/-- D4 to D7, ascending. -/
def lines4 : List Pin := [.D4, .D5, .D6, .D7]

/-- `ActiveLines()`: the data lines of a width (43_bus_decoder.md R142). -/
def activeLines (width8 : Bool) : List Pin := if width8 then lines8 else lines4

/-- "Used (a used pin) when" of 10_state.md R21. -/
def Pin.used (r m : Bool) : Pin → Bool
  | .D0 | .D1 | .D2 | .D3 => m
  | .D4 | .D5 | .D6 | .D7 => true
  | .RS => true
  | .RW => r
  | .E  => true

/-- The used pins in the order of SETUP: RS, RW, E, D0 to D3, D4 to D7 (45_node_lifecycle.md R170). -/
def usedPins (r m : Bool) : List Pin :=
  [.RS] ++ (if r then [.RW] else []) ++ [.E] ++ (if m then [.D0, .D1, .D2, .D3] else []) ++ lines4

/-- One bit per pin of the list. -/
def maskOf (ps : List Pin) : PinVec := ps.foldr (fun p acc => p.bit ||| acc) 0#11

/-- `bad <- { p in used | pin_ok[p] = 0 }` (45_node_lifecycle.md R170, R171). -/
def failingPins (r m : Bool) (pinOk : PinVec) : PinVec := maskOf (usedPins r m) &&& ~~~pinOk

end Sys2Proof.Machine
end

