-- ==== Sys2Proof/Machine/Operands.lean ====
section
/-! DEFINITION. Machine/Operands.lean: how a byte and the lines make each other up (20_memory.md R54, R55; 30_encoding.md
R10 of 00_scope.md, R81). -/

namespace Sys2Proof.Machine

/-- The high nibble `b[7:4]` (00_scope.md R10). -/
def hiNibble (b : Byte) : Nibble := b.extractLsb' 4 4

/-- The low nibble `b[3:0]` (00_scope.md R10). -/
def loNibble (b : Byte) : Nibble := b.extractLsb' 0 4

/-- `{hi, lo}` (30_encoding.md R81). -/
def joinNibbles (hi lo : Nibble) : Byte := hi ++ lo

/-- `b[i] <- x`. -/
def setBit {n : Nat} (b : BitVec n) (i : Nat) (x : Bool) : BitVec n :=
  if x then b ||| (1#n <<< i) else b &&& ~~~(1#n <<< i)

/-- What each line is driven to: bit j of the value on the j-th line of the list (42_bus_encoder.md R126). -/
def driven {n : Nat} (lines : List Pin) (value : BitVec n) : List (Pin × Bool) :=
  lines.zipIdx.map fun (p, j) => (p, value.getLsbD j)

end Sys2Proof.Machine
end

