-- ==== Sys2Proof/Machine/Flags.lean ====
section
/-! DEFINITION. Machine/Flags.lean: the three predicates of a command byte, the delay class they select, the next width, and
the busy flag of a status byte (30_encoding.md R74, R78; 41_deadline_tracker.md R114; 44_mode_negotiator.md R161). -/

namespace Sys2Proof.Machine

/-- `isLong(b)`: `b[5:0] <= 3`, unsigned (30_encoding.md R74). -/
def isLong (b : Byte) : Bool := (b.extractLsb' 0 6).ule 3#6

/-- `isFS8(b)`: `b[7:4] == 0x3`, the 8-bit function-set pattern (R74). -/
def isFS8 (b : Byte) : Bool := hiNibble b == 0x3#4

/-- `isFS4(b)`: `b[7:4] == 0x2`, the 4-bit function-set pattern (R74). -/
def isFS4 (b : Byte) : Bool := hiNibble b == 0x2#4

/-- `SelectDelayClass(rs, b)`; a memory write is tested first (41_deadline_tracker.md R114). -/
def selectDelayClass (p : Params) (rs : Bool) (b : Byte) : Nat :=
  if rs then p.tExt else if isLong b then p.tLong else p.tShort

/-- The value `Negotiate(b)` leaves in `width8`; `MODE8_EN` plays no part (44_mode_negotiator.md R161, R165). -/
def nextWidth (width8 : Bool) (b : Byte) : Bool :=
  if !width8 && isFS8 b then true
  else if width8 && isFS4 b then false
  else width8

/-- The busy flag of a status byte, 1 = busy (30_encoding.md R78; 43_bus_decoder.md R147). -/
def busyFlag (status : Byte) : Bool := status.getLsbD 7

end Sys2Proof.Machine
end

