-- ==== Sys2Proof/Machine/Ops.lean ====
section
/-! DEFINITION. Machine/Ops.lean: the named operations over the state: pins and what they carry, the environment's move,
accepting a request, raising an error, responding (10_state.md R22 to R25; 46_host_operations.md R191; 60_exceptions.md R211). -/

namespace Sys2Proof.Machine

/-! ## Pins -/

/-- `dir[p]`. -/
def State.dirOf (s : State) (p : Pin) : Dir := s.dir[p.index]

/-- `pull[p]`. -/
def State.pullOf (s : State) (p : Pin) : Pull := s.pull[p.index]

/-- `out[p]`. -/
def State.outOf (s : State) (p : Pin) : Bool := s.out[p.index]

/-- `in[p]`, the present level of the input. -/
def State.inOf (s : State) (p : Pin) : Bool := s.env.pinIn.getLsbD p.index.val

/-- What the block drives onto the pin: `out[p]` while `dir[p]` = Out, nothing while it is In (10_state.md R23). -/
def State.drives (s : State) (p : Pin) : Option Bool :=
  match s.dirOf p with
  | .Out => some (s.outOf p)
  | .In  => none

/-- The level the pin carries: what the block drives, and where it drives nothing what the environment sets (10_state.md
R23). -/
def State.pinLevel (s : State) (p : Pin) : Bool := (s.drives p).getD (s.inOf p)

/-- `Drive(p, x)`: `out[p] <- x` (10_state.md R24). -/
def State.drive (s : State) (p : Pin) (x : Bool) : State := { s with out := s.out.set p.index.val x p.index.isLt }

/-- `PinMode(p, m)`: `dir[p] <- m` (10_state.md R23); the latch keeps its value (R24). -/
def State.pinMode (s : State) (p : Pin) (m : Dir) : State := { s with dir := s.dir.set p.index.val m p.index.isLt }

/-- `PullUp(p)`: `pull[p] <- Up` (10_state.md R25). -/
def State.pullUp (s : State) (p : Pin) : State := { s with pull := s.pull.set p.index.val .Up p.index.isLt }

/-- `Sample(p)`: the present value of `in[p]` goes to bit i of the strobe cycle's `v`, or, in a 4-bit read, to the bit of the
nibble that line D(4+i) carries (43_bus_decoder.md R143; 30_encoding.md R81). -/
def State.sample (s : State) (p : Pin) (dst : SampleTo) : State :=
  match dst with
  | .v  => { s with v := setBit s.v p.index.val (s.inOf p) }
  | .hi => { s with hi := setBit s.hi (p.index.val - 4) (s.inOf p) }
  | .lo => { s with lo := setBit s.lo (p.index.val - 4) (s.inOf p) }

/-! ## Registers -/

/-- The code of a cause (60_exceptions.md R212). -/
def Cause.code : Cause → BitVec 2
  | .none     => 0
  | .cfgErr   => 1
  | .allocErr => 2

/-- `name <- constant`. -/
def State.assign (s : State) : Assign → State
  | .readEn x    => { s with readEn := x }
  | .mode8En x   => { s with mode8En := x }
  | .deadline t  => { s with deadline := t }
  | .width8 x    => { s with width8 := x }
  | .installed x => { s with installed := x }
  | .setupOk x   => { s with setupOk := x }
  | .cause c     => { s with cause := c.code }
  | .badPins b   => { s with badPins := b }

/-! ## The environment -/

/-- How many moves from the n-th on may still let no time pass: `still` says it anew after each move at which the clock had
to go on. -/
def stillMoves (still : Nat → Nat) : Nat → Nat
  | 0 => still 0
  | n + 1 =>
    match stillMoves still n with
    | 0     => still (n + 1)
    | k + 1 => k

/-- The n-th of a sequence of moves, made fair: where no move may stand still any longer, `NOW` grows by at least 1. So the
clock reaches every value, and every clock that does is one of these (41_deadline_tracker.md R110: "for every value t it
eventually reaches t"). -/
def fairMove (still : Nat → Nat) (moves : Nat → EnvMove) (n : Nat) : EnvMove :=
  { moves n with dt := if stillMoves still n = 0 then max 1 (moves n).dt else (moves n).dt }

/-- The environment's n-th move that no script gives (log entry 2). -/
def freeMoveAt (n : Nat) : EnvMove := fairMove Config.freeStill Config.freeMove n

/-- The environment's next move: the head of the script, or a free one (log entry 2). -/
def Env.nextMove (e : Env) : EnvMove := e.script.headD (freeMoveAt e.draws)

/-- The environment moves between two steps: `NOW` never decreases and grows without bound, the pin inputs take any levels
(00_scope.md R12; 41_deadline_tracker.md R110). -/
def Env.advance (e : Env) : Env :=
  { e with
    now    := e.now + e.nextMove.dt
    pinIn  := e.nextMove.pins
    script := e.script.tail
    draws  := e.draws + 1 }

/-- The environment's move, on the whole state: no register of the block changes. -/
def State.envMove (s : State) : State := { s with env := s.env.advance }

/-- `tnow <- ClockRead()`: the value `NOW` has at that event (41_deadline_tracker.md R110). -/
def State.readClock (s : State) : State := { s with tnow := s.env.now }

/-- `NOW` becomes `t`; used by the waits, which are left by the clock alone (60_exceptions.md R233). -/
def State.setNow (s : State) (t : Nat) : State := { s with env := { s.env with now := t } }

/-! ## Transactions -/

/-- `busy` (46_host_operations.md R191): the sequencer is not Idle. -/
def State.busy (s : State) : Bool := !s.seq.isEmpty

/-- A write request is accepted: `op` = `{dir, sel}` and `wbyte` are latched, `rs <- 1 - sel`, and a response still shown is
withdrawn (46_host_operations.md R191, R192; log entry 8). -/
def State.latchWrite (s : State) (op : BitVec 2) (b : Byte) : State :=
  { s with op := op, wbyte := b, rs := !op.getLsbD 0, rspValid := false }

/-- A read request is accepted: `op` is latched, `rs <- 1 - sel`; `wbyte` is written by write requests only (10_state.md
R29). -/
def State.latchRead (s : State) (op : BitVec 2) : State :=
  { s with op := op, rs := !op.getLsbD 0, rspValid := false }

/-- A SETUP request is accepted: its operands are latched (46_host_operations.md R191). -/
def State.latchSetup (s : State) (r m : Bool) (pinOk : PinVec) : State :=
  { s with setupR := r, setupM := m, setupPinOk := pinOk, rspValid := false }

/-- The transaction starts: the sequencer holds its events. -/
def State.start (s : State) (events : List Micro) : State := { s with seq := events }

/-- The end of a transaction: `rsp_valid` is raised; it is the last of the events, so the block is Idle again
(46_host_operations.md R191). -/
def State.respond (s : State) : State := { s with rspValid := true }

/-- `raise <Cause>(info)`, the block's whole exception entry: the transaction ends, the status outputs take their values,
`seq` returns to Idle, nothing is saved and there is no handler (60_exceptions.md R211, R220). `rsp_valid` is raised as at
any transaction's end (46_host_operations.md R191; log entry 8). There is no return operation (R221): after a failed SETUP
the host may issue SETUP again. -/
def State.raise (s : State) (c : Cause) (info : PinVec) : State :=
  { s with setupOk := false, cause := c.code, badPins := info, seq := [], rspValid := true }

/-- Nothing is requested of an idle block: only a response still shown is withdrawn (log entry 8). -/
def State.idle (s : State) : State := { s with rspValid := false }

/-- The host's first held request has been taken from the port. -/
def State.taken (s : State) (rest : List HostRequest) : State := { s with env := { s.env with host := rest } }

end Sys2Proof.Machine
end

