-- ==== Sys2Proof/Machine/Strobe.lean ====
section
/-! DEFINITION. Machine/Strobe.lean: the strobe cycles, direction switching and the busy-wait loop, as lists of events
(00_scope.md R13; 42_bus_encoder.md R126; 43_bus_decoder.md R142, R143, R150). -/

namespace Sys2Proof.Machine

/-- `WriteCycle(lines, value)`: E up, the lines after the rising edge, `T_PW`, E down, `T_PW` (42_bus_encoder.md R126). -/
def writeCycle (p : Params) (levels : List (Pin × Bool)) : List Micro :=
  [.drive .E true] ++ levels.map (fun (q, x) => .drive q x) ++ [.wait p.tPw, .drive .E false, .wait p.tPw]

/-- `ReadCycle(lines)`: E up, `T_PW`, the samples, E down, `T_PW`; with no line it is a dummy cycle (43_bus_decoder.md
R143). -/
def readCycle (p : Params) (lines : List Pin) (dst : SampleTo) : List Micro :=
  [.drive .E true, .wait p.tPw] ++ lines.map (fun q => .sample q dst) ++ [.drive .E false, .wait p.tPw]

/-- `ReadCycle([])`: nothing is sampled. -/
def dummyCycle (p : Params) : List Micro := readCycle p [] .v

/-- `LinesIn()` (43_bus_decoder.md R142). -/
def linesIn (width8 : Bool) : List Micro := (activeLines width8).map fun q => .pinMode q .In

/-- `LinesOut()` (43_bus_decoder.md R142). -/
def linesOut (width8 : Bool) : List Micro := (activeLines width8).map fun q => .pinMode q .Out

/-- One poll of the loop and its test: `v <- ReadCycle([D7]); bf <- v[D7]; if bf = 0: exit loop` (43_bus_decoder.md R150). -/
def poll (p : Params) : List Micro := readCycle p [.D7] .v ++ [.updateBf, .loopTest]

/-- What a poll that read busy is followed by: in 4-bit width with `POLL_PAIR_4` = 1 a dummy cycle, then the next poll
(43_bus_decoder.md R150). -/
def pollAgain (p : Params) (width8 : Bool) : List Micro :=
  (if !width8 && p.pollPair4 then dummyCycle p else []) ++ poll p

/-- The full cycles after the flag reads low: `POLL_TAIL_8` or `POLL_TAIL_4` dummy cycles (43_bus_decoder.md R150). -/
def pollTail (p : Params) (width8 : Bool) : List Micro :=
  (List.replicate (if width8 then p.pollTail8 else p.pollTail4) (dummyCycle p)).flatten

/-- `BusyWait()` up to its first test; `loopTest` continues it (43_bus_decoder.md R150). -/
def busyWait (p : Params) (width8 : Bool) : List Micro :=
  linesIn width8 ++ [.drive .RS false, .drive .RW true] ++ poll p ++ pollTail p width8 ++ linesOut width8

end Sys2Proof.Machine
end

