-- ==== Sys2Proof/Machine/DeadlineTracker.lean ====
section
/-! DEFINITION. Machine/DeadlineTracker.lean: `RecordDeadline` and `AwaitReady` (41_deadline_tracker.md R115 to R119). -/

namespace Sys2Proof.Machine

/-- `RecordDeadline(rs, b)` as events: the clock is read, then the sum is stored (41_deadline_tracker.md R115). -/
def recordDeadlineEvents : List Micro := [.clockRead, .recordDeadline]

/-- `deadline <- tnow + SelectDelayClass(rs, b)`; the store overwrites, no maximum is taken (41_deadline_tracker.md R115). -/
def State.recordDeadline (s : State) : State :=
  { s with deadline := s.tnow + selectDelayClass s.env.params s.rs s.wbyte }

/-- `AwaitReady()` (41_deadline_tracker.md R117): with `READ_EN` = 1 the clock is read, a test decides on the blind-sleep and
the busy-wait always runs; with `READ_EN` = 0 there is no clock read, only the absolute wait (R118). -/
def State.awaitReady (s : State) : List Micro :=
  if s.readEn then [.clockRead, .awaitTest] ++ busyWait s.env.params s.width8
  else [.waitUntil s.deadline]

/-- "deadline > tnow and deadline - tnow > T_THRESH", both strict, the difference formed only when positive
(41_deadline_tracker.md R117, R118). -/
def State.blindSleeps (s : State) : Bool :=
  decide (s.deadline > s.tnow) && decide (s.deadline - s.tnow > s.env.params.tThresh)

/-- The test of `AwaitReady`: `WaitUntil(deadline)` before what remains, or not. -/
def State.awaitTest (s : State) : State :=
  if s.blindSleeps then { s with seq := .waitUntil s.deadline :: s.seq } else s

end Sys2Proof.Machine
end

