-- ==== Sys2Proof/Machine/BusDecoder.lean ====
section
/-! DEFINITION. Machine/BusDecoder.lean: the read path, both widths, and what the busy-wait's test does (43_bus_decoder.md
R140 to R150). -/

namespace Sys2Proof.Machine

/-- A memory read waits for ready first, a status read never waits (43_bus_decoder.md R141). -/
def State.readAwait (s : State) : List Micro := if s.rs then s.awaitReady else []

/-- `Read8(rs)` (43_bus_decoder.md R144). -/
def State.read8 (s : State) : List Micro :=
  s.readAwait ++ linesIn true ++ [.drive .RS s.rs, .drive .RW true]
    ++ readCycle s.env.params lines8.reverse .v ++ linesOut true ++ [.rbyteFromLines]

/-- `Read4(rs)`: the first cycle is the high nibble, the second the low one (43_bus_decoder.md R145). -/
def State.read4 (s : State) : List Micro :=
  s.readAwait ++ linesIn false ++ [.drive .RS s.rs, .drive .RW true]
    ++ readCycle s.env.params lines4.reverse .hi ++ readCycle s.env.params lines4.reverse .lo
    ++ linesOut false ++ [.rbyteFromNibbles]

/-- `Read(rs)`: the variant is chosen by `width8` at the moment of the call (43_bus_decoder.md R146); then the response. -/
def State.readEvents (s : State) : List Micro := (if s.width8 then s.read8 else s.read4) ++ [.respond]

/-- The read's transaction starts. -/
def State.startRead (s : State) : State := s.start s.readEvents

/-- `bf <- v[D7]` (43_bus_decoder.md R150). -/
def State.updateBf (s : State) : State := { s with bf := s.v.getLsbD Pin.D7.index.val }

/-- The test of the loop: with `bf` = 0 it is left, otherwise the next poll comes before what remains (43_bus_decoder.md
R150). There is no bound (R152). -/
def State.loopTest (s : State) : State :=
  if s.bf then { s with seq := pollAgain s.env.params s.width8 ++ s.seq } else s

/-- `rbyte <- {v[D7], ..., v[D0]}` (43_bus_decoder.md R144). -/
def State.rbyteFromLines (s : State) : State := { s with rbyte := s.v }

/-- `rbyte <- {hi, lo}` (43_bus_decoder.md R145). -/
def State.rbyteFromNibbles (s : State) : State := { s with rbyte := joinNibbles s.hi s.lo }

end Sys2Proof.Machine
end

