-- ==== Sys2Proof/Machine/BusEncoder.lean ====
section
/-! DEFINITION. Machine/BusEncoder.lean: the write path, both widths (42_bus_encoder.md R125 to R132). -/

namespace Sys2Proof.Machine

/-- RS gets the target, then RW, if there is one, says write (42_bus_encoder.md R127, R131). -/
def State.writeControls (s : State) : List Micro :=
  [.drive .RS s.rs] ++ (if s.readEn then [.drive .RW false] else [])

/-- `Write8(rs, b)` with `rs` and `b` = `wbyte` as latched (42_bus_encoder.md R127). -/
def State.write8 (s : State) : List Micro :=
  s.awaitReady ++ s.writeControls ++ writeCycle s.env.params (driven lines8 s.wbyte) ++ recordDeadlineEvents

/-- `Write4(rs, b)`: the high nibble first, the low nibble on the same lines (42_bus_encoder.md R128). -/
def State.write4 (s : State) : List Micro :=
  s.awaitReady ++ s.writeControls ++ writeCycle s.env.params (driven lines4 (hiNibble s.wbyte))
    ++ writeCycle s.env.params (driven lines4 (loNibble s.wbyte)) ++ recordDeadlineEvents

/-- `Write(rs, b)`: the variant is chosen by `width8` at the moment of the call (42_bus_encoder.md R129); then the response. -/
def State.writeEvents (s : State) : List Micro := (if s.width8 then s.write8 else s.write4) ++ [.respond]

/-- The write's transaction starts. -/
def State.startWrite (s : State) : State := s.start s.writeEvents

end Sys2Proof.Machine
end

