-- ==== Sys2Proof/Machine/ModeNegotiator.lean ====
section
/-! DEFINITION. Machine/ModeNegotiator.lean: `Negotiate` (44_mode_negotiator.md R160 to R167). -/

namespace Sys2Proof.Machine

/-- `Negotiate(b)` on the latched instruction byte: `width8` follows the two function-set patterns (44_mode_negotiator.md
R161). -/
def State.negotiate (s : State) : State := { s with width8 := nextWidth s.width8 s.wbyte }

end Sys2Proof.Machine
end

