-- ==== Sys2Proof/Machine/Sequencer.lean ====
section
/-! DEFINITION. Machine/Sequencer.lean: what each event of the sequencer does (00_scope.md R11, R12; 10_state.md R31). -/

namespace Sys2Proof.Machine

/-- One event or register update on a state whose `seq` is what remains after it. `Wait(n)` leaves no earlier than `n` after
its entry and `WaitUntil(t)` no earlier than `t` (41_deadline_tracker.md R111, R112); how much later is the environment's
next move (log entry 12). -/
def State.event (s : State) : Micro → State
  | .drive p x        => s.drive p x
  | .pinMode p m      => s.pinMode p m
  | .pullUp p         => s.pullUp p
  | .sample p dst     => s.sample p dst
  | .clockRead        => s.readClock
  | .wait n           => s.setNow (s.env.now + n)
  | .waitUntil t      => s.setNow (max s.env.now t)
  | .assign a         => s.assign a
  | .negotiate        => s.negotiate
  | .updateBf         => s.updateBf
  | .recordDeadline   => s.recordDeadline
  | .rbyteFromLines   => s.rbyteFromLines
  | .rbyteFromNibbles => s.rbyteFromNibbles
  | .awaitTest        => s.awaitTest
  | .loopTest         => s.loopTest
  | .respond          => s.respond
  | .raise c info     => s.raise c info

/-- The sequencer issues `op` and goes on with `rest` (10_state.md R31: `seq` advances one event at a time). -/
def State.runMicro (s : State) (op : Micro) (rest : List Micro) : State := (s.start rest).event op

end Sys2Proof.Machine
end

