-- ==== Sys2Proof/Machine/HostOps.lean ====
section
/-! DEFINITION. Machine/HostOps.lean: the four operations of the host port (46_host_operations.md R192 to R199). -/

namespace Sys2Proof.Machine

/-- What the block serves: nothing while busy, nothing before a successful SETUP (46_host_operations.md R197 (a), (c)). -/
def State.serve (s started : State) : Host.Outcome State Fault Refusal :=
  if s.busy then .refused .busy
  else if !s.installed then .refused .notInstalled
  else .next started

/-- A read is served only with `READ_EN` = 1 as well (46_host_operations.md R197 (b)). -/
def State.serveRead (s started : State) : Host.Outcome State Fault Refusal :=
  if s.busy then .refused .busy
  else if !s.installed then .refused .notInstalled
  else if !s.readEn then .refused .readWithoutCapability
  else .next started

/-- `Negotiate(b); Write(0, b)`: the first step is Negotiate's, and the events after it are those of the width it leaves,
since nothing comes between the two (46_host_operations.md R194; 44_mode_negotiator.md R162, R167). -/
def State.instructionEvents (s : State) : List Micro := .negotiate :: s.negotiate.writeEvents

/-- The instruction write's transaction starts. -/
def State.startInstruction (s : State) : State := s.start s.instructionEvents

/-- The instruction write of a byte (46_host_operations.md R194; 40_command_bytes.md R90). The request's `{dir, sel}` is 01. -/
def State.instructionWrite (s : State) (b : Byte) : Host.Outcome State Fault Refusal :=
  s.serve (s.latchWrite 0b01#2 b).startInstruction

/-- `WRD b`: `Write(1, b)`; the byte is never inspected (46_host_operations.md R193). -/
def execWrd (d : Byte) (s : State) : Host.Outcome State Fault Refusal :=
  s.serve (s.latchWrite 0b00#2 d).startWrite

/-- `WRI b` (46_host_operations.md R194). -/
def execWri (d : Byte) (s : State) : Host.Outcome State Fault Refusal := s.instructionWrite d

/-- `RDD`: `rbyte <- Read(1)`; the data bits of the request are ignored (46_host_operations.md R195; 30_encoding.md R79). -/
def execRdd (_x : Byte) (s : State) : Host.Outcome State Fault Refusal := s.serveRead (s.latchRead 0b10#2).startRead

/-- `RDS`: `rbyte <- Read(0)`; the data bits of the request are ignored (46_host_operations.md R196; 30_encoding.md R79). -/
def execRds (_x : Byte) (s : State) : Host.Outcome State Fault Refusal := s.serveRead (s.latchRead 0b11#2).startRead

end Sys2Proof.Machine
end

