-- ==== Sys2Proof/Machine/CommandBytes.lean ====
section
/-! DEFINITION. Machine/CommandBytes.lean: the command-byte classes as instruction writes, and the host-side constructors
(40_command_bytes.md R90 to R99; 30_encoding.md R83). -/

namespace Sys2Proof.Machine

/-! ## The classes: each is the instruction write of its byte (40_command_bytes.md R90) -/

/-- CLEAR (40_command_bytes.md R91). -/
def execClear (s : State) : Host.Outcome State Fault Refusal := s.instructionWrite clearByte

/-- HOME (R92). -/
def execHome (x : Bool) (s : State) : Host.Outcome State Fault Refusal := s.instructionWrite (homeByte x)

/-- ENTRYMODE (R93). -/
def execEntryMode (inc sh : Bool) (s : State) : Host.Outcome State Fault Refusal := s.instructionWrite (entryModeByte inc sh)

/-- ONOFF (R94). -/
def execOnOff (d c b : Bool) (s : State) : Host.Outcome State Fault Refusal := s.instructionWrite (onOffByte d c b)

/-- SHIFT; the ignored bits are transmitted as given (R95; 30_encoding.md R79). -/
def execShift (sc rl : Bool) (x : BitVec 2) (s : State) : Host.Outcome State Fault Refusal :=
  s.instructionWrite (shiftByte sc rl x)

/-- FUNCSET, the one class `Negotiate` acts on (R96). -/
def execFuncSet (l n f : Bool) (x : BitVec 2) (s : State) : Host.Outcome State Fault Refusal :=
  s.instructionWrite (funcSetByte l n f x)

/-- SETCGRAM; an address above 0x3F is refused at the constructor (R97; U6). -/
def execSetCgram (a : Nat) (s : State) : Host.Outcome State Fault Refusal :=
  if a ≤ 0x3F then s.instructionWrite (setCgramByte a) else .refused .constructorArgument

/-- SETDDRAM; an address above 0x7F is refused at the constructor (R98; U6). -/
def execSetDdram (a : Nat) (s : State) : Host.Outcome State Fault Refusal :=
  if a ≤ 0x7F then s.instructionWrite (setDdramByte a) else .refused .constructorArgument

/-- The classless byte, sent like any instruction byte (R99). -/
def execUndef00 (s : State) : Host.Outcome State Fault Refusal := s.instructionWrite undef00Byte

/-! ## The constructors: pure host-side functions that return the byte (30_encoding.md R83) -/

/-- `Clear()` (40_command_bytes.md R91). -/
def constructClear : Byte := clearByte

/-- `Home()` returns `0x02` (R92). -/
def constructHome : Byte := homeByte false

/-- `EntryMode(decrement, shift)`: `i = 1 - decrement`, `s = shift` (R93). -/
def constructEntryMode (decrement shift : Bool) : Byte := entryModeByte (!decrement) shift

/-- `OnOff(display, cursor, blink)` (R94). -/
def constructOnOff (display cursor blink : Bool) : Byte := onOffByte display cursor blink

/-- `Shift(cursorVsDisplay, leftVsRight)`: `s = cursorVsDisplay`, `r = leftVsRight`, the `xx` bits 0 (R95). -/
def constructShift (cursorVsDisplay leftVsRight : Bool) : Byte := shiftByte cursorVsDisplay leftVsRight 0

/-- `FunctionSet(eightBit, twoLine, tallFont)` (R96). -/
def constructFunctionSet (eightBit twoLine tallFont : Bool) : Byte := funcSetByte eightBit twoLine tallFont 0

/-- `SetCGRAM(address)`, no result above 0x3F (R97; U6). -/
def constructSetCGRAM (address : Nat) : Option Byte := if address ≤ 0x3F then some (setCgramByte address) else none

/-- `SetDDRAM(address)`, no result above 0x7F (R98; U6). -/
def constructSetDDRAM (address : Nat) : Option Byte := if address ≤ 0x7F then some (setDdramByte address) else none

end Sys2Proof.Machine
end

