-- ==== Sys2Proof/Machine/Lifecycle.lean ====
section
/-! DEFINITION. Machine/Lifecycle.lean: the SETUP operation (45_node_lifecycle.md R170 to R182). -/

namespace Sys2Proof.Machine

/-- Step 4 for the listed pins: pull-up, direction output, level 0, pin by pin (45_node_lifecycle.md R174). -/
def idlePins (ps : List Pin) : List Micro := ps.flatMap fun q => [.pullUp q, .pinMode q .Out, .drive q false]

/-- Step 5: one strobe cycle with only D5 driven high, then the settle delay (45_node_lifecycle.md R177). -/
def priming (p : Params) : List Micro := writeCycle p [(.D5, true)] ++ [.wait p.tPrime]

/-- What follows `installed <- 1` in step 6: the status outputs, then the response (45_node_lifecycle.md R170, R178). -/
def setupLast : List Micro := [.assign (.setupOk true), .assign (.cause .none), .assign (.badPins 0), .respond]

/-- Steps 3 to 6 of a SETUP whose pins are valid (45_node_lifecycle.md R170, R173 to R178), then the response. -/
def setupEvents (p : Params) (r m : Bool) : List Micro :=
  [.assign (.readEn r), .assign (.mode8En m), .assign (.deadline 0), .assign (.width8 m)]
    ++ idlePins (usedPins r m)
    ++ (if m then [] else priming p)
    ++ .assign (.installed true) :: setupLast

/-- Step 2 of a SETUP with the failing pins `bad`: the status outputs, then `raise ConfigError(bad)`; no pin event
(45_node_lifecycle.md R170, R172). -/
def failedSetupEvents (bad : PinVec) : List Micro :=
  [.assign (.setupOk false), .assign (.cause .cfgErr), .assign (.badPins bad), .raise .cfgErr bad]

/-- SETUP. Refused while busy (46_host_operations.md R197 (c)) and after a successful SETUP (45_node_lifecycle.md R181).
Otherwise the operands are latched and the transaction starts: every used pin is checked before anything is decided, and on
a violation only step 2 is left to do, with one bit per failing pin (R171, R172). -/
def execSetup (r m : Bool) (pinOk : PinVec) (s : State) : Host.Outcome State Fault Refusal :=
  if s.busy then .refused .busy
  else if s.installed then .refused .alreadyInstalled
  else if failingPins r m pinOk = 0 then .next ((s.latchSetup r m pinOk).start (setupEvents s.env.params r m))
  else .next ((s.latchSetup r m pinOk).start (failedSetupEvents (failingPins r m pinOk)))

end Sys2Proof.Machine
end

