-- ==== Sys2Proof/Machine/Dispatch.lean ====
section
/-! DEFINITION. Machine/Dispatch.lean: the meaning of each instruction, one arm per constructor. -/

namespace Sys2Proof.Machine

/-- What the block does when an instruction is presented to it. -/
def exec (i : Instr) (s : State) : Host.Outcome State Fault Refusal :=
  match i with
  | .setup r m pinOk => Sys2Proof.Machine.execSetup r m pinOk s
  | .wrd d => Sys2Proof.Machine.execWrd d s
  | .wri d => Sys2Proof.Machine.execWri d s
  | .rdd x => Sys2Proof.Machine.execRdd x s
  | .rds x => Sys2Proof.Machine.execRds x s
  | .clear => Sys2Proof.Machine.execClear s
  | .home x => Sys2Proof.Machine.execHome x s
  | .entryMode inc sh => Sys2Proof.Machine.execEntryMode inc sh s
  | .onOff d c b => Sys2Proof.Machine.execOnOff d c b s
  | .shift sc rl x => Sys2Proof.Machine.execShift sc rl x s
  | .funcSet l n f x => Sys2Proof.Machine.execFuncSet l n f x s
  | .setCgram a => Sys2Proof.Machine.execSetCgram a s
  | .setDdram a => Sys2Proof.Machine.execSetDdram a s
  | .undef00 => Sys2Proof.Machine.execUndef00 s

end Sys2Proof.Machine
end

