-- ==== Sys2Proof/Machine/Fetch.lean ====
section
/-! DEFINITION. Machine/Fetch.lean: how the block comes to its next instruction: it accepts a request only in Idle
(46_host_operations.md R191), and only one that reaches it (20_memory.md R58). -/

namespace Sys2Proof.Machine

/-- The instruction a host request stands for, or nothing when the request does not reach the block. -/
def fetched (p : Params) (q : HostRequest) : Option Instr := (q.toPort p.base).map decodeWord

/-- The idle block: with nothing held at the port it stays idle; the first request held is taken and, if it reaches the
block, run. -/
def State.stepIdle (s : State) : Host.Outcome State Fault Refusal :=
  match s.env.host with
  | [] => .next s.idle
  | q :: rest =>
    match fetched s.env.params q with
    | some i => exec i (s.taken rest)
    | none   => .next (s.taken rest).idle

/-- One step after the environment's move: the next event of the transaction, or a look at the port (00_scope.md R12). -/
def State.stepBlock (s : State) : Host.Outcome State Fault Refusal :=
  match s.seq with
  | op :: rest => .next (s.runMicro op rest)
  | []         => s.stepIdle

/-- The word is the request the host holds first, and the sequencer is Idle, where alone a request is accepted. -/
def State.presenting (s : State) (w : PortWord) : State :=
  { s with seq := [], env := { s.env with host := .port w :: s.env.host } }

end Sys2Proof.Machine
end

