-- ==== Sys2Proof/Machine/Step.lean ====
section
/-! DEFINITION. Machine/Step.lean: one step of the machine, and the placement of a table word (00_scope.md R12). -/

namespace Sys2Proof.Machine

/-- One step: the environment moves, then the block issues one event or looks at the port. -/
def step (s : State) : Host.Outcome State Fault Refusal := s.envMove.stepBlock

/-- `s` with that word presented where the very next step takes its request from: first at the host's port, the sequencer
Idle (log entry 6). Bits that are no word of a format present nothing. -/
def State.withFetchWord (s : State) (nbits w : Nat) : State :=
  match portWordOfTable nbits w with
  | some q => s.presenting q
  | none   => s

end Sys2Proof.Machine
end

