-- ==== Sys2Proof/Safety.lean ====
section
/-! DEFINITION. Safety.lean: runs of the machine, the environment's coming moves, what a strobe is, the invariants, and what
a finished transaction leaves: the terms the statements use. -/

namespace Sys2Proof.Machine

/-! ## Runs -/

/-- `n` steps, stopping at the first that is no next state. -/
def steps : Nat → State → Host.Outcome State Fault Refusal
  | 0, s => .next s
  | n + 1, s =>
    match step s with
    | .next t    => steps n t
    | .fault r   => .fault r
    | .refused r => .refused r

/-- The environment's move before the `k`-th coming step, counted from 0. -/
def State.moveAt (s : State) (k : Nat) : EnvMove := (s.env.script[k]?).getD (freeMoveAt (s.env.draws + k))

/-- The level the environment puts on the pin's input before the `k`-th coming step. -/
def State.levelAt (s : State) (k : Nat) (p : Pin) : Bool := (s.moveAt k).pins.getLsbD p.index.val

/-- The clock is ideal for the next `n` steps (41_deadline_tracker.md R113). -/
def State.idealClock (s : State) (n : Nat) : Prop := ∀ k, k < n → (s.moveAt k).dt = 0

/-- E falls from `s` to `t`, the block driving it: "falling edge commits a transferred nibble/byte" (00_scope.md R14). -/
def strobeEnds (s t : State) : Bool := s.drives .E == some true && t.drives .E == some false

/-- How many falling edges of E the next `n` steps have, that is, how many strobe cycles end in them (00_scope.md R13). -/
def strobes : Nat → State → Nat
  | 0, _ => 0
  | n + 1, s =>
    match step s with
    | .next t    => (strobeEnds s t).toNat + strobes n t
    | .fault _   => 0
    | .refused _ => 0

/-- What the block drives onto each pin at each falling edge of E in the next `n` steps; a pin it does not drive carries
nothing of its own (30_encoding.md R75, R76; 10_state.md R23). -/
def commits : Nat → State → List (Pin → Option Bool)
  | 0, _ => []
  | n + 1, s =>
    match step s with
    | .next t    => (if strobeEnds s t then [t.drives] else []) ++ commits n t
    | .fault _   => []
    | .refused _ => []

/-- The block takes operations: Idle and installed (46_host_operations.md R191, R197). -/
abbrev State.Ready (s : State) : Prop := s.seq = [] ∧ s.installed = true

/-! ## Invariants -/

/-- D0 to D3. -/
def Pin.isUpperLine : Pin → Bool
  | .D0 | .D1 | .D2 | .D3 => true
  | _ => false

/-- D0 to D7. -/
def Pin.isDataLine : Pin → Bool
  | .RS | .RW | .E => false
  | _ => true

/-- A data line may be touched: D0 to D3 only in 8-bit width (20_memory.md R55). -/
def Pin.lineAllowed (width8 : Bool) (p : Pin) : Bool := p.isDataLine && (width8 || !p.isUpperLine)

/-- The events a host operation of an installed block may hold after `Negotiate`: it drives RW only with `READ_EN` = 1
(42_bus_encoder.md R131), touches data lines of the active width only (20_memory.md R55), changes the direction of data lines
only (10_state.md R23), never a pull-up (R25), writes no register by a constant, never `Negotiate`s again, and never raises
(60_exceptions.md R211). -/
def Micro.operational (readEn width8 : Bool) : Micro → Bool
  | .drive p _   => p == .RS || p == .E || (p == .RW && readEn) || p.lineAllowed width8
  | .pinMode p _ => p.lineAllowed width8
  | .pullUp _    => false
  | .sample p _  => p.lineAllowed width8
  | .assign _    => false
  | .negotiate   => false
  | .raise _ _   => false
  | _ => true

/-- What remains of a host operation in a block of that configuration: of an instruction write that has just been accepted,
`Negotiate` and then events in the width it leaves (46_host_operations.md R194); otherwise events in the width in force. -/
def State.OperationRemains (s : State) : Prop :=
  (∃ rest, s.seq = .negotiate :: rest ∧ s.op = 0b01#2 ∧
    ∀ op ∈ rest, op.operational s.readEn (nextWidth s.width8 s.wbyte) = true) ∨
  ∀ op ∈ s.seq, op.operational s.readEn s.width8 = true

/-- What the sequencer may hold: before installation what remains of the SETUP whose operands are latched, `installed <- 1`
still to come or the pins failing (nothing when Idle); afterwards SETUP's last phase, or what remains of a host operation. -/
structure SequencerInv (s : State) : Prop where
  beforeSetup : s.installed = false → s.seq ≠ [] →
    if failingPins s.setupR s.setupM s.setupPinOk = 0 then
      s.seq <:+ setupEvents s.env.params s.setupR s.setupM ∧ .assign (.installed true) ∈ s.seq
    else s.seq <:+ failedSetupEvents (failingPins s.setupR s.setupM s.setupPinOk)
  afterSetup  : s.installed = true → s.seq <:+ setupLast ∨ s.OperationRemains

/-- A register or pin after the listed events, if each does to it what `f` says. -/
def after {α : Type} (f : Micro → α → α) (events : List Micro) (x : α) : α := events.foldl (fun y op => f op y) x

/-- What an event does to `out[p]`. -/
def Micro.onOut (p : Pin) : Micro → Bool → Bool
  | .drive q x, y => if q = p then x else y
  | _, y => y

/-- What an event does to `dir[p]`. -/
def Micro.onDir (p : Pin) : Micro → Dir → Dir
  | .pinMode q m, y => if q = p then m else y
  | _, y => y

/-- What an event does to `pull[p]`. -/
def Micro.onPull (p : Pin) : Micro → Pull → Pull
  | .pullUp q, y => if q = p then .Up else y
  | _, y => y

/-- What an event does to `READ_EN`. -/
def Micro.onReadEn : Micro → Bool → Bool
  | .assign (.readEn x), _ => x
  | _, y => y

/-- What an event does to `MODE8_EN`. -/
def Micro.onMode8En : Micro → Bool → Bool
  | .assign (.mode8En x), _ => x
  | _, y => y

/-- What an event does to `width8` while the byte `b` is latched. -/
def Micro.onWidth8 (b : Byte) : Micro → Bool → Bool
  | .assign (.width8 x), _ => x
  | .negotiate, y => nextWidth y b
  | _, y => y

/-- What an event does to `installed`. -/
def Micro.onInstalled : Micro → Bool → Bool
  | .assign (.installed x), _ => x
  | _, y => y

/-- The block is installed at the end of the present transaction: a SETUP whose pins are valid runs, or one has succeeded. -/
abbrev State.Live (s : State) : Prop := after Micro.onInstalled s.seq s.installed = true

/-- Where the present transaction leads: at its end E is low (42_bus_encoder.md R125), every used pin is an output with its
pull-up (45_node_lifecycle.md R174; 43_bus_decoder.md R142), and the configuration is the latched SETUP operands (10_state.md
R20). In an idle installed block, all of this holds now. -/
structure SettledInv (s : State) : Prop where
  strobeLow : s.Live → after (Micro.onOut .E) s.seq (s.outOf .E) = false
  usedOut   : s.Live → ∀ p, p.used s.setupR s.setupM = true → after (Micro.onDir p) s.seq (s.dirOf p) = .Out
  usedUp    : s.Live → ∀ p, p.used s.setupR s.setupM = true → after (Micro.onPull p) s.seq (s.pullOf p) = .Up
  readEn    : s.Live → after Micro.onReadEn s.seq s.readEn = s.setupR
  mode8En   : s.Live → after Micro.onMode8En s.seq s.mode8En = s.setupM

/-- The active width stays within the capability: "active bus-width can be true only if 8-bit-bus-capability is set"
(10_state.md R33 (c)), at the end of the present transaction. -/
def WidthInv (s : State) : Prop :=
  s.Live → after (Micro.onWidth8 s.wbyte) s.seq s.width8 = true → after Micro.onMode8En s.seq s.mode8En = true

/-- A blind-sleep never covers more than the long class: `tnow` lies in the past and `deadline` at most `T_LONG` ahead
(41_deadline_tracker.md R120 (b)). -/
def DeadlineInv (s : State) : Prop :=
  s.tnow ≤ s.env.now ∧ s.deadline ≤ s.env.now + s.env.params.tLong

/-- The bound of 00_scope.md R8 between the classes: `T_SHORT, T_EXT <= T_LONG`. -/
def ClassesOrdered (p : Params) : Prop := p.tShort ≤ p.tLong ∧ p.tExt ≤ p.tLong

/-- The instruction byte an instruction sends with RS deasserted, if it is an instruction write. -/
def instructionByte : Instr → Option Byte
  | .wri d           => some d
  | .clear           => some clearByte
  | .home x          => some (homeByte x)
  | .entryMode i s   => some (entryModeByte i s)
  | .onOff d c b     => some (onOffByte d c b)
  | .shift sc rl x   => some (shiftByte sc rl x)
  | .funcSet l n f x => some (funcSetByte l n f x)
  | .setCgram a      => some (setCgramByte a)
  | .setDdram a      => some (setDdramByte a)
  | .undef00         => some undef00Byte
  | .setup _ _ _     => none
  | .wrd _           => none
  | .rdd _           => none
  | .rds _           => none

/-- The host respects hazard rule R252 of 70_reset_and_hazards.md: while `MODE8_EN` = 0 it holds no instruction write of a
`0x3_` byte. -/
def HostObeysR252 (s : State) : Prop :=
  s.mode8En = false → ∀ q ∈ s.env.host, ∀ i b, fetched s.env.params q = some i → instructionByte i = some b →
    isFS8 b = false

/-! ## What a finished transaction leaves -/

/-- The registers only SETUP writes, the pull-ups and the parameters, and the requests still held are as before. -/
structure SameSetup (s u : State) : Prop where
  readEn     : u.readEn = s.readEn
  mode8En    : u.mode8En = s.mode8En
  pull       : u.pull = s.pull
  installed  : u.installed = s.installed
  setupR     : u.setupR = s.setupR
  setupM     : u.setupM = s.setupM
  setupPinOk : u.setupPinOk = s.setupPinOk
  setupOk    : u.setupOk = s.setupOk
  cause      : u.cause = s.cause
  badPins    : u.badPins = s.badPins
  params     : u.env.params = s.env.params
  host       : u.env.host = s.env.host

/-- The transaction is over: the block is Idle and shows its response (46_host_operations.md R191). -/
abbrev State.Responded (u : State) : Prop := u.seq = [] ∧ u.rspValid = true

/-- The state `u` a write of `b` with target `rs` and width `w` leaves, begun in `s` (42_bus_encoder.md R127, R128, R130). -/
structure WriteLeft (s u : State) (op : BitVec 2) (rs w : Bool) (b : Byte) : Prop where
  responded : u.Responded
  same      : SameSetup s u
  width8    : u.width8 = w
  opLatch   : u.op = op
  wbyte     : u.wbyte = b
  rbyte     : u.rbyte = s.rbyte
  hi        : u.hi = s.hi
  lo        : u.lo = s.lo
  rsLatch   : u.rs = rs
  strobe    : u.outOf .E = false
  target    : u.outOf .RS = rs
  direction : u.outOf .RW = if s.readEn then false else s.outOf .RW
  lines8    : w = true → u.outOf .D0 = b.getLsbD 0 ∧ u.outOf .D1 = b.getLsbD 1 ∧ u.outOf .D2 = b.getLsbD 2 ∧
                u.outOf .D3 = b.getLsbD 3 ∧ u.outOf .D4 = b.getLsbD 4 ∧ u.outOf .D5 = b.getLsbD 5 ∧
                u.outOf .D6 = b.getLsbD 6 ∧ u.outOf .D7 = b.getLsbD 7
  lines4    : w = false → u.outOf .D4 = b.getLsbD 0 ∧ u.outOf .D5 = b.getLsbD 1 ∧ u.outOf .D6 = b.getLsbD 2 ∧
                u.outOf .D7 = b.getLsbD 3 ∧ u.outOf .D0 = s.outOf .D0 ∧ u.outOf .D1 = s.outOf .D1 ∧
                u.outOf .D2 = s.outOf .D2 ∧ u.outOf .D3 = s.outOf .D3
  dir       : ∀ p, u.dirOf p = if s.readEn && p.lineAllowed w then .Out else s.dirOf p
  deadline  : u.deadline = u.tnow + selectDelayClass s.env.params rs b
  clock     : u.tnow ≤ u.env.now

/-- The state `u` a read from target `rs` leaves, begun in `s` (43_bus_decoder.md R148, R149). -/
structure ReadLeft (s u : State) (op : BitVec 2) (rs : Bool) : Prop where
  responded : u.Responded
  same      : SameSetup s u
  width8    : u.width8 = s.width8
  deadline  : u.deadline = s.deadline
  opLatch   : u.op = op
  wbyte     : u.wbyte = s.wbyte
  rsLatch   : u.rs = rs
  strobe    : u.outOf .E = false
  target    : u.outOf .RS = rs
  direction : u.outOf .RW = true
  lines     : ∀ p, p.isDataLine = true → u.outOf p = s.outOf p
  dir       : ∀ p, u.dirOf p = if p.lineAllowed s.width8 then .Out else s.dirOf p

end Sys2Proof.Machine
end

