-- ==== Sys2Proof/Certificates/Slice0/Obligations.lean ====
section
/-! DEFINITION. Certificates/Slice0/Obligations.lean: the statements for the provers, with the event lists they name written
out from the spec's pseudocode. -/

namespace Sys2Proof.Expected

open Sys2Proof.Machine

/-- One dummy strobe cycle (43_bus_decoder.md R143). -/
def dummy (p : Params) : List Micro := [.drive .E true, .wait p.tPw, .drive .E false, .wait p.tPw]

/-- One poll of D7 and what follows from it (43_bus_decoder.md R150). -/
def pollOnce (p : Params) : List Micro :=
  [.drive .E true, .wait p.tPw, .sample .D7 .v, .drive .E false, .wait p.tPw, .updateBf, .loopTest]

/-- `BusyWait()` in 8-bit width (43_bus_decoder.md R150). -/
def busyWait8 (p : Params) : List Micro :=
  [.pinMode .D0 .In, .pinMode .D1 .In, .pinMode .D2 .In, .pinMode .D3 .In, .pinMode .D4 .In, .pinMode .D5 .In,
   .pinMode .D6 .In, .pinMode .D7 .In, .drive .RS false, .drive .RW true]
  ++ pollOnce p ++ (List.replicate p.pollTail8 (dummy p)).flatten
  ++ [.pinMode .D0 .Out, .pinMode .D1 .Out, .pinMode .D2 .Out, .pinMode .D3 .Out, .pinMode .D4 .Out, .pinMode .D5 .Out,
      .pinMode .D6 .Out, .pinMode .D7 .Out]

/-- `BusyWait()` in 4-bit width (43_bus_decoder.md R150). -/
def busyWait4 (p : Params) : List Micro :=
  [.pinMode .D4 .In, .pinMode .D5 .In, .pinMode .D6 .In, .pinMode .D7 .In, .drive .RS false, .drive .RW true]
  ++ pollOnce p ++ (List.replicate p.pollTail4 (dummy p)).flatten
  ++ [.pinMode .D4 .Out, .pinMode .D5 .Out, .pinMode .D6 .Out, .pinMode .D7 .Out]

/-- `AwaitReady()` (41_deadline_tracker.md R117). -/
def awaitReady (p : Params) (readEn w : Bool) (deadline : Nat) : List Micro :=
  match readEn, w with
  | false, _    => [.waitUntil deadline]
  | true, true  => [.clockRead, .awaitTest] ++ busyWait8 p
  | true, false => [.clockRead, .awaitTest] ++ busyWait4 p

/-- `Write(rs, b)` in the width `w`, and the response (42_bus_encoder.md R127 to R129). -/
def write (p : Params) (readEn w : Bool) (deadline : Nat) (rs : Bool) (b : Byte) : List Micro :=
  awaitReady p readEn w deadline
  ++ (match readEn with
      | true  => [.drive .RS rs, .drive .RW false]
      | false => [.drive .RS rs])
  ++ (match w with
      | true =>
        [.drive .E true, .drive .D0 (b.getLsbD 0), .drive .D1 (b.getLsbD 1), .drive .D2 (b.getLsbD 2),
         .drive .D3 (b.getLsbD 3), .drive .D4 (b.getLsbD 4), .drive .D5 (b.getLsbD 5), .drive .D6 (b.getLsbD 6),
         .drive .D7 (b.getLsbD 7), .wait p.tPw, .drive .E false, .wait p.tPw]
      | false =>
        [.drive .E true, .drive .D4 (b.getLsbD 4), .drive .D5 (b.getLsbD 5), .drive .D6 (b.getLsbD 6),
         .drive .D7 (b.getLsbD 7), .wait p.tPw, .drive .E false, .wait p.tPw,
         .drive .E true, .drive .D4 (b.getLsbD 0), .drive .D5 (b.getLsbD 1), .drive .D6 (b.getLsbD 2),
         .drive .D7 (b.getLsbD 3), .wait p.tPw, .drive .E false, .wait p.tPw])
  ++ [.clockRead, .recordDeadline, .respond]

/-- `Read(rs)` in the width `w`, and the response (43_bus_decoder.md R144 to R146). -/
def read (p : Params) (w : Bool) (deadline : Nat) (rs : Bool) : List Micro :=
  (match rs with
   | true  => awaitReady p true w deadline
   | false => [])
  ++ (match w with
      | true =>
        [.pinMode .D0 .In, .pinMode .D1 .In, .pinMode .D2 .In, .pinMode .D3 .In, .pinMode .D4 .In, .pinMode .D5 .In,
         .pinMode .D6 .In, .pinMode .D7 .In, .drive .RS rs, .drive .RW true,
         .drive .E true, .wait p.tPw, .sample .D7 .v, .sample .D6 .v, .sample .D5 .v, .sample .D4 .v, .sample .D3 .v,
         .sample .D2 .v, .sample .D1 .v, .sample .D0 .v, .drive .E false, .wait p.tPw,
         .pinMode .D0 .Out, .pinMode .D1 .Out, .pinMode .D2 .Out, .pinMode .D3 .Out, .pinMode .D4 .Out,
         .pinMode .D5 .Out, .pinMode .D6 .Out, .pinMode .D7 .Out, .rbyteFromLines, .respond]
      | false =>
        [.pinMode .D4 .In, .pinMode .D5 .In, .pinMode .D6 .In, .pinMode .D7 .In, .drive .RS rs, .drive .RW true,
         .drive .E true, .wait p.tPw, .sample .D7 .hi, .sample .D6 .hi, .sample .D5 .hi, .sample .D4 .hi,
         .drive .E false, .wait p.tPw,
         .drive .E true, .wait p.tPw, .sample .D7 .lo, .sample .D6 .lo, .sample .D5 .lo, .sample .D4 .lo,
         .drive .E false, .wait p.tPw,
         .pinMode .D4 .Out, .pinMode .D5 .Out, .pinMode .D6 .Out, .pinMode .D7 .Out, .rbyteFromNibbles, .respond])

/-- Step 4 of SETUP for one pin (45_node_lifecycle.md R174). -/
def idlePin (q : Pin) : List Micro := [.pullUp q, .pinMode q .Out, .drive q false]

/-- SETUP with valid pins, and the response (45_node_lifecycle.md R170). -/
def setup (p : Params) (r m : Bool) : List Micro :=
  [.assign (.readEn r), .assign (.mode8En m), .assign (.deadline 0), .assign (.width8 m)]
  ++ idlePin .RS ++ (match r with | true => idlePin .RW | false => []) ++ idlePin .E
  ++ (match m with | true => idlePin .D0 ++ idlePin .D1 ++ idlePin .D2 ++ idlePin .D3 | false => [])
  ++ idlePin .D4 ++ idlePin .D5 ++ idlePin .D6 ++ idlePin .D7
  ++ (match m with
      | true  => []
      | false => [.drive .E true, .drive .D5 true, .wait p.tPw, .drive .E false, .wait p.tPw, .wait p.tPrime])
  ++ [.assign (.installed true), .assign (.setupOk true), .assign (.cause .none), .assign (.badPins 0), .respond]

/-- The blind-sleep is taken in the `AwaitReady` that begins in `t`, its clock being read in its first step: more than
`T_THRESH` remains (41_deadline_tracker.md R117). -/
def sleeps (t : State) : Bool := decide (t.env.now + (t.moveAt 0).dt + t.env.params.tThresh < t.deadline)

/-- What a blind write (`READ_EN` = 0) requested in `s` comes to, from the state `t` in which `Write` starts: in `n` steps it
is over, the block is in the state the write leaves, E has fallen once (8-bit) or twice (4-bit), the bus cycles began no
earlier than `deadline`, and under the ideal clock it took exactly its waits (42_bus_encoder.md R130; 46_host_operations.md
R200; 41_deadline_tracker.md R120 (a)). -/
def BlindWrite (s t : State) (op : BitVec 2) (rs w : Bool) (b : Byte) : Prop :=
  let n := if w then 17 else 21
  let held := (if w then 2 else 4) * s.env.params.tPw
  ∃ u, steps n t = .next u ∧ WriteLeft s u op rs w b ∧ u.bf = s.bf ∧ u.v = s.v ∧
    (s.drives .E = some false → strobes n t = if w then 1 else 2) ∧
    max t.env.now s.deadline + held ≤ u.tnow ∧
    (t.idealClock n → u.env.now = max t.env.now s.deadline + held ∧ u.tnow = u.env.now)

/-- The same for a write with `READ_EN` = 1 whose first poll reads "ready": the poll is sampled in step 14 (8-bit) or 10
(4-bit) of `Write`, one later after a blind-sleep, and after a blind-sleep no cycle of the busy-wait or of the write begins
before `deadline` (43_bus_decoder.md R150; 41_deadline_tracker.md R117; 46_host_operations.md R200). -/
def PolledWrite (s t : State) (op : BitVec 2) (rs w : Bool) (b : Byte) : Prop :=
  t.levelAt ((if w then 14 else 10) + (sleeps t).toNat) .D7 = false →
  let tail := if w then s.env.params.pollTail8 else s.env.params.pollTail4
  let n := (if w then 27 else 19) + (sleeps t).toNat + 4 * tail + (if w then 17 else 21)
  let held := (2 + 2 * tail + (if w then 2 else 4)) * s.env.params.tPw
  ∃ u, steps n t = .next u ∧ WriteLeft s u op rs w b ∧ u.bf = false ∧
    (s.drives .E = some false → strobes n t = 1 + tail + (if w then 1 else 2)) ∧
    t.env.now + held ≤ u.tnow ∧
    (sleeps t = true → s.deadline + held ≤ u.tnow) ∧
    (t.idealClock n → u.env.now = (if sleeps t then s.deadline else t.env.now) + held ∧ u.tnow = u.env.now)

/-- The first step of an instruction write: `Negotiate` writes `width8` and nothing else, and what follows it is to come
(44_mode_negotiator.md R162; 46_host_operations.md R194). -/
def NegotiateStep (s t t₁ : State) (b : Byte) : Prop :=
  t.width8 = s.width8 ∧ t.env = s.env ∧ t.seq.head? = some .negotiate ∧ step t = .next t₁ ∧
    t₁ = { t with width8 := nextWidth s.width8 b, seq := t.seq.tail, env := t.env.advance }

/-- The level `x` on a pin of a block with the directions of `s`: nothing where it does not drive (10_state.md R23). -/
def onLine (s : State) (p : Pin) (x : Bool) : Option Bool := if s.dirOf p = .Out then some x else none

/-- What a strobe cycle of a write commits, its data lines carrying `bit` (30_encoding.md R75, R76): the target on RS, "write"
on RW where the block has it, the bits on the lines of the width, and on D0 to D3 in 4-bit width what was there before. With
`READ_EN` = 1 the busy-wait before it has made the lines outputs. -/
structure WriteCommit (s : State) (rs w : Bool) (bit : Pin → Bool) (c : Pin → Option Bool) : Prop where
  target    : c .RS = onLine s .RS rs
  direction : c .RW = if s.readEn then onLine s .RW false else s.drives .RW
  lines     : ∀ p, p.lineAllowed w = true → c p = if s.readEn then some (bit p) else onLine s p (bit p)
  untouched : ∀ p, p.isDataLine = true → p.lineAllowed w = false → c p = s.drives p

/-- What the block drives at the falling edge of a poll: RS = 0, RW = 1, and nothing on the lines of the width (43_bus_decoder.md
R150, R142). -/
structure PollCommit (s : State) (w : Bool) (c : Pin → Option Bool) : Prop where
  target    : c .RS = onLine s .RS false
  direction : c .RW = onLine s .RW true
  lines     : ∀ p, p.lineAllowed w = true → c p = none
  untouched : ∀ p, p.isDataLine = true → p.lineAllowed w = false → c p = s.drives p

end Sys2Proof.Expected

open Sys2Proof Sys2Proof.Machine

/-! ## Encoding -/

/-- Decoding and encoding agree: every well-formed instruction is read back from its word with every operand, and every word
of every format is the word of the well-formed instruction it decodes to (30_encoding.md R70 to R73, R79). -/
def Obligations.DecodeAndEncodeAgree : Prop :=
  (∀ i, WellFormed i → decodeWord (encode i) = i) ∧ (∀ w, WellFormed (decodeWord w) ∧ encode (decodeWord w) = w)

/-- A few words written out from the spec's encodings decode to the instruction they stand for (30_encoding.md R71 to R73;
95_test_vectors.md 2.3 and program P5), and bits that do not fit a format are rejected by name. The classes and operand
positions of the four command bytes are the spec's general knowledge G1 (log entry 15, PRESUMED). -/
def Obligations.SpecWordsDecode : Prop :=
  decode .hostreq 0x048 = .ok (.wrd 0x48#8) ∧ decode .hostreq 0x138 = .ok (.wri 0x38#8) ∧
  decode .hostreq 0x2A7 = .ok (.rdd 0xA7#8) ∧ decode .hostreq 0x3FF = .ok (.rds 0xFF#8) ∧
  decode .setupreq 0x15BD = .ok (.setup true false 0x5BD#11) ∧ decode .setupreq 0x0FFF = .ok (.setup false true 0x7FF#11) ∧
  decode .cmdbyte 0x28 = .ok (.funcSet false true false 0#2) ∧ decode .cmdbyte 0xC0 = .ok (.setDdram 0x40) ∧
  decode .cmdbyte 0x06 = .ok (.entryMode true false) ∧ decode .cmdbyte 0x00 = .ok .undef00 ∧
  decode .cmdbyte 0x100 = .error (.tooWide .cmdbyte) ∧ decode .hostreq 0x400 = .error (.tooWide .hostreq)

/-- "The nine patterns are disjoint and cover all 256 byte values": the one row that holds of a byte is the row of the
instruction it decodes to (30_encoding.md R73; the bit layouts are the spec's general knowledge G1, log entry 15). -/
def Obligations.CommandByteRowsPartition : Prop :=
  ∀ b : Byte, (decodeCmdByte b).row ∈ cmdRows ∧
    ∀ r ∈ cmdRows, (r.holds (.cmdbyte b) = true ↔ r = (decodeCmdByte b).row)

/-- The host map: a write or read at BASE or BASE+1 is the operation of 20_memory.md R50 with the low 8 bits of the value
(46_host_operations.md R198), and an access to any other address does not reach the block (20_memory.md R58): only the host
goes on to its next request. That a response still shown is withdrawn in that step is the model's choice (log entry 8). -/
def Obligations.HostAccessMap : Prop :=
  (∀ p v, fetched p (.write p.base v) = some (.wrd (BitVec.ofNat 8 v)) ∧
    fetched p (.write (p.base + 1) v) = some (.wri (BitVec.ofNat 8 v)) ∧
    fetched p (.read p.base) = some (.rdd 0) ∧ fetched p (.read (p.base + 1)) = some (.rds 0)) ∧
  (∀ (s : State) (a v : Nat) (q : HostRequest) (rest : List HostRequest), s.seq = [] →
    a ≠ s.env.params.base → a ≠ s.env.params.base + 1 → (q = .write a v ∨ q = .read a) → s.env.host = q :: rest →
    step s = .next { s with rspValid := false, env := { s.env.advance with host := rest } })

/-! ## The predicates of a command byte -/

/-- The three predicates of 30_encoding.md R74, the sixteen long bytes, and FUNCSET as the bytes of the two patterns. -/
def Obligations.CommandBytePredicates : Prop :=
  ∀ b : Byte, isLong b = decide (b.toNat % 64 ≤ 3) ∧ isFS8 b = decide (b.toNat / 16 = 3) ∧
    isFS4 b = decide (b.toNat / 16 = 2) ∧
    (isLong b = true ↔ b.toNat ∈ [0x00, 0x01, 0x02, 0x03, 0x40, 0x41, 0x42, 0x43, 0x80, 0x81, 0x82, 0x83,
      0xC0, 0xC1, 0xC2, 0xC3]) ∧
    ((isFS8 b || isFS4 b) = true ↔ ∃ l n f x, decodeCmdByte b = .funcSet l n f x)

/-- `SelectDelayClass` (41_deadline_tracker.md R114): extended for a memory write whatever the byte, else long when the low
six bits are at most 3, else short. -/
def Obligations.DelayClassRule : Prop :=
  ∀ (p : Params) (b : Byte), selectDelayClass p true b = p.tExt ∧
    (b.toNat % 64 ≤ 3 → selectDelayClass p false b = p.tLong) ∧
    (3 < b.toNat % 64 → selectDelayClass p false b = p.tShort)

/-- `Negotiate` (44_mode_negotiator.md R161): FourBit becomes EightBit exactly on a byte whose high nibble is 3, EightBit
becomes FourBit exactly on one whose high nibble is 2, and nothing but `width8` changes. -/
def Obligations.NegotiateTransitions : Prop :=
  ∀ s : State,
    s.negotiate = { s with width8 := s.negotiate.width8 } ∧
    (s.width8 = false → (s.negotiate.width8 = true ↔ s.wbyte.toNat / 16 = 3)) ∧
    (s.width8 = true → (s.negotiate.width8 = false ↔ s.wbyte.toNat / 16 = 2))

/-- "It is idempotent", and after a function-set byte `width8` is its bit 4 whatever it was (44_mode_negotiator.md R164). -/
def Obligations.NegotiateIdempotent : Prop :=
  ∀ s : State, s.negotiate.negotiate = s.negotiate ∧
    (s.wbyte.toNat / 16 = 2 ∨ s.wbyte.toNat / 16 = 3 → s.negotiate.width8 = s.wbyte.getLsbD 4) ∧
    (s.wbyte.toNat / 16 ≠ 2 → s.wbyte.toNat / 16 ≠ 3 → s.negotiate.width8 = s.width8)

/-- What the block does with each of the 256 values of an instruction byte: class, width and delay class by range
(40_command_bytes.md R100). The class column rests on the bit layouts, the spec's general knowledge G1 (log entry 15,
PRESUMED). -/
def Obligations.TreatmentOfEveryByte : Prop :=
  ∀ (b : Byte) (w : Bool) (p : Params),
    let v := b.toNat
    let long := v ≤ 0x03 ∨ (0x40 ≤ v ∧ v ≤ 0x43) ∨ (0x80 ≤ v ∧ v ≤ 0x83) ∨ (0xC0 ≤ v ∧ v ≤ 0xC3)
    (v = 0 → decodeCmdByte b = .undef00) ∧ (v = 1 → decodeCmdByte b = .clear) ∧
    (2 ≤ v ∧ v ≤ 3 → ∃ x, decodeCmdByte b = .home x) ∧ (4 ≤ v ∧ v ≤ 7 → ∃ i h, decodeCmdByte b = .entryMode i h) ∧
    (8 ≤ v ∧ v ≤ 0xF → ∃ d c k, decodeCmdByte b = .onOff d c k) ∧
    (0x10 ≤ v ∧ v ≤ 0x1F → ∃ c r x, decodeCmdByte b = .shift c r x) ∧
    (0x20 ≤ v ∧ v ≤ 0x2F → (∃ n f x, decodeCmdByte b = .funcSet false n f x) ∧ nextWidth w b = false) ∧
    (0x30 ≤ v ∧ v ≤ 0x3F → (∃ n f x, decodeCmdByte b = .funcSet true n f x) ∧ nextWidth w b = true) ∧
    (0x40 ≤ v ∧ v ≤ 0x7F → decodeCmdByte b = .setCgram (v - 0x40)) ∧
    (0x80 ≤ v → decodeCmdByte b = .setDdram (v - 0x80)) ∧
    (v < 0x20 ∨ 0x40 ≤ v → nextWidth w b = w) ∧
    (long → selectDelayClass p false b = p.tLong) ∧ (¬long → selectDelayClass p false b = p.tShort)

/-- The eight constructors return the bytes of 40_command_bytes.md R91 to R98 (bit layouts G1, log entry 15; polarities D22),
and the two addresses out of range have no result (U6). -/
def Obligations.ConstructorBytes : Prop :=
  constructClear = 0x01#8 ∧ constructHome = 0x02#8 ∧
  (∀ dec sh : Bool, (constructEntryMode dec sh).toNat = 0x04 + 2 * (!dec).toNat + sh.toNat) ∧
  (∀ d c k : Bool, (constructOnOff d c k).toNat = 0x08 + 4 * d.toNat + 2 * c.toNat + k.toNat) ∧
  (∀ c r : Bool, (constructShift c r).toNat = 0x10 + 8 * c.toNat + 4 * r.toNat) ∧
  (∀ e t f : Bool, (constructFunctionSet e t f).toNat = 0x20 + 16 * e.toNat + 8 * t.toNat + 4 * f.toNat) ∧
  (∀ a, a ≤ 0x3F → constructSetCGRAM a = some (BitVec.ofNat 8 (0x40 + a))) ∧
  (∀ a, 0x3F < a → constructSetCGRAM a = none) ∧
  (∀ a, a ≤ 0x7F → constructSetDDRAM a = some (BitVec.ofNat 8 (0x80 + a))) ∧
  (∀ a, 0x7F < a → constructSetDDRAM a = none)

/-! ## The step -/

/-- A step of an idle block runs the instruction the first held request stands for, after the environment's move and with
that request taken; in particular, of a table word placed where the next step fetches, the decoded instruction
(46_host_operations.md R190, R191; the list of held requests is log entry 6). -/
def Obligations.StepRunsTheDecodedInstruction : Prop :=
  (∀ (s : State) (q : HostRequest) (rest : List HostRequest) (i : Instr), s.seq = [] → s.env.host = q :: rest →
    fetched s.env.params q = some i → step s = exec i { s with env := { s.env.advance with host := rest } }) ∧
  (∀ (s : State) (nbits w : Nat) (i : Instr), decodeTableWord nbits w = some i →
    step (s.withFetchWord nbits w) = exec i { s with seq := [], env := s.env.advance })

/-- A step of a busy block issues the next event of its transaction after the environment's move; the requests the host
holds are not looked at (46_host_operations.md R191; 10_state.md R31). -/
def Obligations.BusyStepIssuesTheNextEvent : Prop :=
  ∀ (s : State) (op : Micro) (rest : List Micro), s.seq = op :: rest →
    step s = .next ({ s with seq := rest, env := s.env.advance }.event op) ∧
    ∀ hs, step { s with env := { s.env with host := hs } } =
      .next { ({ s with seq := rest, env := s.env.advance }.event op) with
        env := { ({ s with seq := rest, env := s.env.advance }.event op).env with host := hs } }

/-- An idle block with no request held stays idle: only time passes (70_reset_and_hazards.md R240; that a response still
shown is withdrawn is the model's choice, log entry 8). -/
def Obligations.IdleBlockWaits : Prop :=
  ∀ s : State, s.seq = [] → s.env.host = [] → step s = .next { s with rspValid := false, env := s.env.advance }

/-- Requests are taken one at a time from the front, in the order the host issues them, and only by an idle block
(20_memory.md R62, R59; the list is log entry 6). -/
def Obligations.RequestsAreTakenInOrder : Prop :=
  ∀ s t : State, step s = .next t →
    t.env.host = s.env.host ∨ (s.seq = [] ∧ ∃ q, s.env.host = q :: t.env.host)

/-- `NOW` never decreases, and no step changes a parameter (41_deadline_tracker.md R110; 00_scope.md R7, R8). -/
def Obligations.ClockIsMonotone : Prop :=
  ∀ s t : State, step s = .next t → s.env.now ≤ t.env.now ∧ t.env.params = s.env.params

/-- `NOW` is unbounded: "for every value t it eventually reaches t" (41_deadline_tracker.md R110). In every run that does not
end the clock reaches every value, whatever the block does, and so it does while an idle block waits for a request. That the
environment's moves are a script and then free ones is log entry 2. -/
def Obligations.ClockIsUnbounded : Prop :=
  ∀ (s : State) (t : Nat),
    ((∀ n, ∃ u, steps n s = .next u) → ∃ n u, steps n s = .next u ∧ t ≤ u.env.now) ∧
    (s.seq = [] → s.env.host = [] → ∃ n u, steps n s = .next u ∧ u.seq = [] ∧ u.env.host = [] ∧ t ≤ u.env.now)

/-- The waits are lower bounds: `Wait(n)` leaves no earlier than `n` after it was entered, `WaitUntil(t)` with `NOW >= t`, at
once if that holds already; neither touches a register (41_deadline_tracker.md R111, R112). -/
def Obligations.WaitsAreLowerBounds : Prop :=
  ∀ (s : State) (rest : List Micro) (n : Nat),
    (s.seq = .wait n :: rest → ∃ u, step s = .next u ∧ s.env.now + n ≤ u.env.now ∧
      u.env.now = s.env.now + (s.moveAt 0).dt + n ∧ u = { s with seq := rest, env := u.env }) ∧
    (s.seq = .waitUntil n :: rest → ∃ u, step s = .next u ∧ n ≤ u.env.now ∧
      (n ≤ s.env.now → u.env.now = s.env.now + (s.moveAt 0).dt) ∧ u = { s with seq := rest, env := u.env })

/-- The pin events: `Drive`, `PinMode` and `PullUp` change one register of one pin and nothing else in the block, so the latch
keeps its value when the direction changes; `Sample` puts the present input level of a data line into its bit of `v`, or of
a line D4 to D7 into its bit of the nibble, and changes nothing else (10_state.md R23 to R25; 30_encoding.md R81). -/
def Obligations.PinEventsAreLocal : Prop :=
  ∀ (s : State) (p q : Pin) (x : Bool) (m : Dir),
    (s.drive p x = { s with out := (s.drive p x).out } ∧
      (s.drive p x).outOf q = if p = q then x else s.outOf q) ∧
    (s.pinMode p m = { s with dir := (s.pinMode p m).dir } ∧
      (s.pinMode p m).dirOf q = if p = q then m else s.dirOf q) ∧
    (s.pullUp p = { s with pull := (s.pullUp p).pull } ∧
      (s.pullUp p).pullOf q = if p = q then .Up else s.pullOf q) ∧
    (s.sample p .v = { s with v := (s.sample p .v).v } ∧
      (p.isDataLine = true → ∀ i, i < 8 →
        (s.sample p .v).v.getLsbD i = if i = p.index.val then s.inOf p else s.v.getLsbD i)) ∧
    (s.sample p .hi = { s with hi := (s.sample p .hi).hi } ∧
      (p.lineAllowed false = true → ∀ i, i < 4 →
        (s.sample p .hi).hi.getLsbD i = if i = p.index.val - 4 then s.inOf p else s.hi.getLsbD i)) ∧
    (s.sample p .lo = { s with lo := (s.sample p .lo).lo } ∧
      (p.lineAllowed false = true → ∀ i, i < 4 →
        (s.sample p .lo).lo.getLsbD i = if i = p.index.val - 4 then s.inOf p else s.lo.getLsbD i))

/-- What a pin carries depends on its direction: `out[p]` while it is Out, nothing of the block's and the environment's level
while it is In; a latch written while the pin is In appears when it is Out again (10_state.md R23, R24). -/
def Obligations.PinLevelFollowsTheDirection : Prop :=
  ∀ (s : State) (p : Pin) (x : Bool),
    (s.dirOf p = .Out → s.drives p = some (s.outOf p) ∧ s.pinLevel p = s.outOf p) ∧
    (s.dirOf p = .In → s.drives p = none ∧ s.pinLevel p = s.inOf p) ∧
    ((s.pinMode p .In).drive p x).drives p = none ∧
    ((s.pinMode p .In).pinMode p .Out).drives p = some (s.outOf p) ∧
    (((s.pinMode p .In).drive p x).pinMode p .Out).drives p = some x

/-! ## The instructions: what each starts -/

/-- WRD (46_host_operations.md R193): in a ready block it answers the next state, which latches the request and holds the
events of `Write(1, d)` in the width in force; nothing else changes (46_host_operations.md R191; that a response still shown
is withdrawn is log entry 8). -/
def Obligations.MemoryWriteStarts : Prop :=
  ∀ (s : State) (d : Byte), s.Ready →
    exec (.wrd d) s = .next { s with
      op := 0b00#2, wbyte := d, rs := true, rspValid := false,
      seq := Expected.write s.env.params s.readEn s.width8 s.deadline true d }

/-- WRI, CLEAR, HOME, ENTRYMODE, ONOFF, SHIFT, FUNCSET, SETCGRAM, SETDDRAM and the byte 0x00 (46_host_operations.md R194;
40_command_bytes.md R90): in a ready block each answers the next state, which latches the request and holds `Negotiate` and
then the events of `Write(0, b)` in the width the byte asks for (44_mode_negotiator.md R162); nothing else changes, `width8`
included (46_host_operations.md R191; that a response still shown is withdrawn is log entry 8). -/
def Obligations.InstructionWriteStarts : Prop :=
  ∀ (s : State) (i : Instr) (b : Byte), instructionByte i = some b → WellFormed i → s.Ready →
    let w := if b.toNat / 16 = 3 then true else if b.toNat / 16 = 2 then false else s.width8
    exec i s = .next { s with
      op := 0b01#2, wbyte := b, rs := false, rspValid := false,
      seq := .negotiate :: Expected.write s.env.params s.readEn w s.deadline false b }

/-- RDD and RDS (46_host_operations.md R195, R196): in a ready block with `READ_EN` = 1 each answers the next state, which
holds the events of `Read(1)` or `Read(0)`; a status read has no `AwaitReady`; nothing else changes. -/
def Obligations.ReadStarts : Prop :=
  ∀ (s : State) (x : Byte), s.Ready → s.readEn = true →
    exec (.rdd x) s = .next { s with
      op := 0b10#2, rs := true, rspValid := false, seq := Expected.read s.env.params s.width8 s.deadline true } ∧
    exec (.rds x) s = .next { s with
      op := 0b11#2, rs := false, rspValid := false, seq := Expected.read s.env.params s.width8 s.deadline false }

/-- SETUP with valid used pins (45_node_lifecycle.md R170): an idle block that is not installed answers the next state, which
latches the operands and holds the events of steps 3 to 6; nothing else changes (latches: log entry 9). -/
def Obligations.SetupStarts : Prop :=
  ∀ (s : State) (r m : Bool) (k : PinVec), s.seq = [] → s.installed = false →
    (∀ p : Pin, p.used r m = true → k.getLsbD p.index.val = true) →
    exec (.setup r m k) s = .next { s with
      setupR := r, setupM := m, setupPinOk := k, rspValid := false, seq := Expected.setup s.env.params r m }

/-- The command-byte classes are instruction writes of their byte, in every state, refusals included: `WRI Clear()` means
`WRI 0x01`, and so on, the ignored bits as given; an address out of range is refused at the constructor (30_encoding.md R83,
R79; 40_command_bytes.md R91 to R99; bit layouts G1, log entry 15). -/
def Obligations.ClassesAreInstructionWrites : Prop :=
  ∀ s : State,
    exec .clear s = exec (.wri 0x01#8) s ∧ exec .undef00 s = exec (.wri 0x00#8) s ∧
    (∀ x : Bool, exec (.home x) s = exec (.wri (BitVec.ofNat 8 (0x02 + x.toNat))) s) ∧
    (∀ i h : Bool, exec (.entryMode i h) s = exec (.wri (BitVec.ofNat 8 (0x04 + 2 * i.toNat + h.toNat))) s) ∧
    (∀ d c k : Bool, exec (.onOff d c k) s =
      exec (.wri (BitVec.ofNat 8 (0x08 + 4 * d.toNat + 2 * c.toNat + k.toNat))) s) ∧
    (∀ (c r : Bool) (x : BitVec 2), exec (.shift c r x) s =
      exec (.wri (BitVec.ofNat 8 (0x10 + 8 * c.toNat + 4 * r.toNat + x.toNat))) s) ∧
    (∀ (l n f : Bool) (x : BitVec 2), exec (.funcSet l n f x) s =
      exec (.wri (BitVec.ofNat 8 (0x20 + 16 * l.toNat + 8 * n.toNat + 4 * f.toNat + x.toNat))) s) ∧
    (∀ a, a ≤ 0x3F → exec (.setCgram a) s = exec (.wri (BitVec.ofNat 8 (0x40 + a))) s) ∧
    (∀ a, 0x3F < a → exec (.setCgram a) s = .refused .constructorArgument) ∧
    (∀ a, a ≤ 0x7F → exec (.setDdram a) s = exec (.wri (BitVec.ofNat 8 (0x80 + a))) s) ∧
    (∀ a, 0x7F < a → exec (.setDdram a) s = .refused .constructorArgument)

/-- The data bits of a read request are ignored (30_encoding.md R70, R79; U19). -/
def Obligations.ReadDataBitsAreIgnored : Prop :=
  ∀ (x y : Byte) (s : State), exec (.rdd x) s = exec (.rdd y) s ∧ exec (.rds x) s = exec (.rds y) s

/-- The requests the block does not serve are refused by name: any request while busy, any operation before a successful
SETUP, a read without the capability, a SETUP after a successful one (46_host_operations.md R197; 45_node_lifecycle.md
R181). Which name comes first when several hold is the model's choice (log entry 11). -/
def Obligations.RequestsNotServed : Prop :=
  (∀ (i : Instr) (s : State), WellFormed i → s.seq ≠ [] → exec i s = .refused .busy) ∧
  (∀ (i : Instr) (s : State), WellFormed i → (∀ r m k, i ≠ .setup r m k) → s.seq = [] → s.installed = false →
    exec i s = .refused .notInstalled) ∧
  (∀ (x : Byte) (s : State), s.Ready → s.readEn = false →
    exec (.rdd x) s = .refused .readWithoutCapability ∧ exec (.rds x) s = .refused .readWithoutCapability) ∧
  (∀ (r m : Bool) (k : PinVec) (s : State), s.Ready → exec (.setup r m k) s = .refused .alreadyInstalled)

/-! ## The instructions: what each leaves when its transaction is over -/

/-- WRD with `READ_EN` = 0, in both widths and under every environment, runs to its end and leaves what 42_bus_encoder.md
R127, R128 and R130 say, with the extended class (46_host_operations.md R193); everything not named there is unchanged. -/
def Obligations.BlindMemoryWriteCompletes : Prop :=
  ∀ (s : State) (d : Byte), s.Ready → s.readEn = false →
    ∃ t, exec (.wrd d) s = .next t ∧ Expected.BlindWrite s t 0b00#2 true s.width8 d ∧
      selectDelayClass s.env.params true d = s.env.params.tExt

/-- WRI and the nine command-byte rows with `READ_EN` = 0: `Negotiate` in the first step, then the same, in the width the byte
asks for (46_host_operations.md R194; 44_mode_negotiator.md R162, R167). -/
def Obligations.BlindInstructionWriteCompletes : Prop :=
  ∀ (s : State) (i : Instr) (b : Byte), instructionByte i = some b → WellFormed i → s.Ready → s.readEn = false →
    ∃ t t₁, exec i s = .next t ∧ Expected.NegotiateStep s t t₁ b ∧
      Expected.BlindWrite s t₁ 0b01#2 false (nextWidth s.width8 b) b

/-- WRD with `READ_EN` = 1 when the first poll reads "ready" (46_host_operations.md R193, R200). -/
def Obligations.PolledMemoryWriteCompletes : Prop :=
  ∀ (s : State) (d : Byte), s.Ready → s.readEn = true →
    ∃ t, exec (.wrd d) s = .next t ∧ Expected.PolledWrite s t 0b00#2 true s.width8 d

/-- WRI and the nine command-byte rows with `READ_EN` = 1 when the first poll reads "ready": `Negotiate` in the first step, then
the same, the busy-wait too in the width the byte asks for (46_host_operations.md R194, R200; 44_mode_negotiator.md R162,
R167). -/
def Obligations.PolledInstructionWriteCompletes : Prop :=
  ∀ (s : State) (i : Instr) (b : Byte), instructionByte i = some b → WellFormed i → s.Ready → s.readEn = true →
    ∃ t t₁, exec i s = .next t ∧ Expected.NegotiateStep s t t₁ b ∧
      Expected.PolledWrite s t₁ 0b01#2 false (nextWidth s.width8 b) b

/-- RDS, both widths, under every environment: it never waits, takes one or two strobe cycles, and `rbyte` is made of the
levels sampled, most significant line first, the first cycle of a 4-bit read being the high nibble (43_bus_decoder.md R141,
R144, R145, R148, R149; 46_host_operations.md R196). -/
def Obligations.StatusReadCompletes : Prop :=
  ∀ (s : State) (x : Byte), s.Ready → s.readEn = true →
    ∃ t u, exec (.rds x) s = .next t ∧ steps (if s.width8 then 32 else 28) t = .next u ∧ ReadLeft s u 0b11#2 false ∧
      u.bf = s.bf ∧ u.tnow = s.tnow ∧
      (s.drives .E = some false → strobes (if s.width8 then 32 else 28) t = if s.width8 then 1 else 2) ∧
      (t.idealClock (if s.width8 then 32 else 28) →
        u.env.now = s.env.now + (if s.width8 then 2 else 4) * s.env.params.tPw) ∧
      (s.width8 = true → u.hi = s.hi ∧ u.lo = s.lo ∧
        u.rbyte.getLsbD 7 = t.levelAt 12 .D7 ∧ u.rbyte.getLsbD 6 = t.levelAt 13 .D6 ∧
        u.rbyte.getLsbD 5 = t.levelAt 14 .D5 ∧ u.rbyte.getLsbD 4 = t.levelAt 15 .D4 ∧
        u.rbyte.getLsbD 3 = t.levelAt 16 .D3 ∧ u.rbyte.getLsbD 2 = t.levelAt 17 .D2 ∧
        u.rbyte.getLsbD 1 = t.levelAt 18 .D1 ∧ u.rbyte.getLsbD 0 = t.levelAt 19 .D0) ∧
      (s.width8 = false → u.rbyte = u.hi ++ u.lo ∧ u.v = s.v ∧
        u.rbyte.getLsbD 7 = t.levelAt 8 .D7 ∧ u.rbyte.getLsbD 6 = t.levelAt 9 .D6 ∧
        u.rbyte.getLsbD 5 = t.levelAt 10 .D5 ∧ u.rbyte.getLsbD 4 = t.levelAt 11 .D4 ∧
        u.rbyte.getLsbD 3 = t.levelAt 16 .D7 ∧ u.rbyte.getLsbD 2 = t.levelAt 17 .D6 ∧
        u.rbyte.getLsbD 1 = t.levelAt 18 .D5 ∧ u.rbyte.getLsbD 0 = t.levelAt 19 .D4)

/-- RDD when the first poll reads "ready": it waits as a write does, then reads; `rbyte` is made of the levels sampled after
the busy-wait, whose length is `d` steps (43_bus_decoder.md R141, R144, R145, R150; 46_host_operations.md R195, R200). -/
def Obligations.MemoryReadCompletes : Prop :=
  ∀ (s : State) (x : Byte), s.Ready → s.readEn = true →
    ∃ t, exec (.rdd x) s = .next t ∧
      (t.levelAt ((if s.width8 then 14 else 10) + (Expected.sleeps t).toNat) .D7 = false →
        let tail := if s.width8 then s.env.params.pollTail8 else s.env.params.pollTail4
        let d := (if s.width8 then 27 else 19) + (Expected.sleeps t).toNat + 4 * tail
        ∃ u, steps (d + if s.width8 then 32 else 28) t = .next u ∧ ReadLeft s u 0b10#2 true ∧ u.bf = false ∧
          (s.drives .E = some false →
            strobes (d + if s.width8 then 32 else 28) t = 1 + tail + if s.width8 then 1 else 2) ∧
          (s.width8 = true → u.hi = s.hi ∧ u.lo = s.lo ∧
            u.rbyte.getLsbD 7 = t.levelAt (d + 12) .D7 ∧ u.rbyte.getLsbD 6 = t.levelAt (d + 13) .D6 ∧
            u.rbyte.getLsbD 5 = t.levelAt (d + 14) .D5 ∧ u.rbyte.getLsbD 4 = t.levelAt (d + 15) .D4 ∧
            u.rbyte.getLsbD 3 = t.levelAt (d + 16) .D3 ∧ u.rbyte.getLsbD 2 = t.levelAt (d + 17) .D2 ∧
            u.rbyte.getLsbD 1 = t.levelAt (d + 18) .D1 ∧ u.rbyte.getLsbD 0 = t.levelAt (d + 19) .D0) ∧
          (s.width8 = false → u.rbyte = u.hi ++ u.lo ∧
            u.rbyte.getLsbD 7 = t.levelAt (d + 8) .D7 ∧ u.rbyte.getLsbD 6 = t.levelAt (d + 9) .D6 ∧
            u.rbyte.getLsbD 5 = t.levelAt (d + 10) .D5 ∧ u.rbyte.getLsbD 4 = t.levelAt (d + 11) .D4 ∧
            u.rbyte.getLsbD 3 = t.levelAt (d + 16) .D7 ∧ u.rbyte.getLsbD 2 = t.levelAt (d + 17) .D6 ∧
            u.rbyte.getLsbD 1 = t.levelAt (d + 18) .D5 ∧ u.rbyte.getLsbD 0 = t.levelAt (d + 19) .D4))

/-- SETUP with valid used pins runs to its end under every environment and leaves what 45_node_lifecycle.md R182 and
70_reset_and_hazards.md R242 say: the configuration, every used pin an output with its pull-up and level 0 but D5 after
priming, every unused pin untouched, one strobe cycle when it starts in 4-bit width and none otherwise. That the response is
raised after a SETUP is the model's choice (log entry 8). -/
def Obligations.SetupCompletes : Prop :=
  ∀ (s : State) (r m : Bool) (k : PinVec), s.seq = [] → s.installed = false →
    (∀ p : Pin, p.used r m = true → k.getLsbD p.index.val = true) →
    let n := 9 + 3 * (6 + r.toNat + 4 * m.toNat) + (if m then 0 else 6)
    ∃ t u, exec (.setup r m k) s = .next t ∧ steps n t = .next u ∧ u.Responded ∧
      u.readEn = r ∧ u.mode8En = m ∧ u.width8 = m ∧ u.deadline = 0 ∧ u.installed = true ∧
      u.setupOk = true ∧ u.cause = 0 ∧ u.badPins = 0 ∧
      (∀ p : Pin, p.used r m = true →
        u.pullOf p = .Up ∧ u.dirOf p = .Out ∧ u.outOf p = (decide (p = .D5) && !m)) ∧
      (∀ p : Pin, p.used r m = false →
        u.pullOf p = s.pullOf p ∧ u.dirOf p = s.dirOf p ∧ u.outOf p = s.outOf p) ∧
      u.op = s.op ∧ u.wbyte = s.wbyte ∧ u.rbyte = s.rbyte ∧ u.bf = s.bf ∧ u.hi = s.hi ∧ u.lo = s.lo ∧ u.tnow = s.tnow ∧
      u.rs = s.rs ∧ u.v = s.v ∧ u.env.params = s.env.params ∧ u.env.host = s.env.host ∧
      (s.outOf .E = false → strobes n t = if m then 0 else 1) ∧
      (t.idealClock n → u.env.now = s.env.now + if m then 0 else 2 * s.env.params.tPw + s.env.params.tPrime)

/-! ## Errors -/

/-- A SETUP with an invalid used pin (45_node_lifecycle.md R172): it holds no pin event, the pins and the record keep their
values at every moment of its four steps, and after them the status outputs report CFG_ERR. Besides these the model latches
the operands, which is its choice (log entry 9). -/
def Obligations.FailedSetupKeepsPinsAndRecord : Prop :=
  ∀ (s : State) (r m : Bool) (k : PinVec), s.seq = [] → s.installed = false →
    (∃ p : Pin, p.used r m = true ∧ k.getLsbD p.index.val = false) →
    ∃ t, exec (.setup r m k) s = .next t ∧
      (∀ op ∈ t.seq, ∀ q : Pin, op ≠ .pullUp q ∧ (∀ d, op ≠ .pinMode q d) ∧ (∀ x, op ≠ .drive q x)) ∧
      (∀ (n : Nat) (u : State), n ≤ 4 → steps n t = .next u →
        u.dir = s.dir ∧ u.pull = s.pull ∧ u.out = s.out ∧ u.readEn = s.readEn ∧ u.mode8En = s.mode8En ∧
        u.width8 = s.width8 ∧ u.deadline = s.deadline ∧ u.installed = s.installed) ∧
      ∃ u, steps 4 t = .next u ∧ u.seq = [] ∧ u.setupOk = false ∧ u.cause = 1

/-- The error entry whole: the status outputs are written one by one, then the error is raised and the block is Idle;
`bad_pins` has one bit per failing used pin and no other, and every register not named is as before, so that a SETUP after it
behaves as the first (60_exceptions.md R211, R213, R220; 70_reset_and_hazards.md R243; 45_node_lifecycle.md R170, R171). That
the operands stay latched is log entry 9, that the response is raised log entry 8. -/
def Obligations.ConfigErrorReportsEveryPin : Prop :=
  ∀ (s : State) (r m : Bool) (k : PinVec), s.seq = [] → s.installed = false →
    (∃ p : Pin, p.used r m = true ∧ k.getLsbD p.index.val = false) →
    ∃ (bad : PinVec) (t u : State),
      (∀ p : Pin, bad.getLsbD p.index.val = (p.used r m && !k.getLsbD p.index.val)) ∧
      exec (.setup r m k) s = .next t ∧
      t = { s with setupR := r, setupM := m, setupPinOk := k, rspValid := false,
                   seq := [.assign (.setupOk false), .assign (.cause .cfgErr), .assign (.badPins bad),
                           .raise .cfgErr bad] } ∧
      steps 4 t = .next u ∧
      u = { s with setupR := r, setupM := m, setupPinOk := k, setupOk := false, cause := 1, badPins := bad,
                   rspValid := true, env := u.env } ∧
      u.env.params = s.env.params ∧ u.env.host = s.env.host

/-- With `r` = 0 a SETUP issues no event on RW, with `m` = 0 none on D0 to D3; their `pull`, `dir` and `out` keep whatever they
were, at every moment of the transaction (45_node_lifecycle.md R175). -/
def Obligations.SetupLeavesUnusedPinsAlone : Prop :=
  ∀ (s : State) (r m : Bool) (k : PinVec), s.seq = [] → s.installed = false →
    (∀ p : Pin, p.used r m = true → k.getLsbD p.index.val = true) →
    ∃ t, exec (.setup r m k) s = .next t ∧
      (∀ op ∈ t.seq, ∀ q : Pin,
        (op = .pullUp q ∨ (∃ d, op = .pinMode q d) ∨ (∃ x, op = .drive q x) ∨ ∃ d, op = .sample q d) →
        (r = false → q ≠ .RW) ∧ (m = false → q ≠ .D0 ∧ q ≠ .D1 ∧ q ≠ .D2 ∧ q ≠ .D3)) ∧
      ∀ (n : Nat) (u : State) (q : Pin), n ≤ t.seq.length → steps n t = .next u →
        (r = false ∧ q = .RW ∨ m = false ∧ (q = .D0 ∨ q = .D1 ∨ q = .D2 ∨ q = .D3)) →
        u.pullOf q = s.pullOf q ∧ u.dirOf q = s.dirOf q ∧ u.outOf q = s.outOf q

/-- The status outputs are written by SETUP only (60_exceptions.md R211; 10_state.md R32): a step that changes one is an
assignment of the last phase of a successful SETUP, which sets `setup_ok` to 1 and the other two to 0, or of a SETUP whose
pins fail, which reports CFG_ERR and exactly the failing pins. -/
def Obligations.StatusIsWrittenBySetupOnly : Prop :=
  ∀ s t : State, SequencerInv s → step s = .next t →
    t.setupOk ≠ s.setupOk ∨ t.cause ≠ s.cause ∨ t.badPins ≠ s.badPins →
    let bad := failingPins s.setupR s.setupM s.setupPinOk
    ∃ op rest, s.seq = op :: rest ∧
      ((s.installed = true ∧
        (op = .assign (.setupOk true) ∨ op = .assign (.cause .none) ∨ op = .assign (.badPins 0))) ∨
       (s.installed = false ∧ bad ≠ 0 ∧
        (op = .assign (.setupOk false) ∨ op = .assign (.cause .cfgErr) ∨ op = .assign (.badPins bad) ∨
         op = .raise .cfgErr bad)))

/-- The codes 2 (ALLOC_ERR) and 3 are never produced: from a state that shows neither and whose sequencer holds what a
sequencer may, every step leads to one that shows neither (60_exceptions.md R212, R214). -/
def Obligations.ReservedCausesNeverAppear : Prop :=
  ∀ s t : State, SequencerInv s → (s.cause = 0 ∨ s.cause = 1) → step s = .next t → (t.cause = 0 ∨ t.cause = 1)

/-! ## Deadline and busy-wait -/

/-- `RecordDeadline` (41_deadline_tracker.md R115): two steps read the clock and store its value plus the class, overwriting
the old deadline; `tnow` and `deadline` are the state written. -/
def Obligations.RecordDeadlineOverwrites : Prop :=
  ∀ (s : State) (rest : List Micro), s.seq = .clockRead :: .recordDeadline :: rest →
    ∃ u, steps 2 s = .next u ∧ u.tnow = s.env.now + (s.moveAt 0).dt ∧
      u.deadline = u.tnow + selectDelayClass s.env.params s.rs s.wbyte ∧
      u = { s with tnow := u.tnow, deadline := u.deadline, seq := rest, env := u.env }

/-- The test of `AwaitReady` with `READ_EN` = 1 (41_deadline_tracker.md R117, R118): the block sleeps to the deadline exactly
when strictly more than `T_THRESH` remains, a deadline in the past being no remaining wait. -/
def Obligations.BlindSleepAboveThreshold : Prop :=
  ∀ (s : State) (rest : List Micro), s.seq = .awaitTest :: rest →
    step s = .next { s with
      env := s.env.advance,
      seq := if s.tnow + s.env.params.tThresh < s.deadline then .waitUntil s.deadline :: rest else rest }

/-- The busy-wait loop (43_bus_decoder.md R150, R151): when k polls read 1 and the next reads 0, the loop is over after exactly
its cycles, k + 1 and the tail and, with `POLL_PAIR_4` in 4-bit width, k more; it leaves RS = 0, RW = 1, E = 0, the
active lines outputs with their old latches, and writes no deadline, no width and no `rbyte`. -/
def Obligations.BusyWaitCycleCount : Prop :=
  ∀ (s : State) (rest : List Micro) (k : Nat), s.seq = busyWait s.env.params s.width8 ++ rest →
    let lines := if s.width8 then 8 else 4
    let pair := if !s.width8 && s.env.params.pollPair4 then 1 else 0
    let tail := if s.width8 then s.env.params.pollTail8 else s.env.params.pollTail4
    let sampled := fun j => lines + 2 + j * (7 + 4 * pair) + 2
    let n := lines + 2 + (k * (7 + 4 * pair) + 7) + 4 * tail + lines
    (∀ j, j < k → s.levelAt (sampled j) .D7 = true) → s.levelAt (sampled k) .D7 = false →
    ∃ u, steps n s = .next u ∧ u.seq = rest ∧
      (s.drives .E = some false → strobes n s = (k + 1) + tail + pair * k) ∧
      u.outOf .E = false ∧ u.outOf .RS = false ∧ u.outOf .RW = true ∧ u.bf = false ∧
      (∀ p : Pin, p.isDataLine = true → u.outOf p = s.outOf p) ∧
      (∀ p : Pin, u.dirOf p = if p.lineAllowed s.width8 then .Out else s.dirOf p) ∧
      u.deadline = s.deadline ∧ u.width8 = s.width8 ∧ u.rbyte = s.rbyte ∧ u.pull = s.pull ∧ u.wbyte = s.wbyte ∧
      u.op = s.op ∧ u.rs = s.rs ∧ u.tnow = s.tnow ∧ u.hi = s.hi ∧ u.lo = s.lo ∧ u.rspValid = s.rspValid ∧
      u.env.params = s.env.params ∧ u.env.host = s.env.host

/-- The stuck busy flag (43_bus_decoder.md R152): if D7 reads 1 at every poll, the transaction goes on for any number of steps;
the block stays busy, what follows the loop is still to come, no request is accepted and nothing is recorded. Poll j is
sampled in the step `sampled j`, counted from 0. -/
def Obligations.StuckBusyFlagNeverEnds : Prop :=
  ∀ (s : State) (rest : List Micro) (n : Nat), s.seq = busyWait s.env.params s.width8 ++ rest →
    let lines := if s.width8 then 8 else 4
    let pair := if !s.width8 && s.env.params.pollPair4 then 1 else 0
    let sampled := fun j => lines + 2 + j * (7 + 4 * pair) + 2
    (∀ j, sampled j < n → s.levelAt (sampled j) .D7 = true) →
    ∃ u, steps n s = .next u ∧ u.busy = true ∧ rest <:+ u.seq ∧ rest.length < u.seq.length ∧
      u.env.host = s.env.host ∧ u.rspValid = s.rspValid ∧ u.deadline = s.deadline ∧ u.width8 = s.width8 ∧
      u.rbyte = s.rbyte ∧ ∀ i, exec i u = .refused .busy ∨ exec i u = .refused .constructorArgument

/-! ## The wire -/

/-- The wire formats of a write (30_encoding.md R75, R76; 20_memory.md R54, R55): the falling edges of a WRD and of an
instruction write carry the target on RS, "write" on RW where `READ_EN` = 1, and the byte on D7 to D0, or its high and then
its low nibble on D7 to D4, D3 to D0 then carrying what they carried before. With `READ_EN` = 1, when the first poll reads
"ready", the edges of the busy-wait come first, and none of them carries a data line of the width (43_bus_decoder.md R150).
`Negotiate`'s step of an instruction write has no edge. -/
def Obligations.WritesPutTheByteOnTheWire : Prop :=
  ∀ (s : State) (i : Instr) (b : Byte) (rs w : Bool), s.Ready → s.drives .E = some false →
    (i = .wrd b ∧ rs = true ∧ w = s.width8 ∨
      instructionByte i = some b ∧ WellFormed i ∧ rs = false ∧ w = nextWidth s.width8 b) →
    ∃ t t₁, exec i s = .next t ∧ steps (!rs).toNat t = .next t₁ ∧ commits (!rs).toNat t = [] ∧
      ((s.readEn = true → t₁.levelAt ((if w then 14 else 10) + (Expected.sleeps t₁).toNat) .D7 = false) →
        let tail := if w then s.env.params.pollTail8 else s.env.params.pollTail4
        let await := if s.readEn then (if w then 27 else 19) + (Expected.sleeps t₁).toNat + 4 * tail else 0
        ∃ polls, polls.length = (if s.readEn then 1 + tail else 0) ∧ (∀ c ∈ polls, Expected.PollCommit s w c) ∧
          (w = true → ∃ c, commits (await + 17) t₁ = polls ++ [c] ∧
            Expected.WriteCommit s rs w (fun p => b.getLsbD p.index.val) c) ∧
          (w = false → ∃ c₁ c₂, commits (await + 21) t₁ = polls ++ [c₁, c₂] ∧
            Expected.WriteCommit s rs w (fun p => b.getLsbD p.index.val) c₁ ∧
            Expected.WriteCommit s rs w (fun p => b.getLsbD (p.index.val - 4)) c₂))

/-- The round-trip law (43_bus_decoder.md R154; 20_memory.md R67): take a bus that on read cycle j presents what was
committed on write cycle j; then the decoder's byte is the encoder's byte, in both widths. `s` sends, `r` reads. -/
def Obligations.RoundTripLaw : Prop :=
  (∀ (s r : State) (b : Byte) (rest rest' : List Micro),
    let es := writeCycle s.env.params (driven lines4 (hiNibble b)) ++ writeCycle s.env.params (driven lines4 (loNibble b))
    let fs := readCycle r.env.params lines4.reverse .hi ++ readCycle r.env.params lines4.reverse .lo ++ linesOut false
      ++ [.rbyteFromNibbles]
    s.seq = es ++ rest → r.seq = fs ++ rest' → ∀ x₁ x₂ : Pin → Option Bool, commits es.length s = [x₁, x₂] →
    (∀ j, j < 4 → x₁ (lines4.reverse.getD j .D7) = some (r.levelAt (2 + j) (lines4.reverse.getD j .D7))) →
    (∀ j, j < 4 → x₂ (lines4.reverse.getD j .D7) = some (r.levelAt (10 + j) (lines4.reverse.getD j .D7))) →
    ∃ u, steps fs.length r = .next u ∧ u.rbyte = b) ∧
  (∀ (s r : State) (b : Byte) (rest rest' : List Micro),
    let es := writeCycle s.env.params (driven lines8 b)
    let fs := readCycle r.env.params lines8.reverse .v ++ linesOut true ++ [.rbyteFromLines]
    s.seq = es ++ rest → r.seq = fs ++ rest' → ∀ x : Pin → Option Bool, commits es.length s = [x] →
    (∀ j, j < 8 → x (lines8.reverse.getD j .D7) = some (r.levelAt (2 + j) (lines8.reverse.getD j .D7))) →
    ∃ u, steps fs.length r = .next u ∧ u.rbyte = b)

/-! ## Invariants and whole-machine rules -/

/-- At reset nothing is installed, the sequencer is Idle, nothing is held at the port, and the invariants below hold
(70_reset_and_hazards.md R241; 10_state.md R37). -/
def Obligations.ResetMeetsTheInvariants : Prop :=
  State.reset.installed = false ∧ State.reset.seq = [] ∧ State.reset.env.host = [] ∧ SequencerInv State.reset ∧
    SettledInv State.reset ∧ WidthInv State.reset ∧ DeadlineInv State.reset ∧ HostObeysR252 State.reset

/-- Every step keeps the sequencer's invariant: before installation what remains of a SETUP, successful or failing, afterwards
SETUP's last phase or what remains of a host operation (45_node_lifecycle.md R170; 46_host_operations.md R194;
42_bus_encoder.md R131; 20_memory.md R55; 10_state.md R20, R23, R25). -/
def Obligations.StepKeepsSequencerInv : Prop :=
  ∀ s t : State, SequencerInv s → step s = .next t → SequencerInv t

/-- Every step keeps where the transaction leads: E low, the used pins outputs with pull-ups, the configuration the SETUP
operands (42_bus_encoder.md R125; 43_bus_decoder.md R142; 45_node_lifecycle.md R174). -/
def Obligations.StepKeepsSettledInv : Prop :=
  ∀ s t : State, SequencerInv s → SettledInv s → step s = .next t → SettledInv t

/-- Between transactions of an installed block E is at its idle level and every used pin is an output with its pull-up:
"the enable strobe is always returned to its idle (low) level" (42_bus_encoder.md R125; 10_state.md R23, R25), after any
number of steps. -/
def Obligations.IdleBlockIsSettled : Prop :=
  ∀ (s u : State) (n : Nat), SequencerInv s → SettledInv s → steps n s = .next u → u.Ready →
    u.outOf .E = false ∧ u.readEn = u.setupR ∧ u.mode8En = u.setupM ∧
    ∀ p : Pin, p.used u.readEn u.mode8En = true → u.dirOf p = .Out ∧ u.pullOf p = .Up

/-- The configuration is set once: an installed block stays installed and keeps `READ_EN` and `MODE8_EN`, its pull-ups, and
the direction of RS, RW and E (10_state.md R20, R23, R25, R28). -/
def Obligations.ConfigurationIsSetOnce : Prop :=
  ∀ s t : State, SequencerInv s → s.installed = true → step s = .next t →
    t.installed = true ∧ t.readEn = s.readEn ∧ t.mode8En = s.mode8En ∧ t.pull = s.pull ∧
    t.dirOf .RS = s.dirOf .RS ∧ t.dirOf .RW = s.dirOf .RW ∧ t.dirOf .E = s.dirOf .E

/-- Without the read capability an installed block never touches RW (10_state.md R33 (a); 42_bus_encoder.md R131). -/
def Obligations.ReadWritePinUntouched : Prop :=
  ∀ s t : State, SequencerInv s → s.installed = true → s.readEn = false → step s = .next t →
    t.outOf .RW = s.outOf .RW ∧ t.dirOf .RW = s.dirOf .RW ∧ t.pullOf .RW = s.pullOf .RW

/-- "Data lines 0-3 are never touched in 4-bit mode" (20_memory.md R55; 42_bus_encoder.md R128). -/
def Obligations.UpperLinesUntouchedInFourBit : Prop :=
  ∀ s t : State, SequencerInv s → s.installed = true → s.width8 = false → step s = .next t →
    ∀ p : Pin, p.isUpperLine = true → t.outOf p = s.outOf p ∧ t.dirOf p = s.dirOf p ∧ t.pullOf p = s.pullOf p

/-- "No transition occurs on memory writes or on any other instruction class" (44_mode_negotiator.md R163): a step that
changes `width8` is SETUP's assignment of the configured width, or the `Negotiate` of an accepted instruction write whose byte
is of the other width's function-set pattern. -/
def Obligations.WidthChangesOnlyByFunctionSet : Prop :=
  ∀ s t : State, SequencerInv s → step s = .next t → t.width8 ≠ s.width8 →
    (s.installed = false ∧ ∃ rest, s.seq = .assign (.width8 s.setupM) :: rest) ∨
    (s.installed = true ∧ s.op = 0b01#2 ∧ (∃ rest, s.seq = .negotiate :: rest) ∧
      (s.wbyte.toNat / 16 = 3 ∧ t.width8 = true ∨ s.wbyte.toNat / 16 = 2 ∧ t.width8 = false))

/-- In an installed block the deadline is written by the event `RecordDeadline` and by nothing else, and the value written is
`tnow` plus the class of the transfer (10_state.md R27; 41_deadline_tracker.md R115). -/
def Obligations.DeadlineIsWrittenByRecordDeadlineOnly : Prop :=
  ∀ s t : State, SequencerInv s → s.installed = true → step s = .next t → t.deadline ≠ s.deadline →
    (∃ rest, s.seq = .recordDeadline :: rest) ∧
    t.deadline = s.tnow + selectDelayClass s.env.params s.rs s.wbyte

/-- A blind-sleep never covers more than the long class (41_deadline_tracker.md R120 (b)): with the classes ordered as
00_scope.md R8 says, every step keeps `deadline <= NOW + T_LONG`. -/
def Obligations.DeadlineStaysWithinTheLongClass : Prop :=
  ∀ s t : State, SequencerInv s → ClassesOrdered s.env.params → DeadlineInv s → step s = .next t → DeadlineInv t

/-- While the host obeys hazard rule R252, the active width can be 8-bit only with the capability (10_state.md R33 (c);
70_reset_and_hazards.md R252). -/
def Obligations.WidthStaysWithinTheCapability : Prop :=
  ∀ s t : State, SequencerInv s → WidthInv s → HostObeysR252 s → step s = .next t → WidthInv t
end

