-- ==== Sys2Proof/Laws/State.lean ====
section
/-! SUPPORT. Laws/State.lean: what each operation does to each field, one simp lemma per operation (every clause is one
rewrite rule), so that no proof unfolds a record update. -/

namespace Sys2Proof.Machine

@[simp] theorem State.drive_fields (s : State) (p : Pin) (x : Bool) :
    (s.drive p x).readEn = s.readEn ∧ (s.drive p x).mode8En = s.mode8En ∧ (s.drive p x).dir = s.dir ∧
    (s.drive p x).pull = s.pull ∧ (s.drive p x).width8 = s.width8 ∧ (s.drive p x).deadline = s.deadline ∧
    (s.drive p x).installed = s.installed ∧ (s.drive p x).op = s.op ∧ (s.drive p x).wbyte = s.wbyte ∧
    (s.drive p x).rbyte = s.rbyte ∧ (s.drive p x).setupR = s.setupR ∧ (s.drive p x).setupM = s.setupM ∧
    (s.drive p x).setupPinOk = s.setupPinOk ∧ (s.drive p x).bf = s.bf ∧ (s.drive p x).hi = s.hi ∧
    (s.drive p x).lo = s.lo ∧ (s.drive p x).tnow = s.tnow ∧ (s.drive p x).rs = s.rs ∧ (s.drive p x).v = s.v ∧
    (s.drive p x).seq = s.seq ∧ (s.drive p x).setupOk = s.setupOk ∧ (s.drive p x).cause = s.cause ∧
    (s.drive p x).badPins = s.badPins ∧ (s.drive p x).rspValid = s.rspValid ∧ (s.drive p x).env = s.env ∧
    (∀ q, (s.drive p x).dirOf q = s.dirOf q) ∧ (∀ q, (s.drive p x).pullOf q = s.pullOf q) ∧
    (∀ q, (s.drive p x).inOf q = s.inOf q) :=
  by repeat' apply And.intro
     all_goals first | rfl | exact fun _ => rfl

@[simp] theorem State.pinMode_fields (s : State) (p : Pin) (m : Dir) :
    (s.pinMode p m).readEn = s.readEn ∧ (s.pinMode p m).mode8En = s.mode8En ∧ (s.pinMode p m).pull = s.pull ∧
    (s.pinMode p m).out = s.out ∧ (s.pinMode p m).width8 = s.width8 ∧ (s.pinMode p m).deadline = s.deadline ∧
    (s.pinMode p m).installed = s.installed ∧ (s.pinMode p m).op = s.op ∧ (s.pinMode p m).wbyte = s.wbyte ∧
    (s.pinMode p m).rbyte = s.rbyte ∧ (s.pinMode p m).setupR = s.setupR ∧ (s.pinMode p m).setupM = s.setupM ∧
    (s.pinMode p m).setupPinOk = s.setupPinOk ∧ (s.pinMode p m).bf = s.bf ∧ (s.pinMode p m).hi = s.hi ∧
    (s.pinMode p m).lo = s.lo ∧ (s.pinMode p m).tnow = s.tnow ∧ (s.pinMode p m).rs = s.rs ∧ (s.pinMode p m).v = s.v ∧
    (s.pinMode p m).seq = s.seq ∧ (s.pinMode p m).setupOk = s.setupOk ∧ (s.pinMode p m).cause = s.cause ∧
    (s.pinMode p m).badPins = s.badPins ∧ (s.pinMode p m).rspValid = s.rspValid ∧ (s.pinMode p m).env = s.env ∧
    (∀ q, (s.pinMode p m).pullOf q = s.pullOf q) ∧ (∀ q, (s.pinMode p m).outOf q = s.outOf q) ∧
    (∀ q, (s.pinMode p m).inOf q = s.inOf q) :=
  by repeat' apply And.intro
     all_goals first | rfl | exact fun _ => rfl

@[simp] theorem State.pullUp_fields (s : State) (p : Pin) :
    (s.pullUp p).readEn = s.readEn ∧ (s.pullUp p).mode8En = s.mode8En ∧ (s.pullUp p).dir = s.dir ∧
    (s.pullUp p).out = s.out ∧ (s.pullUp p).width8 = s.width8 ∧ (s.pullUp p).deadline = s.deadline ∧
    (s.pullUp p).installed = s.installed ∧ (s.pullUp p).op = s.op ∧ (s.pullUp p).wbyte = s.wbyte ∧
    (s.pullUp p).rbyte = s.rbyte ∧ (s.pullUp p).setupR = s.setupR ∧ (s.pullUp p).setupM = s.setupM ∧
    (s.pullUp p).setupPinOk = s.setupPinOk ∧ (s.pullUp p).bf = s.bf ∧ (s.pullUp p).hi = s.hi ∧
    (s.pullUp p).lo = s.lo ∧ (s.pullUp p).tnow = s.tnow ∧ (s.pullUp p).rs = s.rs ∧ (s.pullUp p).v = s.v ∧
    (s.pullUp p).seq = s.seq ∧ (s.pullUp p).setupOk = s.setupOk ∧ (s.pullUp p).cause = s.cause ∧
    (s.pullUp p).badPins = s.badPins ∧ (s.pullUp p).rspValid = s.rspValid ∧ (s.pullUp p).env = s.env ∧
    (∀ q, (s.pullUp p).dirOf q = s.dirOf q) ∧ (∀ q, (s.pullUp p).outOf q = s.outOf q) ∧
    (∀ q, (s.pullUp p).inOf q = s.inOf q) :=
  by repeat' apply And.intro
     all_goals first | rfl | exact fun _ => rfl

@[simp] theorem State.sample_fields (s : State) (p : Pin) (dst : SampleTo) :
    (s.sample p dst).readEn = s.readEn ∧ (s.sample p dst).mode8En = s.mode8En ∧ (s.sample p dst).dir = s.dir ∧
    (s.sample p dst).pull = s.pull ∧ (s.sample p dst).out = s.out ∧ (s.sample p dst).width8 = s.width8 ∧
    (s.sample p dst).deadline = s.deadline ∧ (s.sample p dst).installed = s.installed ∧ (s.sample p dst).op = s.op ∧
    (s.sample p dst).wbyte = s.wbyte ∧ (s.sample p dst).rbyte = s.rbyte ∧ (s.sample p dst).setupR = s.setupR ∧
    (s.sample p dst).setupM = s.setupM ∧ (s.sample p dst).setupPinOk = s.setupPinOk ∧ (s.sample p dst).bf = s.bf ∧
    (s.sample p dst).tnow = s.tnow ∧ (s.sample p dst).rs = s.rs ∧ (s.sample p dst).seq = s.seq ∧
    (s.sample p dst).setupOk = s.setupOk ∧ (s.sample p dst).cause = s.cause ∧ (s.sample p dst).badPins = s.badPins ∧
    (s.sample p dst).rspValid = s.rspValid ∧ (s.sample p dst).env = s.env ∧
    (∀ q, (s.sample p dst).dirOf q = s.dirOf q) ∧ (∀ q, (s.sample p dst).pullOf q = s.pullOf q) ∧
    (∀ q, (s.sample p dst).outOf q = s.outOf q) ∧ (∀ q, (s.sample p dst).inOf q = s.inOf q) :=
  by cases dst <;> (repeat' apply And.intro) <;> first | rfl | exact fun _ => rfl

@[simp] theorem State.readClock_fields (s : State) :
    (s.readClock).readEn = s.readEn ∧ (s.readClock).mode8En = s.mode8En ∧ (s.readClock).dir = s.dir ∧
    (s.readClock).pull = s.pull ∧ (s.readClock).out = s.out ∧ (s.readClock).width8 = s.width8 ∧
    (s.readClock).deadline = s.deadline ∧ (s.readClock).installed = s.installed ∧ (s.readClock).op = s.op ∧
    (s.readClock).wbyte = s.wbyte ∧ (s.readClock).rbyte = s.rbyte ∧ (s.readClock).setupR = s.setupR ∧
    (s.readClock).setupM = s.setupM ∧ (s.readClock).setupPinOk = s.setupPinOk ∧ (s.readClock).bf = s.bf ∧
    (s.readClock).hi = s.hi ∧ (s.readClock).lo = s.lo ∧ (s.readClock).rs = s.rs ∧ (s.readClock).v = s.v ∧
    (s.readClock).seq = s.seq ∧ (s.readClock).setupOk = s.setupOk ∧ (s.readClock).cause = s.cause ∧
    (s.readClock).badPins = s.badPins ∧ (s.readClock).rspValid = s.rspValid ∧ (s.readClock).env = s.env ∧
    (∀ q, (s.readClock).dirOf q = s.dirOf q) ∧ (∀ q, (s.readClock).pullOf q = s.pullOf q) ∧
    (∀ q, (s.readClock).outOf q = s.outOf q) ∧ (∀ q, (s.readClock).inOf q = s.inOf q) ∧
    (s.readClock).tnow = s.env.now :=
  by repeat' apply And.intro
     all_goals first | rfl | exact fun _ => rfl

@[simp] theorem State.setNow_fields (s : State) (t : Nat) :
    (s.setNow t).readEn = s.readEn ∧ (s.setNow t).mode8En = s.mode8En ∧ (s.setNow t).dir = s.dir ∧
    (s.setNow t).pull = s.pull ∧ (s.setNow t).out = s.out ∧ (s.setNow t).width8 = s.width8 ∧
    (s.setNow t).deadline = s.deadline ∧ (s.setNow t).installed = s.installed ∧ (s.setNow t).op = s.op ∧
    (s.setNow t).wbyte = s.wbyte ∧ (s.setNow t).rbyte = s.rbyte ∧ (s.setNow t).setupR = s.setupR ∧
    (s.setNow t).setupM = s.setupM ∧ (s.setNow t).setupPinOk = s.setupPinOk ∧ (s.setNow t).bf = s.bf ∧
    (s.setNow t).hi = s.hi ∧ (s.setNow t).lo = s.lo ∧ (s.setNow t).tnow = s.tnow ∧ (s.setNow t).rs = s.rs ∧
    (s.setNow t).v = s.v ∧ (s.setNow t).seq = s.seq ∧ (s.setNow t).setupOk = s.setupOk ∧
    (s.setNow t).cause = s.cause ∧ (s.setNow t).badPins = s.badPins ∧ (s.setNow t).rspValid = s.rspValid ∧
    (∀ q, (s.setNow t).dirOf q = s.dirOf q) ∧ (∀ q, (s.setNow t).pullOf q = s.pullOf q) ∧
    (∀ q, (s.setNow t).outOf q = s.outOf q) ∧ (s.setNow t).env = { s.env with now := t } :=
  by repeat' apply And.intro
     all_goals first | rfl | exact fun _ => rfl

@[simp] theorem State.envMove_fields (s : State) :
    (s.envMove).readEn = s.readEn ∧ (s.envMove).mode8En = s.mode8En ∧ (s.envMove).dir = s.dir ∧
    (s.envMove).pull = s.pull ∧ (s.envMove).out = s.out ∧ (s.envMove).width8 = s.width8 ∧
    (s.envMove).deadline = s.deadline ∧ (s.envMove).installed = s.installed ∧ (s.envMove).op = s.op ∧
    (s.envMove).wbyte = s.wbyte ∧ (s.envMove).rbyte = s.rbyte ∧ (s.envMove).setupR = s.setupR ∧
    (s.envMove).setupM = s.setupM ∧ (s.envMove).setupPinOk = s.setupPinOk ∧ (s.envMove).bf = s.bf ∧
    (s.envMove).hi = s.hi ∧ (s.envMove).lo = s.lo ∧ (s.envMove).tnow = s.tnow ∧ (s.envMove).rs = s.rs ∧
    (s.envMove).v = s.v ∧ (s.envMove).seq = s.seq ∧ (s.envMove).setupOk = s.setupOk ∧ (s.envMove).cause = s.cause ∧
    (s.envMove).badPins = s.badPins ∧ (s.envMove).rspValid = s.rspValid ∧ (∀ q, (s.envMove).dirOf q = s.dirOf q) ∧
    (∀ q, (s.envMove).pullOf q = s.pullOf q) ∧ (∀ q, (s.envMove).outOf q = s.outOf q) ∧
    (s.envMove).env = s.env.advance :=
  by repeat' apply And.intro
     all_goals first | rfl | exact fun _ => rfl

@[simp] theorem State.latchWrite_fields (s : State) (o : BitVec 2) (b : Byte) :
    (s.latchWrite o b).readEn = s.readEn ∧ (s.latchWrite o b).mode8En = s.mode8En ∧ (s.latchWrite o b).dir = s.dir ∧
    (s.latchWrite o b).pull = s.pull ∧ (s.latchWrite o b).out = s.out ∧ (s.latchWrite o b).width8 = s.width8 ∧
    (s.latchWrite o b).deadline = s.deadline ∧ (s.latchWrite o b).installed = s.installed ∧
    (s.latchWrite o b).rbyte = s.rbyte ∧ (s.latchWrite o b).setupR = s.setupR ∧ (s.latchWrite o b).setupM = s.setupM ∧
    (s.latchWrite o b).setupPinOk = s.setupPinOk ∧ (s.latchWrite o b).bf = s.bf ∧ (s.latchWrite o b).hi = s.hi ∧
    (s.latchWrite o b).lo = s.lo ∧ (s.latchWrite o b).tnow = s.tnow ∧ (s.latchWrite o b).v = s.v ∧
    (s.latchWrite o b).seq = s.seq ∧ (s.latchWrite o b).setupOk = s.setupOk ∧ (s.latchWrite o b).cause = s.cause ∧
    (s.latchWrite o b).badPins = s.badPins ∧ (s.latchWrite o b).env = s.env ∧
    (∀ q, (s.latchWrite o b).dirOf q = s.dirOf q) ∧ (∀ q, (s.latchWrite o b).pullOf q = s.pullOf q) ∧
    (∀ q, (s.latchWrite o b).outOf q = s.outOf q) ∧ (∀ q, (s.latchWrite o b).inOf q = s.inOf q) ∧
    (s.latchWrite o b).op = o ∧ (s.latchWrite o b).wbyte = b ∧ (s.latchWrite o b).rs = !o.getLsbD 0 ∧
    (s.latchWrite o b).rspValid = false :=
  by repeat' apply And.intro
     all_goals first | rfl | exact fun _ => rfl

@[simp] theorem State.latchRead_fields (s : State) (o : BitVec 2) :
    (s.latchRead o).readEn = s.readEn ∧ (s.latchRead o).mode8En = s.mode8En ∧ (s.latchRead o).dir = s.dir ∧
    (s.latchRead o).pull = s.pull ∧ (s.latchRead o).out = s.out ∧ (s.latchRead o).width8 = s.width8 ∧
    (s.latchRead o).deadline = s.deadline ∧ (s.latchRead o).installed = s.installed ∧
    (s.latchRead o).wbyte = s.wbyte ∧ (s.latchRead o).rbyte = s.rbyte ∧ (s.latchRead o).setupR = s.setupR ∧
    (s.latchRead o).setupM = s.setupM ∧ (s.latchRead o).setupPinOk = s.setupPinOk ∧ (s.latchRead o).bf = s.bf ∧
    (s.latchRead o).hi = s.hi ∧ (s.latchRead o).lo = s.lo ∧ (s.latchRead o).tnow = s.tnow ∧ (s.latchRead o).v = s.v ∧
    (s.latchRead o).seq = s.seq ∧ (s.latchRead o).setupOk = s.setupOk ∧ (s.latchRead o).cause = s.cause ∧
    (s.latchRead o).badPins = s.badPins ∧ (s.latchRead o).env = s.env ∧ (∀ q, (s.latchRead o).dirOf q = s.dirOf q) ∧
    (∀ q, (s.latchRead o).pullOf q = s.pullOf q) ∧ (∀ q, (s.latchRead o).outOf q = s.outOf q) ∧
    (∀ q, (s.latchRead o).inOf q = s.inOf q) ∧ (s.latchRead o).op = o ∧ (s.latchRead o).rs = !o.getLsbD 0 ∧
    (s.latchRead o).rspValid = false :=
  by repeat' apply And.intro
     all_goals first | rfl | exact fun _ => rfl

@[simp] theorem State.latchSetup_fields (s : State) (r m : Bool) (k : PinVec) :
    (s.latchSetup r m k).readEn = s.readEn ∧ (s.latchSetup r m k).mode8En = s.mode8En ∧
    (s.latchSetup r m k).dir = s.dir ∧ (s.latchSetup r m k).pull = s.pull ∧ (s.latchSetup r m k).out = s.out ∧
    (s.latchSetup r m k).width8 = s.width8 ∧ (s.latchSetup r m k).deadline = s.deadline ∧
    (s.latchSetup r m k).installed = s.installed ∧ (s.latchSetup r m k).op = s.op ∧
    (s.latchSetup r m k).wbyte = s.wbyte ∧ (s.latchSetup r m k).rbyte = s.rbyte ∧ (s.latchSetup r m k).bf = s.bf ∧
    (s.latchSetup r m k).hi = s.hi ∧ (s.latchSetup r m k).lo = s.lo ∧ (s.latchSetup r m k).tnow = s.tnow ∧
    (s.latchSetup r m k).rs = s.rs ∧ (s.latchSetup r m k).v = s.v ∧ (s.latchSetup r m k).seq = s.seq ∧
    (s.latchSetup r m k).setupOk = s.setupOk ∧ (s.latchSetup r m k).cause = s.cause ∧
    (s.latchSetup r m k).badPins = s.badPins ∧ (s.latchSetup r m k).env = s.env ∧
    (∀ q, (s.latchSetup r m k).dirOf q = s.dirOf q) ∧ (∀ q, (s.latchSetup r m k).pullOf q = s.pullOf q) ∧
    (∀ q, (s.latchSetup r m k).outOf q = s.outOf q) ∧ (∀ q, (s.latchSetup r m k).inOf q = s.inOf q) ∧
    (s.latchSetup r m k).setupR = r ∧ (s.latchSetup r m k).setupM = m ∧ (s.latchSetup r m k).setupPinOk = k ∧
    (s.latchSetup r m k).rspValid = false :=
  by repeat' apply And.intro
     all_goals first | rfl | exact fun _ => rfl

@[simp] theorem State.start_fields (s : State) (events : List Micro) :
    (s.start events).readEn = s.readEn ∧ (s.start events).mode8En = s.mode8En ∧ (s.start events).dir = s.dir ∧
    (s.start events).pull = s.pull ∧ (s.start events).out = s.out ∧ (s.start events).width8 = s.width8 ∧
    (s.start events).deadline = s.deadline ∧ (s.start events).installed = s.installed ∧ (s.start events).op = s.op ∧
    (s.start events).wbyte = s.wbyte ∧ (s.start events).rbyte = s.rbyte ∧ (s.start events).setupR = s.setupR ∧
    (s.start events).setupM = s.setupM ∧ (s.start events).setupPinOk = s.setupPinOk ∧ (s.start events).bf = s.bf ∧
    (s.start events).hi = s.hi ∧ (s.start events).lo = s.lo ∧ (s.start events).tnow = s.tnow ∧
    (s.start events).rs = s.rs ∧ (s.start events).v = s.v ∧ (s.start events).setupOk = s.setupOk ∧
    (s.start events).cause = s.cause ∧ (s.start events).badPins = s.badPins ∧ (s.start events).rspValid = s.rspValid ∧
    (s.start events).env = s.env ∧ (∀ q, (s.start events).dirOf q = s.dirOf q) ∧
    (∀ q, (s.start events).pullOf q = s.pullOf q) ∧ (∀ q, (s.start events).outOf q = s.outOf q) ∧
    (∀ q, (s.start events).inOf q = s.inOf q) ∧ (s.start events).seq = events :=
  by repeat' apply And.intro
     all_goals first | rfl | exact fun _ => rfl

@[simp] theorem State.respond_fields (s : State) :
    (s.respond).readEn = s.readEn ∧ (s.respond).mode8En = s.mode8En ∧ (s.respond).dir = s.dir ∧
    (s.respond).pull = s.pull ∧ (s.respond).out = s.out ∧ (s.respond).width8 = s.width8 ∧
    (s.respond).deadline = s.deadline ∧ (s.respond).installed = s.installed ∧ (s.respond).op = s.op ∧
    (s.respond).wbyte = s.wbyte ∧ (s.respond).rbyte = s.rbyte ∧ (s.respond).setupR = s.setupR ∧
    (s.respond).setupM = s.setupM ∧ (s.respond).setupPinOk = s.setupPinOk ∧ (s.respond).bf = s.bf ∧
    (s.respond).hi = s.hi ∧ (s.respond).lo = s.lo ∧ (s.respond).tnow = s.tnow ∧ (s.respond).rs = s.rs ∧
    (s.respond).v = s.v ∧ (s.respond).setupOk = s.setupOk ∧ (s.respond).cause = s.cause ∧
    (s.respond).badPins = s.badPins ∧ (s.respond).env = s.env ∧ (∀ q, (s.respond).dirOf q = s.dirOf q) ∧
    (∀ q, (s.respond).pullOf q = s.pullOf q) ∧ (∀ q, (s.respond).outOf q = s.outOf q) ∧
    (∀ q, (s.respond).inOf q = s.inOf q) ∧ (s.respond).rspValid = true ∧ (s.respond).seq = s.seq :=
  by repeat' apply And.intro
     all_goals first | rfl | exact fun _ => rfl

@[simp] theorem State.raise_fields (s : State) (c : Cause) (info : PinVec) :
    (s.raise c info).readEn = s.readEn ∧ (s.raise c info).mode8En = s.mode8En ∧ (s.raise c info).dir = s.dir ∧
    (s.raise c info).pull = s.pull ∧ (s.raise c info).out = s.out ∧ (s.raise c info).width8 = s.width8 ∧
    (s.raise c info).deadline = s.deadline ∧ (s.raise c info).installed = s.installed ∧ (s.raise c info).op = s.op ∧
    (s.raise c info).wbyte = s.wbyte ∧ (s.raise c info).rbyte = s.rbyte ∧ (s.raise c info).setupR = s.setupR ∧
    (s.raise c info).setupM = s.setupM ∧ (s.raise c info).setupPinOk = s.setupPinOk ∧ (s.raise c info).bf = s.bf ∧
    (s.raise c info).hi = s.hi ∧ (s.raise c info).lo = s.lo ∧ (s.raise c info).tnow = s.tnow ∧
    (s.raise c info).rs = s.rs ∧ (s.raise c info).v = s.v ∧ (s.raise c info).env = s.env ∧
    (∀ q, (s.raise c info).dirOf q = s.dirOf q) ∧ (∀ q, (s.raise c info).pullOf q = s.pullOf q) ∧
    (∀ q, (s.raise c info).outOf q = s.outOf q) ∧ (∀ q, (s.raise c info).inOf q = s.inOf q) ∧
    (s.raise c info).setupOk = false ∧ (s.raise c info).cause = c.code ∧ (s.raise c info).badPins = info ∧
    (s.raise c info).seq = [] ∧ (s.raise c info).rspValid = true :=
  by repeat' apply And.intro
     all_goals first | rfl | exact fun _ => rfl

@[simp] theorem State.idle_fields (s : State) :
    (s.idle).readEn = s.readEn ∧ (s.idle).mode8En = s.mode8En ∧ (s.idle).dir = s.dir ∧ (s.idle).pull = s.pull ∧
    (s.idle).out = s.out ∧ (s.idle).width8 = s.width8 ∧ (s.idle).deadline = s.deadline ∧
    (s.idle).installed = s.installed ∧ (s.idle).op = s.op ∧ (s.idle).wbyte = s.wbyte ∧ (s.idle).rbyte = s.rbyte ∧
    (s.idle).setupR = s.setupR ∧ (s.idle).setupM = s.setupM ∧ (s.idle).setupPinOk = s.setupPinOk ∧
    (s.idle).bf = s.bf ∧ (s.idle).hi = s.hi ∧ (s.idle).lo = s.lo ∧ (s.idle).tnow = s.tnow ∧ (s.idle).rs = s.rs ∧
    (s.idle).v = s.v ∧ (s.idle).seq = s.seq ∧ (s.idle).setupOk = s.setupOk ∧ (s.idle).cause = s.cause ∧
    (s.idle).badPins = s.badPins ∧ (s.idle).env = s.env ∧ (∀ q, (s.idle).dirOf q = s.dirOf q) ∧
    (∀ q, (s.idle).pullOf q = s.pullOf q) ∧ (∀ q, (s.idle).outOf q = s.outOf q) ∧ (∀ q, (s.idle).inOf q = s.inOf q) ∧
    (s.idle).rspValid = false :=
  by repeat' apply And.intro
     all_goals first | rfl | exact fun _ => rfl

@[simp] theorem State.taken_fields (s : State) (rest : List HostRequest) :
    (s.taken rest).readEn = s.readEn ∧ (s.taken rest).mode8En = s.mode8En ∧ (s.taken rest).dir = s.dir ∧
    (s.taken rest).pull = s.pull ∧ (s.taken rest).out = s.out ∧ (s.taken rest).width8 = s.width8 ∧
    (s.taken rest).deadline = s.deadline ∧ (s.taken rest).installed = s.installed ∧ (s.taken rest).op = s.op ∧
    (s.taken rest).wbyte = s.wbyte ∧ (s.taken rest).rbyte = s.rbyte ∧ (s.taken rest).setupR = s.setupR ∧
    (s.taken rest).setupM = s.setupM ∧ (s.taken rest).setupPinOk = s.setupPinOk ∧ (s.taken rest).bf = s.bf ∧
    (s.taken rest).hi = s.hi ∧ (s.taken rest).lo = s.lo ∧ (s.taken rest).tnow = s.tnow ∧ (s.taken rest).rs = s.rs ∧
    (s.taken rest).v = s.v ∧ (s.taken rest).seq = s.seq ∧ (s.taken rest).setupOk = s.setupOk ∧
    (s.taken rest).cause = s.cause ∧ (s.taken rest).badPins = s.badPins ∧ (s.taken rest).rspValid = s.rspValid ∧
    (∀ q, (s.taken rest).dirOf q = s.dirOf q) ∧ (∀ q, (s.taken rest).pullOf q = s.pullOf q) ∧
    (∀ q, (s.taken rest).outOf q = s.outOf q) ∧ (s.taken rest).env = { s.env with host := rest } :=
  by repeat' apply And.intro
     all_goals first | rfl | exact fun _ => rfl

@[simp] theorem State.negotiate_fields (s : State) :
    (s.negotiate).readEn = s.readEn ∧ (s.negotiate).mode8En = s.mode8En ∧ (s.negotiate).dir = s.dir ∧
    (s.negotiate).pull = s.pull ∧ (s.negotiate).out = s.out ∧ (s.negotiate).deadline = s.deadline ∧
    (s.negotiate).installed = s.installed ∧ (s.negotiate).op = s.op ∧ (s.negotiate).wbyte = s.wbyte ∧
    (s.negotiate).rbyte = s.rbyte ∧ (s.negotiate).setupR = s.setupR ∧ (s.negotiate).setupM = s.setupM ∧
    (s.negotiate).setupPinOk = s.setupPinOk ∧ (s.negotiate).bf = s.bf ∧ (s.negotiate).hi = s.hi ∧
    (s.negotiate).lo = s.lo ∧ (s.negotiate).tnow = s.tnow ∧ (s.negotiate).rs = s.rs ∧ (s.negotiate).v = s.v ∧
    (s.negotiate).seq = s.seq ∧ (s.negotiate).setupOk = s.setupOk ∧ (s.negotiate).cause = s.cause ∧
    (s.negotiate).badPins = s.badPins ∧ (s.negotiate).rspValid = s.rspValid ∧ (s.negotiate).env = s.env ∧
    (∀ q, (s.negotiate).dirOf q = s.dirOf q) ∧ (∀ q, (s.negotiate).pullOf q = s.pullOf q) ∧
    (∀ q, (s.negotiate).outOf q = s.outOf q) ∧ (∀ q, (s.negotiate).inOf q = s.inOf q) ∧
    (s.negotiate).width8 = nextWidth s.width8 s.wbyte :=
  by repeat' apply And.intro
     all_goals first | rfl | exact fun _ => rfl

@[simp] theorem State.recordDeadline_fields (s : State) :
    (s.recordDeadline).readEn = s.readEn ∧ (s.recordDeadline).mode8En = s.mode8En ∧ (s.recordDeadline).dir = s.dir ∧
    (s.recordDeadline).pull = s.pull ∧ (s.recordDeadline).out = s.out ∧ (s.recordDeadline).width8 = s.width8 ∧
    (s.recordDeadline).installed = s.installed ∧ (s.recordDeadline).op = s.op ∧ (s.recordDeadline).wbyte = s.wbyte ∧
    (s.recordDeadline).rbyte = s.rbyte ∧ (s.recordDeadline).setupR = s.setupR ∧ (s.recordDeadline).setupM = s.setupM ∧
    (s.recordDeadline).setupPinOk = s.setupPinOk ∧ (s.recordDeadline).bf = s.bf ∧ (s.recordDeadline).hi = s.hi ∧
    (s.recordDeadline).lo = s.lo ∧ (s.recordDeadline).tnow = s.tnow ∧ (s.recordDeadline).rs = s.rs ∧
    (s.recordDeadline).v = s.v ∧ (s.recordDeadline).seq = s.seq ∧ (s.recordDeadline).setupOk = s.setupOk ∧
    (s.recordDeadline).cause = s.cause ∧ (s.recordDeadline).badPins = s.badPins ∧
    (s.recordDeadline).rspValid = s.rspValid ∧ (s.recordDeadline).env = s.env ∧
    (∀ q, (s.recordDeadline).dirOf q = s.dirOf q) ∧ (∀ q, (s.recordDeadline).pullOf q = s.pullOf q) ∧
    (∀ q, (s.recordDeadline).outOf q = s.outOf q) ∧ (∀ q, (s.recordDeadline).inOf q = s.inOf q) ∧
    (s.recordDeadline).deadline = s.tnow + selectDelayClass s.env.params s.rs s.wbyte :=
  by repeat' apply And.intro
     all_goals first | rfl | exact fun _ => rfl

@[simp] theorem State.updateBf_fields (s : State) :
    (s.updateBf).readEn = s.readEn ∧ (s.updateBf).mode8En = s.mode8En ∧ (s.updateBf).dir = s.dir ∧
    (s.updateBf).pull = s.pull ∧ (s.updateBf).out = s.out ∧ (s.updateBf).width8 = s.width8 ∧
    (s.updateBf).deadline = s.deadline ∧ (s.updateBf).installed = s.installed ∧ (s.updateBf).op = s.op ∧
    (s.updateBf).wbyte = s.wbyte ∧ (s.updateBf).rbyte = s.rbyte ∧ (s.updateBf).setupR = s.setupR ∧
    (s.updateBf).setupM = s.setupM ∧ (s.updateBf).setupPinOk = s.setupPinOk ∧ (s.updateBf).hi = s.hi ∧
    (s.updateBf).lo = s.lo ∧ (s.updateBf).tnow = s.tnow ∧ (s.updateBf).rs = s.rs ∧ (s.updateBf).v = s.v ∧
    (s.updateBf).seq = s.seq ∧ (s.updateBf).setupOk = s.setupOk ∧ (s.updateBf).cause = s.cause ∧
    (s.updateBf).badPins = s.badPins ∧ (s.updateBf).rspValid = s.rspValid ∧ (s.updateBf).env = s.env ∧
    (∀ q, (s.updateBf).dirOf q = s.dirOf q) ∧ (∀ q, (s.updateBf).pullOf q = s.pullOf q) ∧
    (∀ q, (s.updateBf).outOf q = s.outOf q) ∧ (∀ q, (s.updateBf).inOf q = s.inOf q) ∧
    (s.updateBf).bf = s.v.getLsbD 7 :=
  by repeat' apply And.intro
     all_goals first | rfl | exact fun _ => rfl

@[simp] theorem State.rbyteFromLines_fields (s : State) :
    (s.rbyteFromLines).readEn = s.readEn ∧ (s.rbyteFromLines).mode8En = s.mode8En ∧ (s.rbyteFromLines).dir = s.dir ∧
    (s.rbyteFromLines).pull = s.pull ∧ (s.rbyteFromLines).out = s.out ∧ (s.rbyteFromLines).width8 = s.width8 ∧
    (s.rbyteFromLines).deadline = s.deadline ∧ (s.rbyteFromLines).installed = s.installed ∧
    (s.rbyteFromLines).op = s.op ∧ (s.rbyteFromLines).wbyte = s.wbyte ∧ (s.rbyteFromLines).setupR = s.setupR ∧
    (s.rbyteFromLines).setupM = s.setupM ∧ (s.rbyteFromLines).setupPinOk = s.setupPinOk ∧
    (s.rbyteFromLines).bf = s.bf ∧ (s.rbyteFromLines).hi = s.hi ∧ (s.rbyteFromLines).lo = s.lo ∧
    (s.rbyteFromLines).tnow = s.tnow ∧ (s.rbyteFromLines).rs = s.rs ∧ (s.rbyteFromLines).v = s.v ∧
    (s.rbyteFromLines).seq = s.seq ∧ (s.rbyteFromLines).setupOk = s.setupOk ∧ (s.rbyteFromLines).cause = s.cause ∧
    (s.rbyteFromLines).badPins = s.badPins ∧ (s.rbyteFromLines).rspValid = s.rspValid ∧
    (s.rbyteFromLines).env = s.env ∧ (∀ q, (s.rbyteFromLines).dirOf q = s.dirOf q) ∧
    (∀ q, (s.rbyteFromLines).pullOf q = s.pullOf q) ∧ (∀ q, (s.rbyteFromLines).outOf q = s.outOf q) ∧
    (∀ q, (s.rbyteFromLines).inOf q = s.inOf q) ∧ (s.rbyteFromLines).rbyte = s.v :=
  by repeat' apply And.intro
     all_goals first | rfl | exact fun _ => rfl

@[simp] theorem State.rbyteFromNibbles_fields (s : State) :
    (s.rbyteFromNibbles).readEn = s.readEn ∧ (s.rbyteFromNibbles).mode8En = s.mode8En ∧
    (s.rbyteFromNibbles).dir = s.dir ∧ (s.rbyteFromNibbles).pull = s.pull ∧ (s.rbyteFromNibbles).out = s.out ∧
    (s.rbyteFromNibbles).width8 = s.width8 ∧ (s.rbyteFromNibbles).deadline = s.deadline ∧
    (s.rbyteFromNibbles).installed = s.installed ∧ (s.rbyteFromNibbles).op = s.op ∧
    (s.rbyteFromNibbles).wbyte = s.wbyte ∧ (s.rbyteFromNibbles).setupR = s.setupR ∧
    (s.rbyteFromNibbles).setupM = s.setupM ∧ (s.rbyteFromNibbles).setupPinOk = s.setupPinOk ∧
    (s.rbyteFromNibbles).bf = s.bf ∧ (s.rbyteFromNibbles).hi = s.hi ∧ (s.rbyteFromNibbles).lo = s.lo ∧
    (s.rbyteFromNibbles).tnow = s.tnow ∧ (s.rbyteFromNibbles).rs = s.rs ∧ (s.rbyteFromNibbles).v = s.v ∧
    (s.rbyteFromNibbles).seq = s.seq ∧ (s.rbyteFromNibbles).setupOk = s.setupOk ∧
    (s.rbyteFromNibbles).cause = s.cause ∧ (s.rbyteFromNibbles).badPins = s.badPins ∧
    (s.rbyteFromNibbles).rspValid = s.rspValid ∧ (s.rbyteFromNibbles).env = s.env ∧
    (∀ q, (s.rbyteFromNibbles).dirOf q = s.dirOf q) ∧ (∀ q, (s.rbyteFromNibbles).pullOf q = s.pullOf q) ∧
    (∀ q, (s.rbyteFromNibbles).outOf q = s.outOf q) ∧ (∀ q, (s.rbyteFromNibbles).inOf q = s.inOf q) ∧
    (s.rbyteFromNibbles).rbyte = joinNibbles s.hi s.lo :=
  by repeat' apply And.intro
     all_goals first | rfl | exact fun _ => rfl

@[simp] theorem State.awaitTest_fields (s : State) :
    (s.awaitTest).readEn = s.readEn ∧ (s.awaitTest).mode8En = s.mode8En ∧ (s.awaitTest).dir = s.dir ∧
    (s.awaitTest).pull = s.pull ∧ (s.awaitTest).out = s.out ∧ (s.awaitTest).width8 = s.width8 ∧
    (s.awaitTest).deadline = s.deadline ∧ (s.awaitTest).installed = s.installed ∧ (s.awaitTest).op = s.op ∧
    (s.awaitTest).wbyte = s.wbyte ∧ (s.awaitTest).rbyte = s.rbyte ∧ (s.awaitTest).setupR = s.setupR ∧
    (s.awaitTest).setupM = s.setupM ∧ (s.awaitTest).setupPinOk = s.setupPinOk ∧ (s.awaitTest).bf = s.bf ∧
    (s.awaitTest).hi = s.hi ∧ (s.awaitTest).lo = s.lo ∧ (s.awaitTest).tnow = s.tnow ∧ (s.awaitTest).rs = s.rs ∧
    (s.awaitTest).v = s.v ∧ (s.awaitTest).setupOk = s.setupOk ∧ (s.awaitTest).cause = s.cause ∧
    (s.awaitTest).badPins = s.badPins ∧ (s.awaitTest).rspValid = s.rspValid ∧ (s.awaitTest).env = s.env ∧
    (∀ q, (s.awaitTest).dirOf q = s.dirOf q) ∧ (∀ q, (s.awaitTest).pullOf q = s.pullOf q) ∧
    (∀ q, (s.awaitTest).outOf q = s.outOf q) ∧ (∀ q, (s.awaitTest).inOf q = s.inOf q) ∧
    (s.awaitTest).seq = if s.blindSleeps then .waitUntil s.deadline :: s.seq else s.seq :=
  by unfold State.awaitTest; split <;> (repeat' apply And.intro) <;> first | rfl | exact fun _ => rfl

@[simp] theorem State.loopTest_fields (s : State) :
    (s.loopTest).readEn = s.readEn ∧ (s.loopTest).mode8En = s.mode8En ∧ (s.loopTest).dir = s.dir ∧
    (s.loopTest).pull = s.pull ∧ (s.loopTest).out = s.out ∧ (s.loopTest).width8 = s.width8 ∧
    (s.loopTest).deadline = s.deadline ∧ (s.loopTest).installed = s.installed ∧ (s.loopTest).op = s.op ∧
    (s.loopTest).wbyte = s.wbyte ∧ (s.loopTest).rbyte = s.rbyte ∧ (s.loopTest).setupR = s.setupR ∧
    (s.loopTest).setupM = s.setupM ∧ (s.loopTest).setupPinOk = s.setupPinOk ∧ (s.loopTest).bf = s.bf ∧
    (s.loopTest).hi = s.hi ∧ (s.loopTest).lo = s.lo ∧ (s.loopTest).tnow = s.tnow ∧ (s.loopTest).rs = s.rs ∧
    (s.loopTest).v = s.v ∧ (s.loopTest).setupOk = s.setupOk ∧ (s.loopTest).cause = s.cause ∧
    (s.loopTest).badPins = s.badPins ∧ (s.loopTest).rspValid = s.rspValid ∧ (s.loopTest).env = s.env ∧
    (∀ q, (s.loopTest).dirOf q = s.dirOf q) ∧ (∀ q, (s.loopTest).pullOf q = s.pullOf q) ∧
    (∀ q, (s.loopTest).outOf q = s.outOf q) ∧ (∀ q, (s.loopTest).inOf q = s.inOf q) ∧
    (s.loopTest).seq = if s.bf then pollAgain s.env.params s.width8 ++ s.seq else s.seq :=
  by unfold State.loopTest; split <;> (repeat' apply And.intro) <;> first | rfl | exact fun _ => rfl


/-- A constant assignment writes its one register; no pin, latch, temporary, sequencer or input. -/
@[simp] theorem State.assign_fields (s : State) (a : Assign) :
    (s.assign a).readEn = (match a with | .readEn x => x | _ => s.readEn) ∧
    (s.assign a).mode8En = (match a with | .mode8En x => x | _ => s.mode8En) ∧
    (s.assign a).deadline = (match a with | .deadline t => t | _ => s.deadline) ∧
    (s.assign a).width8 = (match a with | .width8 x => x | _ => s.width8) ∧
    (s.assign a).installed = (match a with | .installed x => x | _ => s.installed) ∧
    (s.assign a).setupOk = (match a with | .setupOk x => x | _ => s.setupOk) ∧
    (s.assign a).cause = (match a with | .cause c => c.code | _ => s.cause) ∧
    (s.assign a).badPins = (match a with | .badPins b => b | _ => s.badPins) ∧
    (s.assign a).dir = s.dir ∧ (s.assign a).pull = s.pull ∧ (s.assign a).out = s.out ∧ (s.assign a).op = s.op ∧
    (s.assign a).wbyte = s.wbyte ∧ (s.assign a).rbyte = s.rbyte ∧ (s.assign a).setupR = s.setupR ∧
    (s.assign a).setupM = s.setupM ∧ (s.assign a).setupPinOk = s.setupPinOk ∧ (s.assign a).bf = s.bf ∧
    (s.assign a).hi = s.hi ∧ (s.assign a).lo = s.lo ∧ (s.assign a).tnow = s.tnow ∧ (s.assign a).rs = s.rs ∧
    (s.assign a).v = s.v ∧ (s.assign a).seq = s.seq ∧ (s.assign a).rspValid = s.rspValid ∧
    (s.assign a).env = s.env ∧ (∀ q, (s.assign a).dirOf q = s.dirOf q) ∧
    (∀ q, (s.assign a).pullOf q = s.pullOf q) ∧ (∀ q, (s.assign a).outOf q = s.outOf q) ∧
    (∀ q, (s.assign a).inOf q = s.inOf q) := by
  cases a <;> (repeat' apply And.intro) <;> first | rfl | exact fun _ => rfl

/-! ## The environment -/

@[simp] theorem Env.advance_params (e : Env) : e.advance.params = e.params := rfl
@[simp] theorem Env.advance_host (e : Env) : e.advance.host = e.host := rfl
@[simp] theorem Env.advance_now (e : Env) : e.advance.now = e.now + e.nextMove.dt := rfl
@[simp] theorem Env.advance_pinIn (e : Env) : e.advance.pinIn = e.nextMove.pins := rfl
@[simp] theorem Env.advance_script (e : Env) : e.advance.script = e.script.tail := rfl
@[simp] theorem Env.advance_draws (e : Env) : e.advance.draws = e.draws + 1 := rfl

/-- The clock is monotone (41_deadline_tracker.md R110). -/
theorem Env.now_le_advance (e : Env) : e.now ≤ e.advance.now := Nat.le_add_right _ _

@[simp] theorem State.busy_eq_false {s : State} : s.busy = false ↔ s.seq = [] := by
  simp [State.busy]

end Sys2Proof.Machine
end

