-- ==== Sys2Proof/Laws/Pins.lean ====
section
/-! SUPPORT. Laws/Pins.lean: the pin index is one to one, and a pin register reads as it was last written. -/

namespace Sys2Proof.Machine

theorem Pin.index_injective {p q : Pin} (h : p.index = q.index) : p = q := by
  revert h; cases p <;> cases q <;> decide

@[simp] theorem Pin.index_val_eq {p q : Pin} : p.index.val = q.index.val ↔ p = q :=
  ⟨fun h => Pin.index_injective (Fin.ext h), fun h => h ▸ rfl⟩

/-- Reading `out` after a `Drive`. -/
@[simp] theorem State.outOf_drive (s : State) (p q : Pin) (x : Bool) :
    (s.drive p x).outOf q = if p = q then x else s.outOf q := by
  simp [State.outOf, State.drive, Vector.getElem_set]

/-- Reading `dir` after a `PinMode`. -/
@[simp] theorem State.dirOf_pinMode (s : State) (p q : Pin) (m : Dir) :
    (s.pinMode p m).dirOf q = if p = q then m else s.dirOf q := by
  simp [State.dirOf, State.pinMode, Vector.getElem_set]

/-- Reading `pull` after a `PullUp`. -/
@[simp] theorem State.pullOf_pullUp (s : State) (p q : Pin) :
    (s.pullUp p).pullOf q = if p = q then .Up else s.pullOf q := by
  simp [State.pullOf, State.pullUp, Vector.getElem_set]

/-- The list of used pins and the table "used when" of 10_state.md R21 agree. -/
theorem mem_usedPins (r m : Bool) (p : Pin) : p ∈ usedPins r m ↔ p.used r m = true := by
  revert r m p; intro r m p; cases r <;> cases m <;> cases p <;> decide

end Sys2Proof.Machine
end

