-- ==== Sys2Proof/Laws/Run.lean ====
section
/-! SUPPORT. Laws/Run.lean: what a step can do, what `exec` can do, and how a run goes through a list of events. -/

namespace Sys2Proof.Machine

/-! ## One step -/

/-- A busy block issues the next event; the requests at the port play no part. -/
theorem step_busy {s : State} {op : Micro} {rest : List Micro} (h : s.seq = op :: rest) :
    step s = .next (s.envMove.runMicro op rest) := by
  simp [step, State.stepBlock, h]

/-- An idle block at whose port nothing is held stays idle. -/
theorem step_no_request {s : State} (h : s.seq = []) (hh : s.env.host = []) : step s = .next s.envMove.idle := by
  simp [step, State.stepBlock, State.stepIdle, h, hh]

/-- An idle block drops a request that does not reach it. -/
theorem step_foreign {s : State} {q : HostRequest} {rest : List HostRequest} (h : s.seq = [])
    (hh : s.env.host = q :: rest) (hf : fetched s.env.params q = none) :
    step s = .next (s.envMove.taken rest).idle := by
  simp [step, State.stepBlock, State.stepIdle, h, hh, hf]

/-- An idle block runs the first request that reaches it. -/
theorem step_request {s : State} {q : HostRequest} {rest : List HostRequest} {i : Instr} (h : s.seq = [])
    (hh : s.env.host = q :: rest) (hf : fetched s.env.params q = some i) :
    step s = exec i (s.envMove.taken rest) := by
  simp [step, State.stepBlock, State.stepIdle, h, hh, hf]

/-- Everything a step that answers a next state can do. -/
theorem step_next_cases {s t : State} (h : step s = .next t) :
    (∃ op rest, s.seq = op :: rest ∧ t = s.envMove.runMicro op rest) ∨
    (s.seq = [] ∧ s.env.host = [] ∧ t = s.envMove.idle) ∨
    (s.seq = [] ∧ ∃ q rest, s.env.host = q :: rest ∧ fetched s.env.params q = none ∧
      t = (s.envMove.taken rest).idle) ∨
    (s.seq = [] ∧ ∃ q rest i, s.env.host = q :: rest ∧ fetched s.env.params q = some i ∧
      exec i (s.envMove.taken rest) = .next t) := by
  cases hs : s.seq with
  | cons op rest => rw [step_busy hs] at h; cases h; exact .inl ⟨op, rest, rfl, rfl⟩
  | nil =>
    cases hh : s.env.host with
    | nil => rw [step_no_request hs hh] at h; cases h; exact .inr (.inl ⟨rfl, rfl, rfl⟩)
    | cons q rest =>
      cases hf : fetched s.env.params q with
      | none =>
        rw [step_foreign hs hh hf] at h; cases h
        exact .inr (.inr (.inl ⟨rfl, q, rest, rfl, hf, rfl⟩))
      | some i =>
        rw [step_request hs hh hf] at h
        exact .inr (.inr (.inr ⟨rfl, q, rest, i, rfl, hf, h⟩))

/-! ## One instruction -/

theorem State.serve_next {s started t : State} (h : s.serve started = .next t) :
    s.seq = [] ∧ s.installed = true ∧ t = started := by
  unfold State.serve at h
  split at h
  · cases h
  · split at h <;> simp_all

theorem State.serveRead_next {s started t : State} (h : s.serveRead started = .next t) :
    s.seq = [] ∧ s.installed = true ∧ s.readEn = true ∧ t = started := by
  unfold State.serveRead at h
  split at h
  · cases h
  · split at h
    · cases h
    · split at h <;> simp_all

theorem State.serve_ready {s started : State} (h : s.Ready) : s.serve started = .next started := by
  simp [State.serve, h.1, h.2]

theorem State.serveRead_ready {s started : State} (h : s.Ready) (hr : s.readEn = true) :
    s.serveRead started = .next started := by
  simp [State.serveRead, h.1, h.2, hr]

/-- An instruction write that is well formed is the instruction write of its byte (40_command_bytes.md R90). -/
theorem exec_instructionByte {i : Instr} {b : Byte} {s : State} (hb : instructionByte i = some b) (hw : WellFormed i) :
    exec i s = s.instructionWrite b := by
  cases i with
  | setCgram a =>
    have ha : a ≤ 0x3F := of_decide_eq_true hw
    cases hb; simp [exec, execSetCgram, ha]
  | setDdram a =>
    have ha : a ≤ 0x7F := of_decide_eq_true hw
    cases hb; simp [exec, execSetDdram, ha]
  | _ => cases hb <;> rfl

/-- Everything an instruction that answers a next state can do: each case is one of the five operations. -/
theorem exec_next_cases {i : Instr} {s t : State} (h : exec i s = .next t) :
    s.seq = [] ∧
    ((∃ r m k, i = .setup r m k ∧ s.installed = false ∧
        ((failingPins r m k = 0 ∧ t = (s.latchSetup r m k).start (setupEvents s.env.params r m)) ∨
         (failingPins r m k ≠ 0 ∧ t = (s.latchSetup r m k).start (failedSetupEvents (failingPins r m k))))) ∨
     (s.installed = true ∧
       ((∃ d, i = .wrd d ∧ t = (s.latchWrite 0b00#2 d).startWrite) ∨
        (∃ b, instructionByte i = some b ∧ t = (s.latchWrite 0b01#2 b).startInstruction) ∨
        (∃ x, i = .rdd x ∧ s.readEn = true ∧ t = (s.latchRead 0b10#2).startRead) ∨
        (∃ x, i = .rds x ∧ s.readEn = true ∧ t = (s.latchRead 0b11#2).startRead)))) := by
  have hwrite : ∀ b, instructionByte i = some b → s.instructionWrite b = .next t →
      s.seq = [] ∧ s.installed = true ∧ t = (s.latchWrite 0b01#2 b).startInstruction :=
    fun b _ hx => State.serve_next hx
  cases i with
  | setup r m k =>
    simp only [exec, execSetup] at h
    split at h
    · cases h
    · rename_i hbusy
      split at h
      · cases h
      · rename_i hinst
        have hseq : s.seq = [] := by simpa using hbusy
        refine ⟨hseq, .inl ⟨r, m, k, rfl, by simpa using hinst, ?_⟩⟩
        split at h
        · rename_i hf; cases h; exact .inl ⟨hf, rfl⟩
        · rename_i hf; cases h; exact .inr ⟨hf, rfl⟩
  | wrd d => have := State.serve_next h; simp_all
  | rdd x => have := State.serveRead_next h; simp_all [instructionByte]
  | rds x => have := State.serveRead_next h; simp_all [instructionByte]
  | setCgram a =>
    simp only [exec, execSetCgram] at h
    split at h
    · have := hwrite _ rfl h; simp_all [instructionByte]
    · cases h
  | setDdram a =>
    simp only [exec, execSetDdram] at h
    split at h
    · have := hwrite _ rfl h; simp_all [instructionByte]
    · cases h
  | wri d => have := hwrite _ rfl h; simp_all [instructionByte]
  | clear => have := hwrite _ rfl h; simp_all [instructionByte]
  | home x => have := hwrite _ rfl h; simp_all [instructionByte]
  | entryMode a b => have := hwrite _ rfl h; simp_all [instructionByte]
  | onOff d c b => have := hwrite _ rfl h; simp_all [instructionByte]
  | shift sc rl x => have := hwrite _ rfl h; simp_all [instructionByte]
  | funcSet l n f x => have := hwrite _ rfl h; simp_all [instructionByte]
  | undef00 => have := hwrite _ rfl h; simp_all [instructionByte]

/-! ## Runs of events -/

/-- An event after which the sequencer goes on with what remains: all but the two tests and `raise`. -/
def Micro.straight : Micro → Bool
  | .awaitTest | .loopTest | .raise _ _ => false
  | _ => true

/-- The state after the listed events, the environment moving before each. -/
def State.afterEvents (s : State) (events : List Micro) : State := events.foldl (fun t op => t.envMove.event op) s

@[simp] theorem State.afterEvents_nil (s : State) : s.afterEvents [] = s := rfl
@[simp] theorem State.afterEvents_cons (s : State) (op : Micro) (es : List Micro) :
    s.afterEvents (op :: es) = (s.envMove.event op).afterEvents es := rfl
theorem State.afterEvents_append (s : State) (es fs : List Micro) :
    s.afterEvents (es ++ fs) = (s.afterEvents es).afterEvents fs := by
  simp [State.afterEvents]

@[simp] theorem State.start_start (s : State) (l m : List Micro) : (s.start l).start m = s.start m := rfl
@[simp] theorem State.start_envMove (s : State) (l : List Micro) : (s.start l).envMove = s.envMove.start l := rfl
@[simp] theorem State.start_self (s : State) : s.start s.seq = s := rfl

/-- A straight event does not see what remains. -/
theorem State.event_start {op : Micro} (h : op.straight = true) (s : State) (l : List Micro) :
    (s.start l).event op = (s.event op).start l := by
  cases op <;> first | rfl | (simp [Micro.straight] at h; done) | skip
  case sample p dst => cases dst <;> rfl
  case assign a => cases a <;> rfl

theorem step_start_straight {op : Micro} (h : op.straight = true) (s : State) (l : List Micro) :
    step (s.start (op :: l)) = .next ((s.envMove.event op).start l) := by
  rw [step_busy rfl]
  exact congrArg _ (State.event_start h s.envMove l)

theorem steps_add (m n : Nat) {s t : State} (h : steps m s = .next t) : steps (m + n) s = steps n t := by
  induction m generalizing s with
  | zero => cases h; simp
  | succ m ih =>
    rw [Nat.add_right_comm]
    simp only [steps] at h ⊢
    split at h
    · exact ih h
    · cases h
    · cases h

/-- A run through straight events. -/
theorem steps_straight (es : List Micro) (h : ∀ op ∈ es, op.straight = true) (s : State) (rest : List Micro) :
    steps es.length (s.start (es ++ rest)) = .next ((s.afterEvents es).start rest) := by
  induction es generalizing s with
  | nil => rfl
  | cons op es ih =>
    have hop : op.straight = true := h op (by simp)
    simp only [List.length_cons, steps, List.cons_append, step_start_straight hop]
    exact ih (fun o ho => h o (by simp [ho])) _

/-- The test of `AwaitReady`. -/
theorem step_awaitTest (s : State) (l : List Micro) :
    step (s.start (.awaitTest :: l)) =
      .next (s.envMove.start (if s.blindSleeps then .waitUntil s.deadline :: l else l)) := by
  rw [step_busy rfl]
  simp only [State.runMicro, State.event, State.awaitTest]
  split <;> rename_i hc <;> simp_all [State.blindSleeps, State.start, State.envMove]

/-- The test of the busy-wait loop. -/
theorem step_loopTest (s : State) (l : List Micro) :
    step (s.start (.loopTest :: l)) =
      .next (s.envMove.start (if s.bf then pollAgain s.env.params s.width8 ++ l else l)) := by
  rw [step_busy rfl]
  simp only [State.runMicro, State.event, State.loopTest]
  split <;> rename_i hc <;> simp_all [State.start, State.envMove]

/-- The error that ends a transaction. -/
theorem step_raise (s : State) (c : Cause) (info : PinVec) (l : List Micro) :
    step (s.start (.raise c info :: l)) = .next (s.envMove.raise c info) := by
  rw [step_busy rfl]; rfl

/-- The whole of a failing SETUP: three assignments, then the error. -/
theorem steps_failedSetup (s : State) (bad : PinVec) :
    steps 4 (s.start (failedSetupEvents bad)) =
      .next ((s.afterEvents [.assign (.setupOk false), .assign (.cause .cfgErr), .assign (.badPins bad)]).envMove.raise
        .cfgErr bad) := by
  have h := steps_straight [.assign (.setupOk false), .assign (.cause .cfgErr), .assign (.badPins bad)]
    (by simp [Micro.straight]) s [.raise .cfgErr bad]
  exact (steps_add 3 1 h).trans (by simp [steps, step_raise])

/-- The environment's coming moves, one step later. -/
theorem State.moveAt_succ (s : State) (k : Nat) : s.envMove.moveAt k = s.moveAt (k + 1) := by
  simp [State.moveAt, Nat.add_comm, Nat.add_left_comm]

theorem State.moveAt_zero (s : State) : s.env.nextMove = s.moveAt 0 := by
  cases h : s.env.script <;> simp [State.moveAt, Env.nextMove, h]

end Sys2Proof.Machine
end

