-- ==== Sys2Proof/Laws/Events.lean ====
section
/-! SUPPORT. Laws/Events.lean: what an event does to the pins, the clock and the counters of strobes, and the same over a
list of events and over a run. -/

namespace Sys2Proof.Machine

/-! ## One event -/

theorem State.event_outOf (s : State) (op : Micro) (p : Pin) : (s.event op).outOf p = op.onOut p (s.outOf p) := by
  cases op <;> simp [State.event, Micro.onOut]

theorem State.event_dirOf (s : State) (op : Micro) (p : Pin) : (s.event op).dirOf p = op.onDir p (s.dirOf p) := by
  cases op <;> simp [State.event, Micro.onDir]

theorem State.event_pullOf (s : State) (op : Micro) (p : Pin) : (s.event op).pullOf p = op.onPull p (s.pullOf p) := by
  cases op <;> simp [State.event, Micro.onPull]

theorem State.event_readEn (s : State) (op : Micro) : (s.event op).readEn = op.onReadEn s.readEn := by
  cases op <;> simp [State.event, Micro.onReadEn]
  case assign a => cases a <;> rfl

theorem State.event_mode8En (s : State) (op : Micro) : (s.event op).mode8En = op.onMode8En s.mode8En := by
  cases op <;> simp [State.event, Micro.onMode8En]
  case assign a => cases a <;> rfl

theorem State.event_width8 (s : State) (op : Micro) : (s.event op).width8 = op.onWidth8 s.wbyte s.width8 := by
  cases op <;> simp [State.event, Micro.onWidth8]
  case assign a => cases a <;> rfl

theorem State.event_installed (s : State) (op : Micro) : (s.event op).installed = op.onInstalled s.installed := by
  cases op <;> simp [State.event, Micro.onInstalled]
  case assign a => cases a <;> rfl

/-- No event changes a latch of the host port, a parameter or the held requests. -/
theorem State.event_frame (s : State) (op : Micro) :
    (s.event op).op = s.op ∧ (s.event op).wbyte = s.wbyte ∧ (s.event op).rs = s.rs ∧ (s.event op).setupR = s.setupR ∧
    (s.event op).setupM = s.setupM ∧ (s.event op).setupPinOk = s.setupPinOk ∧
    (s.event op).env.params = s.env.params ∧ (s.event op).env.host = s.env.host := by
  cases op <;> simp [State.event]

/-- Time passes only forward. -/
theorem State.event_now (s : State) (op : Micro) : s.env.now ≤ (s.event op).env.now := by
  cases op <;> simp [State.event]

/-- What remains after an event: a test may put events before it, and `raise` ends the transaction. -/
theorem State.event_seq (s : State) (op : Micro) :
    (s.event op).seq = match op with
      | .awaitTest => if s.blindSleeps then .waitUntil s.deadline :: s.seq else s.seq
      | .loopTest  => if s.bf then pollAgain s.env.params s.width8 ++ s.seq else s.seq
      | .raise _ _ => []
      | _ => s.seq := by
  cases op <;> simp [State.event]

/-! ## Lists of events -/

@[simp] theorem after_nil {α : Type} (f : Micro → α → α) (x : α) : after f [] x = x := rfl
@[simp] theorem after_cons {α : Type} (f : Micro → α → α) (op : Micro) (es : List Micro) (x : α) :
    after f (op :: es) x = after f es (f op x) := rfl
@[simp] theorem after_append {α : Type} (f : Micro → α → α) (es fs : List Micro) (x : α) :
    after f (es ++ fs) x = after f fs (after f es x) := by
  simp [after]

theorem State.afterEvents_outOf (es : List Micro) (s : State) (p : Pin) :
    (s.afterEvents es).outOf p = after (Micro.onOut p) es (s.outOf p) := by
  induction es generalizing s with
  | nil => rfl
  | cons op es ih => simp [ih, State.event_outOf]

theorem State.afterEvents_dirOf (es : List Micro) (s : State) (p : Pin) :
    (s.afterEvents es).dirOf p = after (Micro.onDir p) es (s.dirOf p) := by
  induction es generalizing s with
  | nil => rfl
  | cons op es ih => simp [ih, State.event_dirOf]

theorem State.afterEvents_pullOf (es : List Micro) (s : State) (p : Pin) :
    (s.afterEvents es).pullOf p = after (Micro.onPull p) es (s.pullOf p) := by
  induction es generalizing s with
  | nil => rfl
  | cons op es ih => simp [ih, State.event_pullOf]

/-- No event changes a latch of the host port, a parameter or the held requests: neither does a list of them. -/
theorem State.afterEvents_frame (es : List Micro) (s : State) :
    (s.afterEvents es).op = s.op ∧ (s.afterEvents es).wbyte = s.wbyte ∧ (s.afterEvents es).rs = s.rs ∧
    (s.afterEvents es).setupR = s.setupR ∧ (s.afterEvents es).setupM = s.setupM ∧
    (s.afterEvents es).setupPinOk = s.setupPinOk ∧ (s.afterEvents es).env.params = s.env.params ∧
    (s.afterEvents es).env.host = s.env.host := by
  induction es generalizing s with
  | nil => simp
  | cons op es ih =>
    have h := State.event_frame s.envMove op
    simp only [State.envMove_fields, Env.advance_params, Env.advance_host] at h
    simp only [State.afterEvents_cons, ih, h, and_self]

/-- An event on the pins, or a wait: it changes no register but pins and the clock. -/
def Micro.onBus : Micro → Bool
  | .drive _ _ | .pinMode _ _ | .pullUp _ | .wait _ | .waitUntil _ => true
  | _ => false

/-- What events on the pins and waits leave unchanged. -/
theorem State.afterEvents_onBus (es : List Micro) (h : ∀ op ∈ es, op.onBus = true) (s : State) :
    (s.afterEvents es).readEn = s.readEn ∧ (s.afterEvents es).mode8En = s.mode8En ∧
    (s.afterEvents es).width8 = s.width8 ∧ (s.afterEvents es).deadline = s.deadline ∧
    (s.afterEvents es).installed = s.installed ∧ (s.afterEvents es).rbyte = s.rbyte ∧ (s.afterEvents es).bf = s.bf ∧
    (s.afterEvents es).hi = s.hi ∧ (s.afterEvents es).lo = s.lo ∧ (s.afterEvents es).tnow = s.tnow ∧
    (s.afterEvents es).v = s.v ∧ (s.afterEvents es).seq = s.seq ∧ (s.afterEvents es).setupOk = s.setupOk ∧
    (s.afterEvents es).cause = s.cause ∧ (s.afterEvents es).badPins = s.badPins ∧
    (s.afterEvents es).rspValid = s.rspValid := by
  induction es generalizing s with
  | nil => simp
  | cons op es ih =>
    have ho := h op (by simp)
    rw [State.afterEvents_cons]
    have := ih (fun o ho => h o (by simp [ho])) (s.envMove.event op)
    cases op <;> first | (simpa [State.event] using this) | (simp [Micro.onBus] at ho)

/-! ## The clock and the environment's moves -/

/-- What an event does to `NOW`, the environment's move apart. -/
def Micro.onNow : Micro → Nat → Nat
  | .wait n, t => t + n
  | .waitUntil d, t => max t d
  | _, t => t

theorem State.event_onNow (s : State) (op : Micro) : (s.event op).env.now = op.onNow s.env.now := by
  cases op <;> simp [State.event, Micro.onNow]

theorem Micro.onNow_mono (op : Micro) {t u : Nat} (h : t ≤ u) : op.onNow t ≤ op.onNow u := by
  cases op <;> simp only [Micro.onNow] <;> omega

theorem after_onNow_mono (es : List Micro) {t u : Nat} (h : t ≤ u) : after Micro.onNow es t ≤ after Micro.onNow es u := by
  induction es generalizing t u with
  | nil => exact h
  | cons op es ih => exact ih (op.onNow_mono h)

/-- A run takes at least its waits. -/
theorem State.afterEvents_now_ge (es : List Micro) (s : State) :
    after Micro.onNow es s.env.now ≤ (s.afterEvents es).env.now := by
  induction es generalizing s with
  | nil => exact Nat.le_refl _
  | cons op es ih =>
    refine Nat.le_trans (after_onNow_mono es ?_) (ih _)
    rw [State.event_onNow]
    exact op.onNow_mono (Env.now_le_advance s.env)

@[simp] theorem State.event_moveAt (s : State) (op : Micro) (k : Nat) : (s.event op).moveAt k = s.moveAt k := by
  cases op <;> simp [State.event, State.moveAt]

@[simp] theorem State.start_moveAt (s : State) (l : List Micro) (k : Nat) : (s.start l).moveAt k = s.moveAt k := rfl

theorem State.afterEvents_moveAt (es : List Micro) (s : State) (k : Nat) :
    (s.afterEvents es).moveAt k = s.moveAt (es.length + k) := by
  induction es generalizing s with
  | nil => simp
  | cons op es ih => simp [ih, State.moveAt_succ, Nat.add_right_comm]

/-- Under the ideal clock a run takes exactly its waits. -/
theorem State.afterEvents_now_eq (es : List Micro) (s : State) (h : s.idealClock es.length) :
    (s.afterEvents es).env.now = after Micro.onNow es s.env.now := by
  induction es generalizing s with
  | nil => rfl
  | cons op es ih =>
    have h0 : (s.moveAt 0).dt = 0 := h 0 (by simp)
    rw [State.afterEvents_cons, ih _ (fun k hk => ?_), State.event_onNow]
    · simp [State.moveAt_zero, h0]
    · rw [State.event_moveAt, State.moveAt_succ]; exact h (k + 1) (by simpa using hk)

/-- What no listed event changes is unchanged. -/
theorem State.afterEvents_keep {α : Type} (f : State → α) (es : List Micro) (s : State)
    (h : ∀ op ∈ es, ∀ t : State, f (t.envMove.event op) = f t) : f (s.afterEvents es) = f s := by
  induction es generalizing s with
  | nil => rfl
  | cons op es ih => rw [State.afterEvents_cons, ih _ (fun o ho => h o (by simp [ho])), h op (by simp)]

/-! ## Runs -/

theorem strobes_add (m n : Nat) {s t : State} (h : steps m s = .next t) :
    strobes (m + n) s = strobes m s + strobes n t := by
  induction m generalizing s with
  | zero => cases h; simp [strobes]
  | succ m ih =>
    rw [Nat.add_right_comm]
    simp only [steps, strobes] at h ⊢
    split at h
    · simp only [ih h, Nat.add_assoc]
    · cases h
    · cases h

theorem commits_add (m n : Nat) {s t : State} (h : steps m s = .next t) :
    commits (m + n) s = commits m s ++ commits n t := by
  induction m generalizing s with
  | zero => cases h; simp [commits]
  | succ m ih =>
    rw [Nat.add_right_comm]
    simp only [steps, commits] at h ⊢
    split at h
    · simp only [ih h, List.append_assoc]
    · cases h
    · cases h

/-- What a pin is driven to, from its direction and its latch (10_state.md R23). -/
def driving (d : Dir) (x : Bool) : Option Bool :=
  match d with
  | .Out => some x
  | .In  => none

theorem State.drives_eq (s : State) (p : Pin) : s.drives p = driving (s.dirOf p) (s.outOf p) := rfl

theorem State.event_drives (s : State) (op : Micro) (p : Pin) :
    (s.event op).drives p = driving (op.onDir p (s.dirOf p)) (op.onOut p (s.outOf p)) := by
  rw [State.drives_eq, State.event_dirOf, State.event_outOf]

/-- How many falling edges a list of events has when E starts with direction `d` and latch `e`. -/
def edges : Dir → Bool → List Micro → Nat
  | _, _, [] => 0
  | d, e, op :: es =>
    (driving d e == some true && driving (op.onDir .E d) (op.onOut .E e) == some false).toNat
      + edges (op.onDir .E d) (op.onOut .E e) es

/-- The strobes of a run through straight events are the falling edges of the list. -/
theorem strobes_straight (es : List Micro) (h : ∀ op ∈ es, op.straight = true) (s : State) (rest : List Micro) :
    strobes es.length (s.start (es ++ rest)) = edges (s.dirOf .E) (s.outOf .E) es := by
  induction es generalizing s with
  | nil => rfl
  | cons op es ih =>
    have hop : op.straight = true := h op (by simp)
    simp only [List.length_cons, strobes, List.cons_append, step_start_straight hop, edges]
    rw [ih (fun o ho => h o (by simp [ho]))]
    simp [strobeEnds, State.drives_eq, State.event_outOf, State.event_dirOf]

/-- What is driven onto each pin at each falling edge of a list of events, from the directions and the latches before it. -/
def carried : (Pin → Dir) → (Pin → Bool) → List Micro → List (Pin → Option Bool)
  | _, _, [] => []
  | d, lv, op :: es =>
    let d' := fun p => op.onDir p (d p)
    let lv' := fun p => op.onOut p (lv p)
    (if driving (d .E) (lv .E) == some true && driving (d' .E) (lv' .E) == some false then
      [fun p => driving (d' p) (lv' p)] else []) ++ carried d' lv' es

/-- The commits of a run through straight events. -/
theorem commits_straight (es : List Micro) (h : ∀ op ∈ es, op.straight = true) (s : State) (rest : List Micro) :
    commits es.length (s.start (es ++ rest)) = carried s.dirOf s.outOf es := by
  induction es generalizing s with
  | nil => rfl
  | cons op es ih =>
    have hop : op.straight = true := h op (by simp)
    have hd : (s.envMove.event op).dirOf = fun p => op.onDir p (s.dirOf p) := funext fun p => by
      simp [State.event_dirOf]
    have ho : (s.envMove.event op).outOf = fun p => op.onOut p (s.outOf p) := funext fun p => by
      simp [State.event_outOf]
    simp only [List.length_cons, commits, List.cons_append, step_start_straight hop, carried]
    rw [ih (fun o ho => h o (by simp [ho])), hd, ho]
    have hw : (s.start (op :: (es ++ rest))).drives = fun p => driving (s.dirOf p) (s.outOf p) := rfl
    have hv : ((s.envMove.event op).start (es ++ rest)).drives =
        fun p => driving (op.onDir p (s.dirOf p)) (op.onOut p (s.outOf p)) := funext fun p => by
      exact (s.envMove.event_drives op p).trans (by simp)
    simp [strobeEnds, hw, hv]

end Sys2Proof.Machine
end

