-- ==== Sys2Proof/Laws/Clock.lean ====
section
/-! SUPPORT. Laws/Clock.lean: the clock is unbounded (41_deadline_tracker.md R110): the free moves are fair, and a run takes at
least the environment's moves. -/

namespace Sys2Proof.Machine

/-! ## Fair moves -/

/-- From every move on there is one at which the clock has to go on. -/
theorem exists_stillMoves_zero (still : Nat → Nat) (n : Nat) : ∃ m, n ≤ m ∧ stillMoves still m = 0 := by
  generalize hk : stillMoves still n = k
  induction k generalizing n with
  | zero => exact ⟨n, Nat.le_refl n, hk⟩
  | succ k ih =>
    obtain ⟨m, hm, h0⟩ := ih (n + 1) (by simp [stillMoves, hk])
    exact ⟨m, Nat.le_of_succ_le hm, h0⟩

/-- The clock goes on at infinitely many fair moves. -/
theorem exists_fairMove_pos (still : Nat → Nat) (moves : Nat → EnvMove) (n : Nat) :
    ∃ m, n ≤ m ∧ 0 < (fairMove still moves m).dt := by
  obtain ⟨m, hm, h0⟩ := exists_stillMoves_zero still n
  exact ⟨m, hm, by simp only [fairMove, h0, if_true]; omega⟩

/-- No environment is lost: any moves at infinitely many of which the clock goes on are fair moves as they stand. -/
theorem fairMove_complete (moves : Nat → EnvMove) (h : ∀ n, ∃ m, n ≤ m ∧ 0 < (moves m).dt) :
    ∃ still, ∀ n, fairMove still moves n = moves n := by
  classical
  have ex : ∀ n, ∃ k, 0 < (moves (n + k)).dt := fun n => by
    obtain ⟨m, hm, hp⟩ := h n
    exact ⟨m - n, by rwa [Nat.add_sub_cancel' hm]⟩
  have key : ∀ n, stillMoves (fun n => Nat.find (ex n)) n = Nat.find (ex n) := by
    intro n
    induction n with
    | zero => rfl
    | succ n ih =>
      simp only [stillMoves, ih]
      split
      · rfl
      · rename_i k hk
        refine ((Nat.find_eq_iff _).2 ⟨?_, fun j hj => ?_⟩).symm
        · have := Nat.find_spec (ex n)
          rwa [hk, show n + (k + 1) = n + 1 + k by omega] at this
        · have := Nat.find_min (ex n) (m := j + 1) (by omega)
          rwa [show n + (j + 1) = n + 1 + j by omega] at this
  refine ⟨fun n => Nat.find (ex n), fun n => ?_⟩
  unfold fairMove
  split
  · rename_i h0
    rw [key] at h0
    have hp := Nat.find_spec (ex n)
    rw [h0, Nat.add_zero] at hp
    rw [Nat.max_eq_right hp]
  · rfl

/-- The clock goes on at infinitely many of the environment's coming moves: a script is finite. -/
theorem State.exists_moveAt_pos (s : State) (n : Nat) : ∃ k, n ≤ k ∧ 0 < (s.moveAt k).dt := by
  obtain ⟨m, hm, hp⟩ := exists_fairMove_pos Config.freeStill Config.freeMove (s.env.draws + (n + s.env.script.length))
  refine ⟨m - s.env.draws, by omega, ?_⟩
  have hk : s.env.script[m - s.env.draws]? = none := List.getElem?_eq_none (by omega)
  simpa [State.moveAt, hk, freeMoveAt, Nat.add_sub_cancel' (show s.env.draws ≤ m by omega)] using hp

/-! ## Runs -/

/-- A step takes the environment's first coming move, and time passes by at least that. -/
theorem step_next_moves {s t : State} (h : step s = .next t) :
    s.env.now + (s.moveAt 0).dt ≤ t.env.now ∧ ∀ k, t.moveAt k = s.moveAt (k + 1) := by
  rcases step_next_cases h with ⟨op, rest, hs, rfl⟩ | ⟨hs, hh, rfl⟩ | ⟨hs, q, rest, hh, hf, rfl⟩ |
    ⟨hs, q, rest, i, hh, hf, he⟩
  · refine ⟨?_, fun k => ?_⟩
    · rw [← State.moveAt_zero]
      exact State.event_now (s.envMove.start rest) op
    · rw [State.runMicro, State.event_moveAt, State.start_moveAt, State.moveAt_succ]
  · exact ⟨by simp [State.moveAt_zero], s.moveAt_succ⟩
  · exact ⟨by simp [State.moveAt_zero], s.moveAt_succ⟩
  · obtain ⟨_, ⟨r, m, k, rfl, _, ⟨_, rfl⟩ | ⟨_, rfl⟩⟩ | ⟨_, ⟨d, rfl, rfl⟩ | ⟨b, hb, rfl⟩ | ⟨x, rfl, _, rfl⟩ |
      ⟨x, rfl, _, rfl⟩⟩⟩ := exec_next_cases he <;>
      exact ⟨by simp [State.moveAt_zero, State.startWrite, State.startInstruction, State.startRead], s.moveAt_succ⟩

/-- How far the environment's next `n` moves take the clock. -/
def State.movesTime (s : State) (n : Nat) : Nat := ((List.range n).map fun k => (s.moveAt k).dt).sum

theorem State.movesTime_succ (s : State) (n : Nat) : s.movesTime (n + 1) = s.movesTime n + (s.moveAt n).dt := by
  simp [State.movesTime, List.range_succ]

/-- A run takes at least the environment's moves. -/
theorem steps_now_ge (n : Nat) {s u : State} (h : steps n s = .next u) : s.env.now + s.movesTime n ≤ u.env.now := by
  induction n generalizing s with
  | zero => cases h; simp [State.movesTime]
  | succ n ih =>
    simp only [steps] at h
    split at h
    · rename_i t hst
      obtain ⟨hnow, hmv⟩ := step_next_moves hst
      have := ih h
      simp only [State.movesTime, List.range_succ_eq_map, List.map_cons, List.sum_cons, List.map_map, hmv] at this ⊢
      simp only [Function.comp_def, Nat.succ_eq_add_one]
      omega
    · cases h
    · cases h

/-- The environment's moves take the clock to every value. -/
theorem State.exists_movesTime_ge (s : State) (t : Nat) : ∃ n, t ≤ s.movesTime n := by
  induction t with
  | zero => exact ⟨0, Nat.zero_le _⟩
  | succ t ih =>
    obtain ⟨n, hn⟩ := ih
    obtain ⟨k, hk, hp⟩ := s.exists_moveAt_pos n
    have mono : s.movesTime n ≤ s.movesTime k := Nat.le_induction (Nat.le_refl _)
      (fun m _ h => h.trans (by rw [State.movesTime_succ]; omega)) k hk
    exact ⟨k + 1, by rw [State.movesTime_succ]; omega⟩

/-- An idle block at whose port nothing is held stays so for any number of steps. -/
theorem steps_idle (n : Nat) {s : State} (hs : s.seq = []) (hh : s.env.host = []) :
    ∃ u, steps n s = .next u ∧ u.seq = [] ∧ u.env.host = [] := by
  induction n generalizing s with
  | zero => exact ⟨s, rfl, hs, hh⟩
  | succ n ih =>
    simp only [steps, step_no_request hs hh]
    exact ih (by simpa using hs) (by simpa using hh)

end Sys2Proof.Machine
end

