-- ==== Sys2Proof/Laws/Decode.lean ====
section
/-! SUPPORT. Laws/Decode.lean: the decoders on the words the encoder makes, family by family. -/

namespace Sys2Proof

@[simp] theorem decodeHostReq_wrd (d : Byte) : decodeHostReq (0b00#2 ++ d) = .wrd d := by revert d; decide
@[simp] theorem decodeHostReq_wri (d : Byte) : decodeHostReq (0b01#2 ++ d) = .wri d := by revert d; decide
@[simp] theorem decodeHostReq_rdd (d : Byte) : decodeHostReq (0b10#2 ++ d) = .rdd d := by revert d; decide
@[simp] theorem decodeHostReq_rds (d : Byte) : decodeHostReq (0b11#2 ++ d) = .rds d := by revert d; decide

@[simp] theorem decodeSetupReq_append (r m : Bool) (k : PinVec) :
    decodeSetupReq (BitVec.ofBool r ++ BitVec.ofBool m ++ k) = .setup r m k := by
  have hk : (BitVec.ofBool r ++ BitVec.ofBool m ++ k).setWidth 11 = k := by
    apply BitVec.eq_of_getLsbD_eq
    intro i hi
    rw [BitVec.getLsbD_setWidth, BitVec.getLsbD_append]
    simp [hi]
  simp only [decodeSetupReq, hk, BitVec.getLsbD_append]
  cases r <;> cases m <;> rfl

/-- The bytes the constructors of an in-range address make (40_command_bytes.md R97, R98). -/
theorem decodeCmdByte_setCgramByte {a : Nat} (h : a ≤ 0x3F) : decodeCmdByte (setCgramByte a) = .setCgram a := by
  interval_cases a <;> rfl

theorem decodeCmdByte_setDdramByte {a : Nat} (h : a ≤ 0x7F) : decodeCmdByte (setDdramByte a) = .setDdram a := by
  interval_cases a <;> rfl

end Sys2Proof
end

