-- ==== Sys2Proof/Laws/PerInstr.lean ====
section
/-! SUPPORT. Laws/PerInstr.lean: per constructor, that the instruction's word has the fixed bits of its row of
spec/opcode_table.json. -/

namespace Sys2Proof.Laws.RowMatch

/-- The word of a well-formed instruction belongs to the instruction's row: its bits under `mask` are `match`. -/
def Statement (i : Instr) : Prop := WellFormed i → i.row.holds (encode i) = true

theorem setup (r m : Bool) (pinOk : PinVec) : Statement (.setup r m pinOk) := fun _ => by
  simp [Instr.row, Row.holds, encode, PortWord.formatBits]
theorem wrd (d : Byte) : Statement (.wrd d) := fun _ => by revert d; decide
theorem wri (d : Byte) : Statement (.wri d) := fun _ => by revert d; decide
theorem rdd (x : Byte) : Statement (.rdd x) := fun _ => by revert x; decide
theorem rds (x : Byte) : Statement (.rds x) := fun _ => by revert x; decide
theorem clear : Statement .clear := fun _ => by decide
theorem home (x : Bool) : Statement (.home x) := fun _ => by revert x; decide
theorem entryMode (inc sh : Bool) : Statement (.entryMode inc sh) := fun _ => by revert inc sh; decide
theorem onOff (d c b : Bool) : Statement (.onOff d c b) := fun _ => by revert d c b; decide
theorem shift (sc rl : Bool) (x : BitVec 2) : Statement (.shift sc rl x) := fun _ => by revert sc rl x; decide
theorem funcSet (l n f : Bool) (x : BitVec 2) : Statement (.funcSet l n f x) := fun _ => by revert l n f x; decide
theorem setCgram (a : Nat) : Statement (.setCgram a) := fun h => by
  have ha : a ≤ 0x3F := of_decide_eq_true h
  interval_cases a <;> decide
theorem setDdram (a : Nat) : Statement (.setDdram a) := fun h => by
  have ha : a ≤ 0x7F := of_decide_eq_true h
  interval_cases a <;> decide
theorem undef00 : Statement .undef00 := fun _ => by decide

end Sys2Proof.Laws.RowMatch
end

