-- ==== Sys2Proof/Laws/Sequencer.lean ====
section
/-! SUPPORT. Laws/Sequencer.lean: which events the event lists hold: those of the operations are operational, those of SETUP end
with its last phase. -/

namespace Sys2Proof.Machine

/-! ## Operations -/

/-- Every event of the loop, of `AwaitReady`, of a write and of a read is operational. -/
theorem operational_pollAgain (p : Params) (readEn w : Bool) : ∀ op ∈ pollAgain p w, op.operational readEn w = true := by
  intro op h
  simp only [pollAgain, poll, dummyCycle, readCycle] at h
  cases w <;> cases hp : p.pollPair4 <;> simp [hp] at h <;> rcases h with h | h | h | h | h | h | h <;> (try subst h) <;>
   first | rfl | (rcases h with h | h | h | h | h <;> subst h <;> rfl)

theorem operational_pollTail (p : Params) (readEn w : Bool) : ∀ op ∈ pollTail p w, op.operational readEn w = true := by
  intro op h
  simp only [pollTail, List.mem_flatten, List.mem_replicate] at h
  obtain ⟨l, ⟨_, rfl⟩, h⟩ := h
  simp [dummyCycle, readCycle] at h
  rcases h with h | h | h | h <;> subst h <;> rfl

theorem operational_busyWait (p : Params) (w : Bool) : ∀ op ∈ busyWait p w, op.operational true w = true := by
  intro op h
  simp only [busyWait, List.mem_append] at h
  rcases h with (((h | h) | h) | h) | h
  · cases w <;> simp [linesIn, activeLines, lines8, lines4] at h <;> revert op <;>
      simp [Micro.operational, Pin.lineAllowed, Pin.isDataLine, Pin.isUpperLine]
  · simp at h; rcases h with h | h <;> subst h <;> rfl
  · exact operational_pollAgain p true w op (by simp [pollAgain, h])
  · exact operational_pollTail p true w op h
  · cases w <;> simp [linesOut, activeLines, lines8, lines4] at h <;> revert op <;>
      simp [Micro.operational, Pin.lineAllowed, Pin.isDataLine, Pin.isUpperLine]

theorem operational_awaitReady (s : State) : ∀ op ∈ s.awaitReady, op.operational s.readEn s.width8 = true := by
  intro op h
  unfold State.awaitReady at h
  split at h
  · rename_i hr
    rw [hr]
    simp only [List.mem_append] at h
    rcases h with h | h
    · simp at h; rcases h with h | h <;> subst h <;> rfl
    · exact operational_busyWait _ _ op h
  · simp at h; subst h; rfl

theorem operational_writeEvents (s : State) : ∀ op ∈ s.writeEvents, op.operational s.readEn s.width8 = true := by
  intro op h
  have ha := operational_awaitReady s op
  cases hw : s.width8 <;> cases hr : s.readEn <;>
    simp [State.writeEvents, State.write8, State.write4, State.writeControls, hw, hr, driven, lines8, lines4, writeCycle,
      recordDeadlineEvents] at h ha ⊢ <;>
    rcases h with h | h <;> (try exact ha h) <;> clear ha <;> revert op <;>
    simp [Micro.operational, Pin.lineAllowed, Pin.isDataLine, Pin.isUpperLine]

theorem operational_readEvents (s : State) (hr : s.readEn = true) :
    ∀ op ∈ s.readEvents, op.operational s.readEn s.width8 = true := by
  intro op h
  have ha := operational_awaitReady s op
  cases hw : s.width8 <;> cases hrs : s.rs <;>
    simp [State.readEvents, State.read8, State.read4, State.readAwait, hw, hr, hrs, linesIn, linesOut, activeLines, lines8,
      lines4, readCycle] at h ha ⊢ <;>
    rcases h with h | h <;> (try exact ha h) <;> clear ha <;> revert op <;>
    simp [Micro.operational, Pin.lineAllowed, Pin.isDataLine, Pin.isUpperLine]

/-- After `Negotiate` the events of an instruction write are operational in the width it leaves. -/
theorem operational_afterNegotiate (s : State) :
    ∀ op ∈ s.negotiate.writeEvents, op.operational s.readEn (nextWidth s.width8 s.wbyte) = true := by
  simpa using operational_writeEvents s.negotiate

/-! ## SETUP -/

/-- A suffix that begins in the first part, or lies in the second. -/
theorem suffix_append {op : Micro} {rest A B : List Micro} (h : op :: rest <:+ A ++ B) :
    (op ∈ A ∧ B <:+ rest) ∨ op :: rest <:+ B := by
  induction A with
  | nil => exact .inr h
  | cons a A ih =>
    rw [List.cons_append, List.suffix_cons_iff] at h
    rcases h with h | h
    · cases h; exact .inl ⟨by simp, List.suffix_append A B⟩
    · exact (ih h).imp (fun h => ⟨by simp [h.1], h.2⟩) id

/-- The events of steps 3 to 5 of SETUP: a write of the record, a pin event or a wait (45_node_lifecycle.md R173 to R177). -/
def Micro.duringSetup (r m : Bool) : Micro → Bool
  | .drive _ _ | .pinMode _ _ | .pullUp _ | .wait _ => true
  | .assign (.readEn x)   => x == r
  | .assign (.mode8En x)  => x == m
  | .assign (.deadline t) => t == 0
  | .assign (.width8 x)   => x == m
  | _ => false

/-- What the next event of a SETUP can be while `installed <- 1` is still to come. -/
theorem setup_suffix {p : Params} {r m : Bool} {op : Micro} {rest : List Micro} (h : op :: rest <:+ setupEvents p r m)
    (hi : .assign (.installed true) ∈ op :: rest) :
    (op.duringSetup r m = true ∧ .assign (.installed true) ∈ rest) ∨
      (op = .assign (.installed true) ∧ rest = setupLast) := by
  unfold setupEvents at h
  rcases suffix_append h with ⟨h, hr⟩ | h
  · have key : ∀ A : List Micro, A.all (Micro.duringSetup r m) = true → op ∈ A → op.duringSetup r m = true :=
      fun A hA ho => List.all_eq_true.1 hA op ho
    refine .inl ⟨?_, hr.subset (by simp)⟩
    cases r <;> cases m <;> exact key _ (by rfl) h
  · rw [List.suffix_cons_iff] at h
    rcases h with h | h
    · cases h; exact .inr ⟨rfl, rfl⟩
    · exact absurd (h.subset hi) (by simp [setupLast])

/-- What the next event of a failing SETUP can be; the error is the last. -/
theorem failed_suffix {bad : PinVec} {op : Micro} {rest : List Micro} (h : op :: rest <:+ failedSetupEvents bad) :
    op = .assign (.setupOk false) ∨ op = .assign (.cause .cfgErr) ∨ op = .assign (.badPins bad) ∨
      (op = .raise .cfgErr bad ∧ rest = []) := by
  simp [failedSetupEvents, List.suffix_cons_iff] at h
  rcases h with h | h | h | h <;> obtain ⟨rfl, rfl⟩ := h <;> simp

/-- What the next event of SETUP's last phase can be; the response is the last. -/
theorem last_suffix {op : Micro} {rest : List Micro} (h : op :: rest <:+ setupLast) :
    op = .assign (.setupOk true) ∨ op = .assign (.cause .none) ∨ op = .assign (.badPins 0) ∨
      (op = .respond ∧ rest = []) := by
  simp [setupLast, List.suffix_cons_iff] at h
  rcases h with h | h | h | h <;> obtain ⟨rfl, rfl⟩ := h <;> simp

/-! ## What they keep -/

/-- An operational event writes no configuration, width, pull-up or `installed` register. -/
theorem Micro.operational_keeps {readEn w : Bool} {op : Micro} (h : op.operational readEn w = true) :
    (∀ y, op.onReadEn y = y) ∧ (∀ y, op.onMode8En y = y) ∧ (∀ b y, op.onWidth8 b y = y) ∧ (∀ y, op.onInstalled y = y) ∧
    ∀ p y, op.onPull p y = y := by
  cases op <;>
    simp_all [Micro.operational, Micro.onReadEn, Micro.onMode8En, Micro.onWidth8, Micro.onInstalled, Micro.onPull]

/-- Everything the next event of a block that keeps the sequencer's invariant can be. -/
theorem SequencerInv.next {s : State} (hi : SequencerInv s) {op : Micro} {rest : List Micro} (hs : s.seq = op :: rest) :
    let bad := failingPins s.setupR s.setupM s.setupPinOk
    (s.installed = false ∧
      ((bad = 0 ∧ rest <:+ setupEvents s.env.params s.setupR s.setupM ∧
          ((op.duringSetup s.setupR s.setupM = true ∧ .assign (.installed true) ∈ rest) ∨
            (op = .assign (.installed true) ∧ rest = setupLast))) ∨
       (bad ≠ 0 ∧ rest <:+ failedSetupEvents bad ∧
          (op = .assign (.setupOk false) ∨ op = .assign (.cause .cfgErr) ∨ op = .assign (.badPins bad) ∨
            (op = .raise .cfgErr bad ∧ rest = []))))) ∨
    (s.installed = true ∧
      ((rest <:+ setupLast ∧ (op = .assign (.setupOk true) ∨ op = .assign (.cause .none) ∨ op = .assign (.badPins 0) ∨
          (op = .respond ∧ rest = []))) ∨
       (op = .negotiate ∧ s.op = 0b01#2 ∧
          ∀ o ∈ rest, o.operational s.readEn (nextWidth s.width8 s.wbyte) = true) ∨
       (op.operational s.readEn s.width8 = true ∧ ∀ o ∈ rest, o.operational s.readEn s.width8 = true))) := by
  intro bad
  cases hin : s.installed with
  | false =>
    refine .inl ⟨rfl, ?_⟩
    have h := hi.beforeSetup hin (by simp [hs])
    rw [hs] at h
    split at h
    · rename_i hb
      exact .inl ⟨hb, (List.suffix_cons op rest).trans h.1, setup_suffix h.1 h.2⟩
    · rename_i hb
      exact .inr ⟨hb, (List.suffix_cons op rest).trans h, failed_suffix h⟩
  | true =>
    refine .inr ⟨rfl, ?_⟩
    rcases hi.afterSetup hin with h | ⟨l, h, hop, hl⟩ | h <;> rw [hs] at h
    · exact .inl ⟨(List.suffix_cons op rest).trans h, last_suffix h⟩
    · cases h; exact .inr (.inl ⟨rfl, hop, hl⟩)
    · exact .inr (.inr ⟨h op (by simp), fun o ho => h o (by simp [ho])⟩)

/-- After an error nothing remains. -/
theorem SequencerInv.raise_last {s : State} (hi : SequencerInv s) {c : Cause} {info : PinVec} {rest : List Micro}
    (hs : s.seq = .raise c info :: rest) : rest = [] := by
  rcases hi.next hs with ⟨_, ⟨_, _, ⟨h, _⟩ | ⟨h, _⟩⟩ | ⟨_, _, h⟩⟩ | ⟨_, ⟨_, h⟩ | ⟨h, _⟩ | ⟨h, _⟩⟩ <;>
    simp_all [Micro.duringSetup, Micro.operational]

end Sys2Proof.Machine
end

