-- ==== Sys2Proof/Laws/Samples.lean ====
section
/-! SUPPORT. Laws/Samples.lean: what a list of events samples, from the levels the environment will put on the pins. -/

namespace Sys2Proof.Machine

/-- The bit of its register a sample goes to (43_bus_decoder.md R143; 30_encoding.md R81). -/
def SampleTo.bitOf : SampleTo → Pin → Nat
  | .v, p  => p.index.val
  | .hi, p => p.index.val - 4
  | .lo, p => p.index.val - 4

/-- The register `dst` after the listed events, the level `level k p` standing on the pin at the `k`-th step. -/
def sampled {n : Nat} (dst : SampleTo) (level : Nat → Pin → Bool) : Nat → List Micro → BitVec n → BitVec n
  | _, [], x => x
  | k, op :: es, x =>
    sampled dst level (k + 1) es (match op with
      | .sample p d => if d = dst then setBit x (dst.bitOf p) (level k p) else x
      | _ => x)

theorem State.event_levelAt (s : State) (op : Micro) (k : Nat) (p : Pin) :
    (s.envMove.event op).levelAt k p = s.levelAt (k + 1) p := by
  simp [State.levelAt, State.moveAt_succ]

theorem State.envMove_inOf (s : State) (p : Pin) : s.envMove.inOf p = s.levelAt 0 p := by
  simp [State.inOf, State.levelAt, ← State.moveAt_zero]

theorem sampled_succ {n : Nat} (dst : SampleTo) (f g : Nat → Pin → Bool) (es : List Micro) (x : BitVec n) (k : Nat)
    (h : ∀ j p, f j p = g (j + 1) p) : sampled dst f k es x = sampled dst g (k + 1) es x := by
  induction es generalizing k x with
  | nil => rfl
  | cons op es ih => simp only [sampled, ih, h]

/-- What is in `v`, `hi` and `lo` after a list of events. -/
theorem State.afterEvents_samples (es : List Micro) (s : State) :
    (s.afterEvents es).v = sampled .v s.levelAt 0 es s.v ∧ (s.afterEvents es).hi = sampled .hi s.levelAt 0 es s.hi ∧
    (s.afterEvents es).lo = sampled .lo s.levelAt 0 es s.lo := by
  induction es generalizing s with
  | nil => exact ⟨rfl, rfl, rfl⟩
  | cons op es ih =>
    have hs : ∀ j p, (s.envMove.event op).levelAt j p = s.levelAt (j + 1) p := s.event_levelAt op
    obtain ⟨h1, h2, h3⟩ := ih (s.envMove.event op)
    rw [State.afterEvents_cons, h1, h2, h3]
    simp only [sampled, sampled_succ _ _ _ _ _ _ hs]
    cases op <;> try (simp [State.event]; done)
    rename_i p d
    cases d <;> simp [State.event, State.sample, SampleTo.bitOf, State.envMove_inOf]

end Sys2Proof.Machine
end

