-- ==== Sys2Proof/Tests/Slice0.lean ====
section
/-! SUPPORT. Tests/Slice0.lean: the model's own tests, with results from spec/95_test_vectors.md, and for every statement with
hypotheses a witness that meets them. -/

namespace Sys2Proof.Tests

open Sys2Proof.Machine

/-! ## Helpers -/

/-- An idle installed block of that configuration and width, as SETUP leaves its pins. -/
def ready (readEn w : Bool) : State :=
  { State.reset with
    installed := true, readEn := readEn, setupR := readEn, mode8En := w, setupM := w, width8 := w,
    dir := Vector.replicate 11 .Out, pull := Vector.replicate 11 .Up }

/-- The same, the environment's moves given. -/
def scripted (s : State) (moves : List EnvMove) : State := { s with env := { s.env with script := moves } }

/-- The same, those requests held at the port. -/
def asked (s : State) (qs : List HostRequest) : State := { s with env := { s.env with host := qs } }

/-- A move that takes no time and shows the byte on D7 to D0. -/
def shows (b : Nat) : EnvMove := ⟨0, BitVec.ofNat 11 b⟩

def nextOf : Host.Outcome State Fault Refusal → Option State
  | .next t => some t
  | _ => none

def refusalOf : Host.Outcome State Fault Refusal → Option Refusal
  | .refused r => some r
  | _ => none

/-! ## WellFormed refuses ill-formed terms (40_command_bytes.md R97, R98) -/

theorem test_wellFormed_setCgram_out_of_range : ¬WellFormed (.setCgram 0x40) := by decide
theorem test_wellFormed_setDdram_out_of_range : ¬WellFormed (.setDdram 0x80) := by decide
theorem test_wellFormed_in_range : WellFormed (.setCgram 0x3F) ∧ WellFormed (.setDdram 0x7F) ∧ WellFormed .undef00 := by
  decide

/-! ## Decoding: a word per constructor, written from 30_encoding.md R70 to R73 and 95_test_vectors.md 2.2, 2.3, 2.9 -/

theorem test_decode_setup : decode .setupreq 0b1_0_10110111101 = .ok (.setup true false 0b10110111101#11) := by decide
theorem test_decode_wrd : decode .hostreq 0b0_0_01001000 = .ok (.wrd 0x48#8) := by decide
theorem test_decode_wri : decode .hostreq 0b0_1_00111000 = .ok (.wri 0x38#8) := by decide
theorem test_decode_rdd : decode .hostreq 0b1_0_10100111 = .ok (.rdd 0xA7#8) := by decide
theorem test_decode_rds : decode .hostreq 0b1_1_11111111 = .ok (.rds 0xFF#8) := by decide
theorem test_decode_clear : decode .cmdbyte 0b00000001 = .ok .clear := by decide
theorem test_decode_home : decode .cmdbyte 0b00000010 = .ok (.home false) := by decide
theorem test_decode_entryMode : decode .cmdbyte 0b00000110 = .ok (.entryMode true false) := by decide
theorem test_decode_onOff : decode .cmdbyte 0b00001100 = .ok (.onOff true false false) := by decide
theorem test_decode_shift : decode .cmdbyte 0b00011000 = .ok (.shift true false 0#2) := by decide
theorem test_decode_funcSet : decode .cmdbyte 0b00111000 = .ok (.funcSet true true false 0#2) := by decide
theorem test_decode_setCgram : decode .cmdbyte 0b01001000 = .ok (.setCgram 8) := by decide
theorem test_decode_setDdram : decode .cmdbyte 0b11000000 = .ok (.setDdram 0x40) := by decide
theorem test_decode_undef00 : decode .cmdbyte 0b00000000 = .ok .undef00 := by decide
theorem test_decode_too_wide : decode .setupreq 0x2000 = .error (.tooWide .setupreq) := by decide
theorem test_table_word_sixteen_bits :
    decodeTableWord 16 0x0138 = some (.wri 0x38#8) ∧ decodeTableWord 16 0x17FF = some (.setup true false 0x7FF#11) := by
  decide

/-! ## Predicates and Negotiate (95_test_vectors.md 2.1, 2.4) -/

theorem test_delay_class :
    selectDelayClass Params.default true 0x01#8 = 41000 ∧ selectDelayClass Params.default false 0x03#8 = 1520000 ∧
    selectDelayClass Params.default false 0x04#8 = 37000 ∧ selectDelayClass Params.default false 0xC3#8 = 1520000 := by
  decide
theorem test_negotiate :
    nextWidth false 0x30#8 = true ∧ nextWidth true 0x2F#8 = false ∧ nextWidth false 0x13#8 = false ∧
    nextWidth true 0xB2#8 = true := by
  decide

/-! ## The instructions, one step each -/

/-- TV50: only the used pins, and the priming cycle. -/
theorem test_setup_four_bit : (nextOf (exec (.setup false false 0x7FF#11) State.reset)).map (·.seq.drop 16) =
    some [.pullUp .D6, .pinMode .D6 .Out, .drive .D6 false, .pullUp .D7, .pinMode .D7 .Out, .drive .D7 false,
      .drive .E true, .drive .D5 true, .wait 300, .drive .E false, .wait 300, .wait 37000,
      .assign (.installed true), .assign (.setupOk true), .assign (.cause .none), .assign (.badPins 0), .respond] := by
  decide

/-- TV54: D1 is not used, RW and D6 are reported, and only status registers are written; TV64: no second SETUP. -/
theorem test_setup_bad_pins_and_again :
    (nextOf (exec (.setup true false 0x5BD#11) State.reset)).map (·.seq) =
      some [.assign (.setupOk false), .assign (.cause .cfgErr), .assign (.badPins 0x240#11), .raise .cfgErr 0x240#11] ∧
    refusalOf (exec (.setup true true 0x7FF#11) (ready true true)) = some .alreadyInstalled := by
  decide

/-- TV54, the entry itself (60_exceptions.md R211). -/
theorem test_raise :
    (nextOf (step (State.reset.start [.raise .cfgErr 0x240#11]))).map
      (fun t => (t.setupOk, t.cause, t.badPins, t.installed, t.seq)) = some (false, 1#2, 0x240#11, false, []) := by
  decide

/-- TV24. -/
theorem test_wrd_four_bit : (nextOf (exec (.wrd 0xA5#8) (ready false false))).map (·.seq) =
    some [.waitUntil 0, .drive .RS true, .drive .E true, .drive .D4 false, .drive .D5 true, .drive .D6 false,
      .drive .D7 true, .wait 300, .drive .E false, .wait 300, .drive .E true, .drive .D4 true, .drive .D5 false,
      .drive .D6 true, .drive .D7 false, .wait 300, .drive .E false, .wait 300, .clockRead, .recordDeadline, .respond] := by
  decide

/-- TV60. -/
theorem test_wrd_not_installed : refusalOf (exec (.wrd 0x41#8) State.reset) = some .notInstalled := by decide

/-- TV21, from 4-bit width: `Negotiate` is the first event, and the byte goes out in the width it asks for
(44_mode_negotiator.md R162). -/
theorem test_wri_new_width : (nextOf (exec (.wri 0x38#8) (ready false false))).map (fun t => (t.width8, t.seq)) =
    some (false, [.negotiate, .waitUntil 0, .drive .RS false, .drive .E true, .drive .D0 false, .drive .D1 false, .drive .D2 false,
      .drive .D3 true, .drive .D4 true, .drive .D5 true, .drive .D6 false, .drive .D7 false, .wait 300, .drive .E false,
      .wait 300, .clockRead, .recordDeadline, .respond]) := by
  decide

/-- 44_mode_negotiator.md R161: the step of `Negotiate`, and what it keeps. -/
theorem test_negotiate_step :
    (nextOf (step { ready false false with seq := [.negotiate, .respond], wbyte := 0x38#8 })).map
      (fun t => (t.width8, t.mode8En, t.seq)) = some (true, false, [.respond]) := by
  decide

/-- TV63. -/
theorem test_wri_busy : refusalOf (exec (.wri 0x01#8) ((ready false false).start [.respond])) = some .busy := by decide

/-- TV48: `AwaitReady` first. -/
theorem test_rdd_waits : (nextOf (exec (.rdd 0#8) (ready true false))).map (·.seq.take 9) =
    some [.clockRead, .awaitTest, .pinMode .D4 .In, .pinMode .D5 .In, .pinMode .D6 .In, .pinMode .D7 .In,
      .drive .RS false, .drive .RW true, .drive .E true] := by
  decide

/-- TV62. -/
theorem test_rdd_without_capability : refusalOf (exec (.rdd 0#8) (ready false false)) = some .readWithoutCapability := by
  decide

/-- TV47: no waiting, two cycles, the most significant line first. -/
theorem test_rds_four_bit : (nextOf (exec (.rds 0#8) (ready true false))).map (·.seq) =
    some [.pinMode .D4 .In, .pinMode .D5 .In, .pinMode .D6 .In, .pinMode .D7 .In, .drive .RS false, .drive .RW true,
      .drive .E true, .wait 300, .sample .D7 .hi, .sample .D6 .hi, .sample .D5 .hi, .sample .D4 .hi, .drive .E false,
      .wait 300, .drive .E true, .wait 300, .sample .D7 .lo, .sample .D6 .lo, .sample .D5 .lo, .sample .D4 .lo,
      .drive .E false, .wait 300, .pinMode .D4 .Out, .pinMode .D5 .Out, .pinMode .D6 .Out, .pinMode .D7 .Out,
      .rbyteFromNibbles, .respond] := by
  decide

/-- TV61. -/
theorem test_rds_without_capability : refusalOf (exec (.rds 0#8) (ready false true)) = some .readWithoutCapability := by
  decide

/-- The bytes of 95_test_vectors.md 2.2, and what `Negotiate`, the first event, does to a block in 8-bit width (R161). -/
def sent (i : Instr) : Option (BitVec 2 × Byte × Bool × Bool) :=
  (nextOf (exec i (ready false true))).bind fun t => (nextOf (step t)).map fun u => (u.op, u.wbyte, u.rs, u.width8)

theorem test_clear : sent .clear = some (1#2, 0x01#8, false, true) := by decide
theorem test_home : sent (.home false) = some (1#2, 0x02#8, false, true) := by decide
theorem test_entryMode : sent (.entryMode true true) = some (1#2, 0x07#8, false, true) := by decide
theorem test_onOff : sent (.onOff true false true) = some (1#2, 0x0D#8, false, true) := by decide
theorem test_shift : sent (.shift true false 0#2) = some (1#2, 0x18#8, false, true) := by decide
theorem test_funcSet : sent (.funcSet false true false 0#2) = some (1#2, 0x28#8, false, false) := by decide
theorem test_setCgram : sent (.setCgram 0x3F) = some (1#2, 0x7F#8, false, true) := by decide
theorem test_setCgram_out_of_range : refusalOf (exec (.setCgram 0x40) (ready false true)) = some .constructorArgument := by
  decide
theorem test_setDdram : sent (.setDdram 0x40) = some (1#2, 0xC0#8, false, true) := by decide
theorem test_setDdram_out_of_range : refusalOf (exec (.setDdram 0x80) (ready false true)) = some .constructorArgument := by
  decide
theorem test_undef00 : sent .undef00 = some (1#2, 0x00#8, false, true) := by decide

/-- TV27: the class of the whole byte, RS deasserted. -/
theorem test_recordDeadline_long :
    (nextOf (step { ready false false with seq := [.recordDeadline], tnow := 2200, wbyte := 0x01#8 })).map (·.deadline) =
      some 1522200 := by
  decide

/-- TV33 and TV34: strictly more than the threshold. -/
theorem test_awaitTest_threshold :
    (nextOf (step { ready true true with seq := [.awaitTest], tnow := 1000, deadline := 101001 })).map (·.seq) =
      some [.waitUntil 101001] ∧
    (nextOf (step { ready true true with seq := [.awaitTest], tnow := 1000, deadline := 101000 })).map (·.seq) =
      some [] := by
  decide

/-- TV41: a poll that read 1 is followed by the next poll. -/
theorem test_loopTest_busy :
    (nextOf (step { ready true true with seq := [.loopTest], bf := true })).map (·.seq) =
      some [.drive .E true, .wait 300, .sample .D7 .v, .drive .E false, .wait 300, .updateBf, .loopTest] := by
  decide

/-- A request placed where the next step takes its word from runs (46_host_operations.md R190). -/
theorem test_step_runs_the_word :
    (nextOf (step ((ready false false).withFetchWord 16 0x0048))).map (fun t => (t.wbyte, t.rs)) =
      some (0x48#8, true) := by
  decide

/-- A write to address 65 is WRI, to address 66 nothing (20_memory.md R50, R58). -/
theorem test_host_addresses :
    fetched Params.default (.write 65 0x138) = some (.wri 0x38#8) ∧ fetched Params.default (.write 66 0x38) = none := by
  decide

/-! ## Witnesses -/

theorem witness_DecodeAndEncodeAgree : WellFormed (.setCgram 0x3F) ∧ WellFormed (.setDdram 0x7F) := by decide

theorem witness_HostAccessMap :
    let s := asked (ready false false) [.write 66 5, .read 63]
    s.seq = [] ∧ 66 ≠ s.env.params.base ∧ 66 ≠ s.env.params.base + 1 ∧ s.env.host = .write 66 5 :: [.read 63] ∧
    63 ≠ s.env.params.base ∧ 63 ≠ s.env.params.base + 1 := by decide

theorem witness_DelayClassRule : (0x43#8).toNat % 64 ≤ 3 ∧ 3 < (0x44#8).toNat % 64 := by decide

theorem witness_NegotiateTransitions : (ready false false).width8 = false ∧ (ready false true).width8 = true := by decide

theorem witness_NegotiateIdempotent :
    (0x2F#8).toNat / 16 = 2 ∧ (0x30#8).toNat / 16 = 3 ∧ (0x1F#8).toNat / 16 ≠ 2 ∧ (0x1F#8).toNat / 16 ≠ 3 := by decide

/-- Every range of the statement at both its ends. -/
theorem witness_TreatmentOfEveryByte :
    decodeCmdByte 0x02#8 = .home false ∧ decodeCmdByte 0x03#8 = .home true ∧
    decodeCmdByte 0x04#8 = .entryMode false false ∧ decodeCmdByte 0x07#8 = .entryMode true true ∧
    decodeCmdByte 0x08#8 = .onOff false false false ∧ decodeCmdByte 0x0F#8 = .onOff true true true ∧
    decodeCmdByte 0x10#8 = .shift false false 0#2 ∧ decodeCmdByte 0x1F#8 = .shift true true 3#2 ∧
    decodeCmdByte 0x20#8 = .funcSet false false false 0#2 ∧ decodeCmdByte 0x2F#8 = .funcSet false true true 3#2 ∧
    decodeCmdByte 0x30#8 = .funcSet true false false 0#2 ∧ decodeCmdByte 0x3F#8 = .funcSet true true true 3#2 ∧
    decodeCmdByte 0x40#8 = .setCgram 0 ∧ decodeCmdByte 0x7F#8 = .setCgram 0x3F ∧
    decodeCmdByte 0x80#8 = .setDdram 0 ∧ decodeCmdByte 0xFF#8 = .setDdram 0x7F := by decide

theorem witness_ConstructorBytes :
    constructSetCGRAM 0x3F = some 0x7F#8 ∧ constructSetCGRAM 0x40 = none ∧ constructSetDDRAM 0x7F = some 0xFF#8 ∧
    constructSetDDRAM 0x80 = none := by decide

theorem witness_StepRunsTheDecodedInstruction :
    let s := asked (ready false false) [.port (.cmdbyte 0x28#8)]
    s.seq = [] ∧ s.env.host = .port (.cmdbyte 0x28#8) :: [] ∧
    fetched s.env.params (.port (.cmdbyte 0x28#8)) = some (.funcSet false true false 0#2) ∧
    decodeTableWord 8 0x28 = some (.funcSet false true false 0#2) := by decide

theorem witness_BusyStepIssuesTheNextEvent : ((ready false false).start [.drive .E true]).seq = .drive .E true :: [] := rfl

theorem witness_IdleBlockWaits : State.reset.seq = [] ∧ State.reset.env.host = [] := by decide

theorem witness_RequestsAreTakenInOrder :
    ∃ t, step (asked State.reset [.read 7, .read 64]) = .next t ∧ t.env.host = [.read 64] := ⟨_, rfl, rfl⟩

theorem witness_ClockIsMonotone : ∃ t, step ((ready false false).start [.wait 300]) = .next t := ⟨_, rfl⟩

theorem witness_ClockIsUnbounded :
    State.reset.seq = [] ∧ State.reset.env.host = [] ∧ ∀ n, ∃ u, steps n State.reset = .next u :=
  ⟨rfl, rfl, fun n => (steps_idle n rfl rfl).imp fun _ h => h.1⟩

/-- 41_deadline_tracker.md R110: where the clock may stand still for two moves, it goes on in the third. -/
theorem test_fair_clock :
    (List.range 6).map (fun n => (fairMove (fun _ => 2) (fun _ => ⟨0, 0⟩) n).dt) = [0, 0, 1, 0, 0, 1] := by decide

theorem witness_WaitsAreLowerBounds :
    ((ready false false).start [.wait 300]).seq = .wait 300 :: [] ∧
    ((ready false false).start [.waitUntil 0]).seq = .waitUntil 0 :: [] ∧
    0 ≤ ((ready false false).start [.waitUntil 0]).env.now := by decide

theorem witness_PinEventsAreLocal :
    Pin.D0.isDataLine = true ∧ Pin.D7.isDataLine = true ∧ 7 < 8 ∧ Pin.D4.lineAllowed false = true ∧
    Pin.D7.lineAllowed false = true ∧ 3 < 4 := by decide

/-- 30_encoding.md R81: D7 and D4 are bits 3 and 0 of a nibble. -/
theorem test_sample_nibble :
    let s := scripted ((ready true false).start [.sample .D7 .hi, .sample .D4 .lo]) [shows 0x80, shows 0x10]
    (nextOf (steps 2 s)).map (fun t => (t.hi, t.lo, t.v)) = some (8#4, 1#4, 0#8) := by decide

theorem witness_PinLevelFollowsTheDirection :
    (ready false false).dirOf .D0 = .Out ∧ State.reset.dirOf .D0 = .In := by decide

theorem witness_MemoryWriteStarts : (ready false false).Ready ∧ (ready true true).Ready := by decide

theorem witness_InstructionWriteStarts :
    instructionByte (.setDdram 0x7F) = some 0xFF#8 ∧ WellFormed (.setDdram 0x7F) ∧ (ready false false).Ready := by decide

theorem witness_ReadStarts : (ready true false).Ready ∧ (ready true false).readEn = true := by decide

theorem witness_SetupStarts :
    State.reset.seq = [] ∧ State.reset.installed = false ∧
    ∀ p : Pin, p.used false true = true → (0x3FF#11 ||| 0x400#11).getLsbD p.index.val = true := by
  refine ⟨rfl, rfl, fun p => ?_⟩
  cases p <;> decide

theorem witness_ClassesAreInstructionWrites : 0x3F ≤ 0x3F ∧ 0x3F < 0x40 ∧ 0x7F ≤ 0x7F ∧ 0x7F < 0x80 := by decide

theorem witness_RequestsNotServed :
    ((ready true true).start [.respond]).seq ≠ [] ∧ WellFormed (.wrd 0#8) ∧ (∀ r m k, Instr.wrd 0#8 ≠ .setup r m k) ∧
    State.reset.seq = [] ∧ State.reset.installed = false ∧ (ready false true).Ready ∧ (ready false true).readEn = false := by
  refine ⟨by decide, by decide, ?_, by decide⟩
  intro r m k h
  cases h

theorem witness_BlindMemoryWriteCompletes : (ready false false).Ready ∧ (ready false false).readEn = false := by decide

theorem witness_BlindInstructionWriteCompletes :
    instructionByte (.funcSet true true false 0#2) = some 0x38#8 ∧ WellFormed (.funcSet true true false 0#2) ∧
    (ready false false).Ready ∧ (ready false false).readEn = false ∧ (ready false false).drives .E = some false := by
  decide

/-- A ready block whose environment shows "not busy" for 60 steps, without a blind-sleep and with one. -/
theorem witness_PolledMemoryWriteCompletes :
    let s := scripted (ready true false) (List.replicate 60 (shows 0))
    let t := (s.latchWrite 0#2 0x41#8).startWrite
    let t' := ({ s with deadline := 100001 }.latchWrite 0#2 0x41#8).startWrite
    s.Ready ∧ s.readEn = true ∧ exec (.wrd 0x41#8) s = .next t ∧ Expected.sleeps t = false ∧
    t.levelAt 10 .D7 = false ∧ Expected.sleeps t' = true ∧ t'.levelAt 11 .D7 = false := by
  refine ⟨by decide, rfl, rfl, by decide, by decide, by decide, by decide⟩

theorem witness_PolledInstructionWriteCompletes :
    let s := scripted (ready true true) (List.replicate 60 (shows 0))
    let t := (s.latchWrite 1#2 0x01#8).startInstruction
    ∃ t₁, instructionByte .clear = some 0x01#8 ∧ WellFormed .clear ∧ s.Ready ∧ s.readEn = true ∧
      exec .clear s = .next t ∧ Expected.NegotiateStep s t t₁ 0x01#8 ∧ Expected.sleeps t₁ = false ∧
      t₁.levelAt 14 .D7 = false := by
  exact ⟨_, rfl, by decide, by decide, rfl, rfl, ⟨rfl, rfl, rfl, rfl, rfl⟩, by decide, by decide⟩

theorem witness_StatusReadCompletes :
    let s := scripted (ready true true) (List.replicate 40 (shows 0x85))
    s.Ready ∧ s.readEn = true ∧ s.drives .E = some false ∧ s.idealClock 32 := by
  refine ⟨by decide, rfl, by decide, ?_⟩
  unfold State.idealClock
  decide

theorem witness_MemoryReadCompletes :
    let s := scripted (ready true true) (List.replicate 60 (shows 0x41))
    let t := (s.latchRead 2#2).startRead
    s.Ready ∧ s.readEn = true ∧ s.drives .E = some false ∧ exec (.rdd 0#8) s = .next t ∧ Expected.sleeps t = false ∧
    t.levelAt 14 .D7 = false := by
  refine ⟨by decide, rfl, by decide, rfl, by decide, by decide⟩

theorem witness_SetupCompletes :
    let s := scripted State.reset (List.replicate 60 (shows 0))
    s.seq = [] ∧ s.installed = false ∧ s.outOf .E = false ∧ s.idealClock 42 ∧
    (∀ p : Pin, p.used true true = true → (0x7FF#11).getLsbD p.index.val = true) ∧
    (∀ p : Pin, p.used false false = true → (0x5F0#11).getLsbD p.index.val = true) := by
  refine ⟨rfl, rfl, by decide, ?_, fun p => ?_, fun p => ?_⟩
  · unfold State.idealClock
    decide
  all_goals cases p <;> decide

theorem witness_FailedSetupKeepsPinsAndRecord :
    State.reset.seq = [] ∧ State.reset.installed = false ∧
    ∃ p : Pin, p.used true false = true ∧ (0x5BD#11).getLsbD p.index.val = false := ⟨rfl, rfl, .RW, by decide⟩

theorem witness_ConfigErrorReportsEveryPin :
    State.reset.seq = [] ∧ State.reset.installed = false ∧
    ∃ p : Pin, p.used false true = true ∧ (0x7FE#11).getLsbD p.index.val = false := ⟨rfl, rfl, .D0, by decide⟩

theorem witness_SetupLeavesUnusedPinsAlone :
    State.reset.seq = [] ∧ State.reset.installed = false ∧
    (∀ p : Pin, p.used false false = true → (0x5F0#11).getLsbD p.index.val = true) ∧
    ∃ t u, exec (.setup false false 0x5F0#11) State.reset = .next t ∧ 1 ≤ t.seq.length ∧ steps 1 t = .next u := by
  refine ⟨rfl, rfl, fun p => ?_, _, _, rfl, by decide, rfl⟩
  cases p <;> decide

/-- The last phase of a SETUP, and the first step of one whose pins fail. -/
theorem witness_StatusIsWrittenBySetupOnly :
    (∃ t, SequencerInv ((ready false false).start setupLast) ∧ step ((ready false false).start setupLast) = .next t ∧
      t.setupOk ≠ ((ready false false).start setupLast).setupOk) ∧
    let f := { State.reset with setupR := true, seq := failedSetupEvents 0x7F0#11, setupOk := true }
    ∃ t, SequencerInv { f with setupPinOk := 0x00F#11 } ∧ step { f with setupPinOk := 0x00F#11 } = .next t ∧
      t.setupOk ≠ true :=
  ⟨⟨_, ⟨fun h => (by cases h), fun _ => .inl (List.suffix_refl _)⟩, rfl, by decide⟩,
    ⟨_, ⟨fun _ _ => List.suffix_refl _, fun h => (by cases h)⟩, rfl, by decide⟩⟩

theorem reset_sequencer : SequencerInv State.reset :=
  ⟨fun _ h => absurd rfl h, fun h => (by cases h)⟩

theorem witness_ReservedCausesNeverAppear :
    SequencerInv State.reset ∧ State.reset.cause = 0 ∧ ∃ t, step State.reset = .next t :=
  ⟨reset_sequencer, rfl, _, rfl⟩

theorem witness_RecordDeadlineOverwrites :
    ((ready false true).start [.clockRead, .recordDeadline, .respond]).seq = .clockRead :: .recordDeadline :: [.respond] := rfl

theorem witness_BlindSleepAboveThreshold :
    ((ready true true).start [.awaitTest, .respond]).seq = .awaitTest :: [.respond] := rfl

/-- One poll reads 1, the next 0. -/
theorem witness_BusyWaitCycleCount :
    let s := scripted ((ready true false).start (busyWait Params.default false ++ [.respond]))
      (List.replicate 10 (shows 0x80) ++ List.replicate 40 (shows 0))
    s.seq = busyWait s.env.params s.width8 ++ [.respond] ∧ s.drives .E = some false ∧
    s.levelAt (6 + 0 * 7 + 2) .D7 = true ∧ s.levelAt (6 + 1 * 7 + 2) .D7 = false := by
  refine ⟨rfl, by decide, by decide, by decide⟩

theorem witness_StuckBusyFlagNeverEnds :
    let s := scripted ((ready true true).start (busyWait Params.default true ++ [.respond])) (List.replicate 30 (shows 0x80))
    s.seq = busyWait s.env.params s.width8 ++ [.respond] ∧
    ∀ j, 8 + 2 + j * (7 + 4 * 0) + 2 < 30 → s.levelAt (8 + 2 + j * (7 + 4 * 0) + 2) .D7 = true := by
  refine ⟨rfl, fun j hj => ?_⟩
  have : j < 3 := by omega
  interval_cases j <;> decide

theorem witness_WritesPutTheByteOnTheWire :
    (ready false true).Ready ∧ (ready false true).readEn = false ∧ (ready false true).drives .E = some false ∧
    instructionByte (.setCgram 0) = some 0x40#8 ∧ WellFormed (.setCgram 0) := by decide

/-- With `READ_EN` = 1: a display that is ready at the first poll. -/
theorem witness_WritesPutTheByteOnTheWire_polled :
    let s := scripted (ready true false) (List.replicate 80 (shows 0))
    ∃ t₁, s.Ready ∧ s.readEn = true ∧ s.drives .E = some false ∧ instructionByte .clear = some 0x01#8 ∧
      WellFormed .clear ∧ exec .clear s = .next (s.latchWrite 1#2 0x01#8).startInstruction ∧
      steps 1 (s.latchWrite 1#2 0x01#8).startInstruction = .next t₁ ∧
      t₁.levelAt (10 + (Expected.sleeps t₁).toNat) .D7 = false := by
  exact ⟨_, by decide, rfl, by decide, rfl, by decide, rfl, rfl, by decide⟩

/-- RS and D7 to D0 of a commit, most significant line first. -/
def levels (c : Pin → Option Bool) : List (Option Bool) := (.RS :: lines8.reverse).map c

/-- TV24's two nibbles of 0xA5, and a bus that presents them. -/
theorem witness_RoundTripLaw :
    let p := Params.default
    let es := writeCycle p (driven lines4 (hiNibble 0xA5#8)) ++ writeCycle p (driven lines4 (loNibble 0xA5#8))
    let fs := readCycle p lines4.reverse .hi ++ readCycle p lines4.reverse .lo ++ linesOut false ++ [.rbyteFromNibbles]
    let s := (ready true false).start es
    let r := scripted ((ready true true).start fs) (List.replicate 8 (shows 0xA5) ++ List.replicate 8 (shows 0x50))
    s.seq = es ++ [] ∧ r.seq = fs ++ [] ∧ ∃ x₁ x₂, commits es.length s = [x₁, x₂] ∧
    (∀ j, j < 4 → x₁ (lines4.reverse.getD j .D7) = some (r.levelAt (2 + j) (lines4.reverse.getD j .D7))) ∧
    (∀ j, j < 4 → x₂ (lines4.reverse.getD j .D7) = some (r.levelAt (10 + j) (lines4.reverse.getD j .D7))) := by
  exact ⟨rfl, rfl, _, _, rfl, by decide, by decide⟩

theorem witness_RoundTripLaw_eight_bit :
    let p := Params.default
    let es := writeCycle p (driven lines8 0xA5#8)
    let fs := readCycle p lines8.reverse .v ++ linesOut true ++ [.rbyteFromLines]
    let s := (ready true true).start es
    let r := scripted ((ready true true).start fs) (List.replicate 10 (shows 0xA5))
    s.seq = es ++ [] ∧ r.seq = fs ++ [] ∧ ∃ x, commits es.length s = [x] ∧
    (∀ j, j < 8 → x (lines8.reverse.getD j .D7) = some (r.levelAt (2 + j) (lines8.reverse.getD j .D7))) := by
  exact ⟨rfl, rfl, _, rfl, by decide⟩

/-- 10_state.md R23: a poll's falling edge carries nothing of the block's on lines that are inputs, whatever their latches. -/
theorem test_poll_commits_nothing :
    let s := (ready true false).start [.pinMode .D7 .In, .drive .E true, .drive .E false]
    (commits 3 { s with out := Vector.replicate 11 true }).map levels =
      [[some true, none, some true, some true, some true, some true, some true, some true, some true]] := by decide

/-- An installed block whose sequencer holds events of operations keeps the sequencer's invariant. -/
theorem operating {s : State} (h : s.installed = true)
    (hl : ∀ op ∈ s.seq, op.operational s.readEn s.width8 = true) : SequencerInv s :=
  ⟨fun hf => (by simp_all), fun _ => .inr (.inr hl)⟩

theorem witness_StepKeepsSequencerInv :
    SequencerInv ((ready false false).start [.drive .RS true, .respond]) ∧
    ∃ t, step ((ready false false).start [.drive .RS true, .respond]) = .next t :=
  ⟨operating rfl (by decide), _, rfl⟩

theorem witness_ready_settled (readEn w : Bool) : SettledInv (ready readEn w) :=
  ⟨fun _ => by cases readEn <;> cases w <;> decide, fun _ p _ => by cases p <;> rfl, fun _ p _ => by cases p <;> rfl,
    fun _ => rfl, fun _ => rfl⟩

theorem witness_StepKeepsSettledInv :
    SequencerInv (ready true false) ∧ SettledInv (ready true false) ∧ ∃ t, step (ready true false) = .next t :=
  ⟨operating rfl (by decide), witness_ready_settled true false, _, rfl⟩

theorem witness_IdleBlockIsSettled :
    ∃ u, SequencerInv (ready true false) ∧ SettledInv (ready true false) ∧ steps 1 (ready true false) = .next u ∧
      u.Ready :=
  ⟨_, operating rfl (by decide), witness_ready_settled true false, rfl, rfl, rfl⟩

theorem witness_ConfigurationIsSetOnce :
    let s := (ready true true).start [.pinMode .D0 .In, .respond]
    SequencerInv s ∧ s.installed = true ∧ ∃ t, step s = .next t :=
  ⟨operating rfl (by decide), rfl, _, rfl⟩

theorem witness_ReadWritePinUntouched :
    let s := (ready false true).start [.drive .D0 true, .respond]
    SequencerInv s ∧ s.installed = true ∧ s.readEn = false ∧ ∃ t, step s = .next t :=
  ⟨operating rfl (by decide), rfl, rfl, _, rfl⟩

theorem witness_UpperLinesUntouchedInFourBit :
    let s := (ready false false).start [.drive .D4 true, .respond]
    SequencerInv s ∧ s.installed = true ∧ s.width8 = false ∧ (∃ t, step s = .next t) ∧ Pin.D0.isUpperLine = true ∧
    Pin.D3.isUpperLine = true :=
  ⟨operating rfl (by decide), rfl, rfl, ⟨_, rfl⟩, rfl, rfl⟩

/-- SETUP's assignment, and `Negotiate` to 8-bit and to 4-bit width. -/
theorem witness_WidthChangesOnlyByFunctionSet :
    (let s := { State.reset with
        setupM := true, setupPinOk := 0x7FF#11, seq := (setupEvents Params.default false true).drop 3 }
      ∃ t, SequencerInv s ∧ step s = .next t ∧ t.width8 ≠ s.width8) ∧
    (let s := { ready false false with op := 1#2, wbyte := 0x30#8, seq := [.negotiate, .respond] }
      ∃ t, SequencerInv s ∧ step s = .next t ∧ t.width8 ≠ s.width8) ∧
    let s := { ready false true with op := 1#2, wbyte := 0x2F#8, seq := [.negotiate, .respond] }
    ∃ t, SequencerInv s ∧ step s = .next t ∧ t.width8 ≠ s.width8 :=
  ⟨⟨_, ⟨fun _ _ => by rw [if_pos (by decide)]; exact ⟨List.drop_suffix 3 _, by decide⟩, fun h => (by cases h)⟩, rfl,
      by decide⟩,
    ⟨_, ⟨fun h => (by cases h), fun _ => .inr (.inl ⟨_, rfl, rfl, by decide⟩)⟩, rfl, by decide⟩,
    ⟨_, ⟨fun h => (by cases h), fun _ => .inr (.inl ⟨_, rfl, rfl, by decide⟩)⟩, rfl, by decide⟩⟩

theorem witness_DeadlineIsWrittenByRecordDeadlineOnly :
    let s := { ready false false with tnow := 5 }.start [.recordDeadline, .respond]
    SequencerInv s ∧ s.installed = true ∧ ∃ t, step s = .next t ∧ t.deadline ≠ s.deadline :=
  ⟨operating rfl (by decide), rfl, _, rfl, by decide⟩

theorem witness_DeadlineStaysWithinTheLongClass :
    let s := (ready false false).start [.recordDeadline, .respond]
    SequencerInv s ∧ ClassesOrdered s.env.params ∧ DeadlineInv s ∧ ∃ t, step s = .next t :=
  ⟨operating rfl (by decide), by unfold ClassesOrdered; decide, by unfold DeadlineInv; decide, _, rfl⟩

theorem witness_WidthStaysWithinTheCapability :
    let s := asked (ready false false) [.port (.cmdbyte 0x28#8)]
    SequencerInv s ∧ WidthInv s ∧ HostObeysR252 s ∧ ∃ t, step s = .next t := by
  refine ⟨operating rfl (by decide), fun _ h => (by cases h), ?_, _, rfl⟩
  intro _ q hq i b hi hb
  cases List.mem_singleton.1 hq
  cases hi
  cases hb
  rfl

end Sys2Proof.Tests
end

section
/-! Proofs about the deadline tracker (41_deadline_tracker.md): the two registers of a deadline through an event, and the
bound on a blind-sleep. -/

namespace Sys2Proof.Machine

/-! ## What writes `deadline` and `tnow` -/

/-- `deadline` is written by SETUP's constant and by `RecordDeadline` (41_deadline_tracker.md R115). -/
theorem State.event_deadline (s : State) (op : Micro) :
    (s.event op).deadline = match op with
      | .assign (.deadline t) => t
      | .recordDeadline => s.tnow + selectDelayClass s.env.params s.rs s.wbyte
      | _ => s.deadline := by
  cases op with
  | assign a => cases a <;> rfl
  | _ => simp [State.event]

/-- `tnow` is written by a clock read (41_deadline_tracker.md R110). -/
theorem State.event_tnow (s : State) (op : Micro) :
    (s.event op).tnow = match op with
      | .clockRead => s.env.now
      | _ => s.tnow := by
  cases op <;> simp [State.event]

/-- Accepting an instruction changes neither the deadline tracker nor anything of the environment. -/
theorem exec_keeps_tracker {i : Instr} {s t : State} (h : exec i s = .next t) :
    t.tnow = s.tnow ∧ t.deadline = s.deadline ∧ t.env = s.env := by
  obtain ⟨_, ⟨r, m, k, _, _, ⟨_, rfl⟩ | ⟨_, rfl⟩⟩ | ⟨_, ⟨d, _, rfl⟩ | ⟨b, _, rfl⟩ | ⟨x, _, _, rfl⟩ | ⟨x, _, _, rfl⟩⟩⟩ :=
    exec_next_cases h <;>
    simp [State.startWrite, State.startInstruction, State.startRead]

/-- The only constant a sequencer that keeps its invariant ever puts into `deadline` is SETUP's 0 (45_node_lifecycle.md
R173). -/
theorem SequencerInv.assign_deadline_eq_zero {s : State} (hi : SequencerInv s) {t : Nat} {rest : List Micro}
    (hs : s.seq = .assign (.deadline t) :: rest) : t = 0 := by
  rcases hi.next hs with ⟨_, ⟨_, _, ⟨h, _⟩ | ⟨h, _⟩⟩ | ⟨_, _, h⟩⟩ | ⟨_, ⟨_, h⟩ | ⟨h, _⟩ | ⟨h, _⟩⟩ <;>
    simp_all [Micro.duringSetup, Micro.operational]

/-! ## The bound -/

/-- With the classes ordered, every class `SelectDelayClass` answers is at most the long one (41_deadline_tracker.md R114). -/
theorem selectDelayClass_le_tLong {p : Params} (hc : ClassesOrdered p) (rs : Bool) (b : Byte) :
    selectDelayClass p rs b ≤ p.tLong := by
  obtain ⟨hShort, hExt⟩ := hc
  unfold selectDelayClass
  split
  · exact hExt
  · split
    · exact le_rfl
    · exact hShort

/-- As time passes the bound only gets weaker. -/
theorem DeadlineInv.later {s t : State} (hd : DeadlineInv s) (htnow : t.tnow = s.tnow) (hdeadline : t.deadline = s.deadline)
    (hparams : t.env.params = s.env.params) (hnow : s.env.now ≤ t.env.now) : DeadlineInv t := by
  obtain ⟨hpast, hahead⟩ := hd
  unfold DeadlineInv
  rw [htnow, hdeadline, hparams]
  omega

theorem DeadlineInv.envMove {s : State} (hd : DeadlineInv s) : DeadlineInv s.envMove :=
  hd.later (by simp) (by simp) (by simp) (by simp)

/-- An event keeps the bound: `RecordDeadline` adds one class to a time already past, and a constant must be 0. -/
theorem DeadlineInv.event {s : State} (hd : DeadlineInv s) (hc : ClassesOrdered s.env.params) {op : Micro}
    (hconst : ∀ t, op = .assign (.deadline t) → t = 0) : DeadlineInv (s.event op) := by
  have ⟨hpast, hahead⟩ := hd
  have hnow := s.event_now op
  have hparams : (s.event op).env.params = s.env.params := by simp [s.event_frame op]
  have htnow := s.event_tnow op
  have hdeadline := s.event_deadline op
  unfold DeadlineInv
  cases op with
  | clockRead =>
    simp only [hparams] at htnow hdeadline ⊢
    omega
  | recordDeadline =>
    have hclass := selectDelayClass_le_tLong hc s.rs s.wbyte
    simp only [hparams] at htnow hdeadline ⊢
    omega
  | assign a =>
    cases a with
    | deadline t =>
      have hzero := hconst t rfl
      simp only [hparams] at htnow hdeadline ⊢
      omega
    | _ => exact hd.later htnow hdeadline hparams hnow
  | _ => exact hd.later htnow hdeadline hparams hnow

end Sys2Proof.Machine

open Sys2Proof.Machine

/-- Settles O52: a step is the environment's move, which only lets time pass, and then an event, which keeps the bound, or a
look at the port, which leaves the tracker alone. -/
theorem deadlineStaysWithinTheLongClass : Obligations.DeadlineStaysWithinTheLongClass := by
  intro s t hi hc hd h
  rcases step_next_cases h with ⟨op, rest, hs, rfl⟩ | ⟨_, _, rfl⟩ | ⟨_, q, rest, _, _, rfl⟩ | ⟨_, q, rest, i, _, _, he⟩
  · have hstart : DeadlineInv (s.envMove.start rest) := hd.envMove
    refine hstart.event hc fun t hop => ?_
    subst hop
    exact hi.assign_deadline_eq_zero hs
  · exact hd.envMove
  · exact hd.envMove
  · obtain ⟨htnow, hdeadline, henv⟩ := exec_keeps_tracker he
    exact hd.envMove.later (by simp [htnow]) (by simp [hdeadline]) (by simp [henv]) (by simp [henv])
end

section
/-! Proofs about the sequencer (10_state.md R31; 46_host_operations.md R191): what the events of each phase leave unchanged, what
accepting an instruction loads, and that every step keeps what the sequencer may hold. -/

namespace Sys2Proof.Machine

/-! ## What the next event leaves unchanged -/

/-- No event of steps 3 to 5 of SETUP installs the block (45_node_lifecycle.md R178). -/
theorem Micro.duringSetup_onInstalled {r m : Bool} {op : Micro} (h : op.duringSetup r m = true) (y : Bool) :
    op.onInstalled y = y := by
  cases op with
  | assign a => cases a <;> simp_all [Micro.duringSetup, Micro.onInstalled]
  | _ => rfl

/-- After an event of SETUP's steps 3 to 5 what remains is what remained. -/
theorem Micro.duringSetup_event_seq {r m : Bool} {op : Micro} (h : op.duringSetup r m = true) (s : State) :
    (s.event op).seq = s.seq := by
  rw [s.event_seq op]
  cases op with
  | awaitTest | loopTest | raise => simp [Micro.duringSetup] at h
  | _ => rfl

/-- What remains after an operational event, a test's own events included, is operational. -/
theorem Micro.operational_event_seq {s : State} {op : Micro} (h : op.operational s.readEn s.width8 = true)
    (hrest : ∀ o ∈ s.seq, o.operational s.readEn s.width8 = true) :
    ∀ o ∈ (s.event op).seq, o.operational s.readEn s.width8 = true := by
  have hpoll := operational_pollAgain s.env.params s.readEn s.width8
  rw [s.event_seq op]
  cases op with
  | awaitTest =>
    simp only
    split
    · exact List.forall_mem_cons.2 ⟨rfl, hrest⟩
    · exact hrest
  | loopTest =>
    simp only
    split
    · exact List.forall_mem_append.2 ⟨hpoll, hrest⟩
    · exact hrest
  | raise c info => simp [Micro.operational] at h
  | _ => exact hrest

/-! ## The invariant, phase by phase -/

/-- An idle block meets the invariant. -/
theorem SequencerInv.of_idle {s : State} (hs : s.seq = []) : SequencerInv s where
  beforeSetup _ hne := absurd hs hne
  afterSetup _ := .inl (by simp [hs])

/-- Before installation with valid pins: what remains of a successful SETUP. -/
theorem SequencerInv.of_setup {s : State} (hin : s.installed = false)
    (hbad : failingPins s.setupR s.setupM s.setupPinOk = 0)
    (hseq : s.seq <:+ setupEvents s.env.params s.setupR s.setupM) (hmem : .assign (.installed true) ∈ s.seq) :
    SequencerInv s where
  beforeSetup _ _ := by rw [if_pos hbad]; exact ⟨hseq, hmem⟩
  afterSetup h := by simp [hin] at h

/-- Before installation with failing pins: what remains of a failing SETUP. -/
theorem SequencerInv.of_failedSetup {s : State} (hin : s.installed = false)
    (hbad : failingPins s.setupR s.setupM s.setupPinOk ≠ 0)
    (hseq : s.seq <:+ failedSetupEvents (failingPins s.setupR s.setupM s.setupPinOk)) : SequencerInv s where
  beforeSetup _ _ := by rw [if_neg hbad]; exact hseq
  afterSetup h := by simp [hin] at h

/-- After installation. -/
theorem SequencerInv.of_installed {s : State} (hin : s.installed = true)
    (h : s.seq <:+ setupLast ∨ s.OperationRemains) : SequencerInv s where
  beforeSetup hf := by simp [hin] at hf
  afterSetup _ := h

/-- Events operational in the configuration in force are what remains of an operation. -/
theorem SequencerInv.of_operational {s : State} (hin : s.installed = true)
    (h : ∀ o ∈ s.seq, o.operational s.readEn s.width8 = true) : SequencerInv s :=
  .of_installed hin (.inr (.inr h))

/-- Accepting an instruction loads what the sequencer may hold. -/
theorem SequencerInv.of_exec {i : Instr} {s t : State} (h : exec i s = .next t) : SequencerInv t := by
  obtain ⟨_, ⟨r, m, k, _, hin, ⟨hbad, rfl⟩ | ⟨hbad, rfl⟩⟩ |
    ⟨hin, ⟨d, _, rfl⟩ | ⟨b, _, rfl⟩ | ⟨x, _, hr, rfl⟩ | ⟨x, _, hr, rfl⟩⟩⟩ := exec_next_cases h
  · exact .of_setup hin hbad (List.suffix_refl _) (by simp [setupEvents])
  · exact .of_failedSetup hin hbad (List.suffix_refl _)
  · exact .of_operational hin (operational_writeEvents _)
  · exact .of_installed hin (.inr (.inl ⟨_, rfl, rfl, operational_afterNegotiate _⟩))
  · exact .of_operational hin (operational_readEvents _ hr)
  · exact .of_operational hin (operational_readEvents _ hr)

/-- The next event of a block that meets the invariant leaves a block that meets it. -/
theorem SequencerInv.runMicro {s : State} (hi : SequencerInv s) {op : Micro} {rest : List Micro} (hs : s.seq = op :: rest) :
    SequencerInv (s.runMicro op rest) := by
  have hframe := (s.start rest).event_frame op
  have hinst := (s.start rest).event_installed op
  unfold State.runMicro
  rcases hi.next hs with ⟨hin, ⟨hbad, hsuf, ⟨hop, hmem⟩ | ⟨rfl, rfl⟩⟩ | ⟨hbad, hsuf, hop⟩⟩ |
    ⟨hin, ⟨hsuf, hop⟩ | ⟨rfl, _, hrest⟩ | ⟨hop, hrest⟩⟩
  · have hseq := Micro.duringSetup_event_seq hop (s.start rest)
    exact .of_setup (by simp [hinst, hin, Micro.duringSetup_onInstalled hop]) (by simpa [hframe] using hbad)
      (by simpa [hframe, hseq] using hsuf) (by simpa [hseq] using hmem)
  · exact .of_installed rfl (.inl (List.suffix_refl _))
  · rcases hop with rfl | rfl | rfl | ⟨rfl, rfl⟩
    · exact .of_failedSetup hin hbad hsuf
    · exact .of_failedSetup hin hbad hsuf
    · exact .of_failedSetup hin hbad hsuf
    · exact .of_idle rfl
  · rcases hop with rfl | rfl | rfl | ⟨rfl, rfl⟩ <;> exact .of_installed hin (.inl hsuf)
  · exact .of_operational hin hrest
  · obtain ⟨hre, _, hw, hinstalled, _⟩ := Micro.operational_keeps hop
    have hre' := (s.start rest).event_readEn op
    have hw' := (s.start rest).event_width8 op
    refine .of_operational (by simp [hinst, hinstalled, hin]) ?_
    rw [hre', hw', hre, hw]
    exact Micro.operational_event_seq hop hrest

theorem SequencerInv.envMove {s : State} (hi : SequencerInv s) : SequencerInv s.envMove :=
  ⟨hi.beforeSetup, hi.afterSetup⟩

end Sys2Proof.Machine

open Sys2Proof.Machine

/-- Settles O44: the next event keeps the invariant phase by phase, a look at the port leaves the block idle, and an
accepted instruction loads the events of its own phase. -/
theorem stepKeepsSequencerInv : Obligations.StepKeepsSequencerInv := by
  intro s t hi h
  rcases step_next_cases h with ⟨op, rest, hs, rfl⟩ | ⟨hs, _, rfl⟩ | ⟨hs, q, rest, _, _, rfl⟩ | ⟨_, q, rest, i, _, _, he⟩
  · exact hi.envMove.runMicro hs
  · exact .of_idle hs
  · exact .of_idle hs
  · exact .of_exec he
end

section
/-! Proofs about what a step may write (10_state.md R20 to R28, R32, R33): a look at the port leaves the registers alone, an event
of an installed block is one of a host operation, `Negotiate`, or one of SETUP's last phase. -/

namespace Sys2Proof.Machine

/-! ## A look at the port -/

/-- `t` has the pins, the record and the status outputs of `s` (10_state.md R20 to R28, R32). -/
structure SameRecord (s t : State) : Prop where
  readEn    : t.readEn = s.readEn
  mode8En   : t.mode8En = s.mode8En
  dir       : t.dir = s.dir
  pull      : t.pull = s.pull
  out       : t.out = s.out
  width8    : t.width8 = s.width8
  deadline  : t.deadline = s.deadline
  installed : t.installed = s.installed
  setupOk   : t.setupOk = s.setupOk
  cause     : t.cause = s.cause
  badPins   : t.badPins = s.badPins

/-- Accepting an instruction latches it and changes neither a pin nor a register of the record or of the status. -/
theorem exec_sameRecord {i : Instr} {s t : State} (h : exec i s = .next t) : SameRecord s t := by
  obtain ⟨_, ⟨r, m, k, _, _, ⟨_, rfl⟩ | ⟨_, rfl⟩⟩ | ⟨_, ⟨d, _, rfl⟩ | ⟨b, _, rfl⟩ | ⟨x, _, _, rfl⟩ | ⟨x, _, _, rfl⟩⟩⟩ :=
    exec_next_cases h <;>
    constructor <;> rfl

/-- A step is the next event, after the environment's move, or it leaves the pins, the record and the status alone. -/
theorem step_event_or_sameRecord {s t : State} (h : step s = .next t) :
    (∃ op rest, s.seq = op :: rest ∧ t = (s.envMove.start rest).event op) ∨ SameRecord s t := by
  rcases step_next_cases h with ⟨op, rest, hs, rfl⟩ | ⟨_, _, rfl⟩ | ⟨_, q, rest, _, _, rfl⟩ | ⟨_, q, rest, i, _, _, he⟩
  · exact .inl ⟨op, rest, hs, rfl⟩
  · exact .inr (by constructor <;> rfl)
  · exact .inr (by constructor <;> rfl)
  · exact .inr { exec_sameRecord he with }

/-! ## An event -/

/-- The requests held at the port play no part in an event. -/
theorem State.event_taken (s : State) (hs : List HostRequest) (op : Micro) :
    (s.taken hs).event op = (s.event op).taken hs := by
  cases op with
  | sample p dst => cases dst <;> rfl
  | assign a => cases a <;> rfl
  | awaitTest =>
    have hsleeps : (s.taken hs).blindSleeps = s.blindSleeps := rfl
    simp only [State.event, State.awaitTest, hsleeps]
    split <;> rfl
  | loopTest =>
    have hbf : (s.taken hs).bf = s.bf := rfl
    simp only [State.event, State.loopTest, hbf]
    split <;> rfl
  | _ => rfl

/-- The events that write a status output: three constants and `raise` (60_exceptions.md R211). -/
def Micro.writesStatus : Micro → Bool
  | .assign (.setupOk _) | .assign (.cause _) | .assign (.badPins _) | .raise _ _ => true
  | _ => false

/-- Any other event leaves the status outputs alone (10_state.md R32). -/
theorem State.event_status {op : Micro} (h : op.writesStatus = false) (s : State) :
    (s.event op).setupOk = s.setupOk ∧ (s.event op).cause = s.cause ∧ (s.event op).badPins = s.badPins := by
  cases op with
  | assign a => cases a <;> simp_all [Micro.writesStatus, State.event]
  | raise c info => simp [Micro.writesStatus] at h
  | _ => simp [State.event]

theorem Micro.duringSetup_writesStatus {r m : Bool} {op : Micro} (h : op.duringSetup r m = true) :
    op.writesStatus = false := by
  cases op with
  | assign a => cases a <;> simp_all [Micro.duringSetup, Micro.writesStatus]
  | raise c info => simp [Micro.duringSetup] at h
  | _ => rfl

theorem Micro.operational_writesStatus {readEn w : Bool} {op : Micro} (h : op.operational readEn w = true) :
    op.writesStatus = false := by
  cases op with
  | assign a => simp [Micro.operational] at h
  | raise c info => simp [Micro.operational] at h
  | _ => rfl

/-- A pull-up is written by `PullUp` only (10_state.md R25). -/
theorem State.event_pull {op : Micro} (h : ∀ p, op ≠ .pullUp p) (s : State) : (s.event op).pull = s.pull := by
  cases op with
  | pullUp p => exact absurd rfl (h p)
  | _ => simp [State.event]

/-! ## The events of an installed block -/

/-- The next event of an installed block that meets the sequencer's invariant. -/
theorem SequencerInv.next_installed {s : State} (hi : SequencerInv s) (hin : s.installed = true) {op : Micro}
    {rest : List Micro} (hs : s.seq = op :: rest) :
    op ∈ setupLast ∨ op = .negotiate ∨ op.operational s.readEn s.width8 = true := by
  rcases hi.next hs with ⟨hf, _⟩ | ⟨_, ⟨_, hop⟩ | ⟨hop, _⟩ | ⟨hop, _⟩⟩
  · simp [hin] at hf
  · refine .inl ?_
    rcases hop with rfl | rfl | rfl | ⟨rfl, _⟩ <;> simp [setupLast]
  · exact .inr (.inl hop)
  · exact .inr (.inr hop)

/-- An operational event changes the direction of data lines only (10_state.md R23). -/
theorem Micro.operational_onDir {readEn w : Bool} {op : Micro} (h : op.operational readEn w = true) {p : Pin}
    (hp : p.isDataLine = false) (y : Dir) : op.onDir p y = y := by
  cases op with
  | pinMode q m =>
    have hq : q ≠ p := by
      rintro rfl
      simp [Micro.operational, Pin.lineAllowed, hp] at h
    simp [Micro.onDir, hq]
  | _ => rfl

/-- Without `READ_EN` an operational event does not drive RW (42_bus_encoder.md R131). -/
theorem Micro.operational_onOut_RW {w : Bool} {op : Micro} (h : op.operational false w = true) (y : Bool) :
    op.onOut .RW y = y := by
  cases op with
  | drive q x =>
    have hq : q ≠ .RW := by
      rintro rfl
      simp [Micro.operational, Pin.lineAllowed, Pin.isDataLine] at h
    simp [Micro.onOut, hq]
  | _ => rfl

/-- An event of an installed block writes neither the configuration nor a pull-up, does not uninstall, and changes the
direction of data lines only. -/
theorem SequencerInv.installed_keeps {s : State} (hi : SequencerInv s) (hin : s.installed = true) {op : Micro}
    {rest : List Micro} (hs : s.seq = op :: rest) :
    (∀ y, op.onInstalled y = y) ∧ (∀ y, op.onReadEn y = y) ∧ (∀ y, op.onMode8En y = y) ∧ (∀ p, op ≠ .pullUp p) ∧
    ∀ p : Pin, p.isDataLine = false → ∀ y, op.onDir p y = y := by
  rcases hi.next_installed hin hs with hop | rfl | hop
  · simp only [setupLast, List.mem_cons, List.not_mem_nil, or_false] at hop
    rcases hop with rfl | rfl | rfl | rfl <;>
      simp [Micro.onInstalled, Micro.onReadEn, Micro.onMode8En, Micro.onDir]
  · simp [Micro.onInstalled, Micro.onReadEn, Micro.onMode8En, Micro.onDir]
  · obtain ⟨hre, hm8, _, hinst, _⟩ := Micro.operational_keeps hop
    refine ⟨hinst, hre, hm8, ?_, fun p hp => Micro.operational_onDir hop hp⟩
    rintro p rfl
    simp [Micro.operational] at hop

/-- Without `READ_EN` an event of an installed block does not drive RW. -/
theorem SequencerInv.installed_onOut_RW {s : State} (hi : SequencerInv s) (hin : s.installed = true)
    (hre : s.readEn = false) {op : Micro} {rest : List Micro} (hs : s.seq = op :: rest) (y : Bool) :
    op.onOut .RW y = y := by
  rcases hi.next_installed hin hs with hop | rfl | hop
  · simp only [setupLast, List.mem_cons, List.not_mem_nil, or_false] at hop
    rcases hop with rfl | rfl | rfl | rfl <;> rfl
  · rfl
  · rw [hre] at hop
    exact Micro.operational_onOut_RW hop y

/-- An installed block holds no constant for `deadline`. -/
theorem SequencerInv.installed_no_deadline_constant {s : State} (hi : SequencerInv s) (hin : s.installed = true) {t : Nat}
    {rest : List Micro} : s.seq ≠ .assign (.deadline t) :: rest := by
  intro hs
  rcases hi.next_installed hin hs with hop | hop | hop <;> simp [setupLast, Micro.operational] at hop

end Sys2Proof.Machine

open Sys2Proof.Machine

/-- Settles O12: a step of a busy block is its next event after the environment's move, and an event commutes with a change
of the requests held. -/
theorem busyStepIssuesTheNextEvent : Obligations.BusyStepIssuesTheNextEvent := by
  intro s op rest hs
  refine ⟨step_busy hs, fun hosts => ?_⟩
  have hbusy : (s.taken hosts).seq = op :: rest := hs
  exact (step_busy hbusy).trans (congrArg _ ((s.envMove.start rest).event_taken hosts op))

/-- Settles O35: an event that writes a status output is none of a host operation and none of SETUP's steps 3 to 5, so the
sequencer's invariant leaves the last phase of a successful SETUP and the events of a failing one. -/
theorem statusIsWrittenBySetupOnly : Obligations.StatusIsWrittenBySetupOnly := by
  intro s t hi h hne bad
  rcases step_event_or_sameRecord h with ⟨op, rest, hs, rfl⟩ | hsame
  · have hwrites : op.writesStatus ≠ false := by
      intro hw
      obtain ⟨hok, hcause, hbad⟩ := (s.envMove.start rest).event_status hw
      exact absurd hne (by simp [hok, hcause, hbad])
    refine ⟨op, rest, hs, ?_⟩
    rcases hi.next hs with ⟨hin, ⟨_, _, ⟨hop, _⟩ | ⟨rfl, _⟩⟩ | ⟨hbad, _, hop⟩⟩ |
      ⟨hin, ⟨_, hop⟩ | ⟨rfl, _⟩ | ⟨hop, _⟩⟩
    · exact absurd (Micro.duringSetup_writesStatus hop) hwrites
    · exact absurd rfl hwrites
    · exact .inr ⟨hin, hbad, hop.imp_right (Or.imp_right (Or.imp_right And.left))⟩
    · refine .inl ⟨hin, hop.imp_right (Or.imp_right fun hlast => ?_)⟩
      rcases hlast with hop | ⟨rfl, _⟩
      · exact hop
      · exact absurd rfl hwrites
    · exact absurd rfl hwrites
    · exact absurd (Micro.operational_writesStatus hop) hwrites
  · exact absurd hne (by simp [hsame.setupOk, hsame.cause, hsame.badPins])

/-- Settles O47: the registers a step may change are those its event writes, and no event of an installed block writes one
of these. -/
theorem configurationIsSetOnce : Obligations.ConfigurationIsSetOnce := by
  intro s t hi hin h
  rcases step_event_or_sameRecord h with ⟨op, rest, hs, rfl⟩ | hsame
  · obtain ⟨kinst, kre, km8, kpull, kdir⟩ := hi.installed_keeps hin hs
    simp [State.event_installed, State.event_readEn, State.event_mode8En, State.event_pull kpull, State.event_dirOf, kinst,
      kre, km8, kdir .RS rfl, kdir .RW rfl, kdir .E rfl, hin]
  · exact ⟨hsame.installed.trans hin, hsame.readEn, hsame.mode8En, hsame.pull, by simp [State.dirOf, hsame.dir]⟩

/-- Settles O48: no event of an installed block without `READ_EN` drives RW, and none touches its direction or pull-up. -/
theorem readWritePinUntouched : Obligations.ReadWritePinUntouched := by
  intro s t hi hin hre h
  obtain ⟨_, _, _, hpull, _, hdir, _⟩ := configurationIsSetOnce s t hi hin h
  refine ⟨?_, hdir, by simp [State.pullOf, hpull]⟩
  rcases step_event_or_sameRecord h with ⟨op, rest, hs, rfl⟩ | hsame
  · simp [State.event_outOf, hi.installed_onOut_RW hin hre hs]
  · simp [State.outOf, hsame.out]

/-- Settles O51: of the two events that write `deadline`, SETUP's constant is none of an installed block. -/
theorem deadlineIsWrittenByRecordDeadlineOnly : Obligations.DeadlineIsWrittenByRecordDeadlineOnly := by
  intro s t hi hin h hne
  rcases step_event_or_sameRecord h with ⟨op, rest, hs, rfl⟩ | hsame
  · have hwritten := (s.envMove.start rest).event_deadline op
    cases op with
    | recordDeadline => exact ⟨⟨rest, hs⟩, hwritten⟩
    | assign a =>
      cases a with
      | deadline t => exact absurd hs (hi.installed_no_deadline_constant hin)
      | _ => exact absurd hwritten hne
    | _ => exact absurd hwritten hne
  · exact absurd hsame.deadline hne
end

section
/-! Proofs about the active width and the capability (10_state.md R33 (c); 70_reset_and_hazards.md R252): where the present
transaction leads, followed through the next event and through an accepted instruction. -/

namespace Sys2Proof.Machine

/-! ## Where a transaction leads -/

theorem after_of_fixed {α : Type} {f : Micro → α → α} {es : List Micro} (h : ∀ op ∈ es, ∀ y, f op y = y) (x : α) :
    after f es x = x := by
  induction es with
  | nil => rfl
  | cons op es ih =>
    obtain ⟨hop, hes⟩ := List.forall_mem_cons.1 h
    rw [after_cons, hop, ih hes]

theorem Micro.operational_onInstalled {readEn w : Bool} {op : Micro} (h : op.operational readEn w = true) (y : Bool) :
    op.onInstalled y = y := by
  obtain ⟨_, _, _, hinst, _⟩ := Micro.operational_keeps h
  exact hinst y

theorem Micro.operational_onMode8En {readEn w : Bool} {op : Micro} (h : op.operational readEn w = true) (y : Bool) :
    op.onMode8En y = y := by
  obtain ⟨_, hm8, _⟩ := Micro.operational_keeps h
  exact hm8 y

theorem Micro.operational_onWidth8 {readEn w : Bool} {op : Micro} (h : op.operational readEn w = true) (b : Byte)
    (y : Bool) : op.onWidth8 b y = y := by
  obtain ⟨_, _, hw, _⟩ := Micro.operational_keeps h
  exact hw b y

/-- A register that no operational event writes ends a transaction as if the tests put nothing before what remains. -/
theorem State.after_event_seq {α : Type} {f : Micro → α → α} {s : State} {op : Micro}
    (hfixed : ∀ o : Micro, o.operational s.readEn s.width8 = true → ∀ y, f o y = y)
    (hraise : ∀ c info, op = .raise c info → s.seq = []) (x : α) :
    after f (s.event op).seq x = after f s.seq x := by
  have hpoll := operational_pollAgain s.env.params s.readEn s.width8
  rw [s.event_seq op]
  cases op with
  | awaitTest =>
    simp only
    split
    · rw [after_cons, hfixed _ rfl]
    · rfl
  | loopTest =>
    simp only
    split
    · rw [after_append, after_of_fixed fun o ho => hfixed o (hpoll o ho)]
    · rfl
  | raise c info => rw [hraise c info rfl]
  | _ => rfl

/-- SETUP leads to the width and the capability it was given (45_node_lifecycle.md R173). -/
theorem after_setupEvents (p : Params) (r m : Bool) (b : Byte) (x y : Bool) :
    after (Micro.onWidth8 b) (setupEvents p r m) x = m ∧ after Micro.onMode8En (setupEvents p r m) y = m := by
  cases r <;> cases m <;> exact ⟨rfl, rfl⟩

/-- A SETUP whose pins fail does not install the block (45_node_lifecycle.md R172). -/
theorem after_failedSetupEvents_onInstalled (bad : PinVec) (x : Bool) :
    after Micro.onInstalled (failedSetupEvents bad) x = x := rfl

/-- `Negotiate` reaches 8-bit width from 8-bit width or by the 8-bit pattern (44_mode_negotiator.md R161). -/
theorem eq_true_or_isFS8_of_nextWidth {w : Bool} {b : Byte} (h : nextWidth w b = true) : w = true ∨ isFS8 b = true := by
  cases w with
  | true => exact .inl rfl
  | false => simpa [nextWidth] using h

/-! ## The invariant -/

/-- Events that write neither the width nor the configuration lead to the width and the capability there are. -/
theorem WidthInv.of_operational {s : State} {readEn w : Bool}
    (hops : ∀ op ∈ s.seq, op.operational readEn w = true) (h : s.width8 = true → s.mode8En = true) : WidthInv s := by
  intro _ hwidth
  rw [after_of_fixed fun op hop => Micro.operational_onWidth8 (hops op hop) s.wbyte] at hwidth
  rw [after_of_fixed fun op hop => Micro.operational_onMode8En (hops op hop)]
  exact h hwidth

/-- The same with `Negotiate` before them: it is the width that `Negotiate` leaves that counts. -/
theorem WidthInv.of_negotiate {s : State} {es : List Micro} {readEn w : Bool} (hs : s.seq = .negotiate :: es)
    (hops : ∀ op ∈ es, op.operational readEn w = true) (h : nextWidth s.width8 s.wbyte = true → s.mode8En = true) :
    WidthInv s := by
  intro _ hwidth
  rw [hs, after_cons] at hwidth ⊢
  rw [after_of_fixed fun op hop => Micro.operational_onWidth8 (hops op hop) s.wbyte] at hwidth
  rw [after_of_fixed fun op hop => Micro.operational_onMode8En (hops op hop)]
  exact h hwidth

/-- An idle installed block that meets the invariant is in 8-bit width only with the capability. -/
theorem WidthInv.ready {s : State} (h : WidthInv s) (hr : s.Ready) : s.width8 = true → s.mode8En = true := by
  obtain ⟨hs, hin⟩ := hr
  simpa [WidthInv, State.Live, hs, hin] using h

/-- The next event keeps the invariant: it does now what it was expected to do. -/
theorem WidthInv.runMicro {s : State} (h : WidthInv s) (hi : SequencerInv s) {op : Micro} {rest : List Micro}
    (hs : s.seq = op :: rest) : WidthInv (s.runMicro op rest) := by
  have hraise : ∀ c info, op = .raise c info → (s.start rest).seq = [] := by
    rintro c info rfl
    exact hi.raise_last hs
  have hinst := State.after_event_seq (s := s.start rest) (f := Micro.onInstalled) (op := op)
    (fun _ => Micro.operational_onInstalled) hraise
  have hm8 := State.after_event_seq (s := s.start rest) (f := Micro.onMode8En) (op := op)
    (fun _ => Micro.operational_onMode8En) hraise
  have hwidth := State.after_event_seq (s := s.start rest) (f := Micro.onWidth8 s.wbyte) (op := op)
    (fun _ ho => Micro.operational_onWidth8 ho s.wbyte) hraise
  simp only [WidthInv, State.Live, hs, after_cons] at h
  simpa [WidthInv, State.Live, State.runMicro, State.event_frame, State.event_installed, State.event_mode8En,
    State.event_width8, hinst, hm8, hwidth] using h

/-- Accepting an instruction keeps the invariant, if it is no instruction write of an 8-bit function set without the
capability. -/
theorem WidthInv.exec {i : Instr} {s t : State} (h : WidthInv s)
    (hobeys : s.mode8En = false → ∀ b, instructionByte i = some b → isFS8 b = false) (he : exec i s = .next t) :
    WidthInv t := by
  obtain ⟨hs, ⟨r, m, k, _, hin, ⟨_, rfl⟩ | ⟨_, rfl⟩⟩ |
    ⟨hin, ⟨d, _, rfl⟩ | ⟨b, hb, rfl⟩ | ⟨x, _, hr, rfl⟩ | ⟨x, _, hr, rfl⟩⟩⟩ := exec_next_cases he
  · intro _ hwidth
    obtain ⟨hw, hm8⟩ := after_setupEvents s.env.params r m s.wbyte s.width8 s.mode8En
    exact hm8.trans (hw.symm.trans hwidth)
  · intro hlive
    simp [State.Live, after_failedSetupEvents_onInstalled, hin] at hlive
  · exact .of_operational (operational_writeEvents _) (h.ready ⟨hs, hin⟩)
  · refine .of_negotiate rfl (operational_afterNegotiate _) fun hnext => ?_
    rcases eq_true_or_isFS8_of_nextWidth hnext with hwidth | hpattern
    · exact h.ready ⟨hs, hin⟩ hwidth
    · exact Bool.eq_true_of_not_eq_false fun hm8 => Bool.false_ne_true ((hobeys hm8 b hb).symm.trans hpattern)
  · exact .of_operational (operational_readEvents _ hr) (h.ready ⟨hs, hin⟩)
  · exact .of_operational (operational_readEvents _ hr) (h.ready ⟨hs, hin⟩)

end Sys2Proof.Machine

open Sys2Proof.Machine

/-- Settles O53: the next event does what the invariant already counts on, and of what the host may present only an
instruction write of a `0x3_` byte leads to 8-bit width without the capability. -/
theorem widthStaysWithinTheCapability : Obligations.WidthStaysWithinTheCapability := by
  intro s t hi hw hhost h
  rcases step_next_cases h with ⟨op, rest, hs, rfl⟩ | ⟨hs, _, rfl⟩ | ⟨hs, q, rest, _, _, rfl⟩ |
    ⟨hs, q, rest, i, hq, hf, he⟩
  · exact WidthInv.runMicro (s := s.envMove) hw hi.envMove hs
  · exact hw
  · exact hw
  · exact WidthInv.exec (s := s.envMove.taken rest) hw (fun hm8 b hb => hhost hm8 q (by simp [hq]) i b hf hb) he
end

section
/-! Proofs about the pins (10_state.md R23 to R25): each pin event reaches one register of one pin, and what a pin carries
follows its direction. -/

namespace Sys2Proof.Machine

/-- Reading a bit after one bit has been written (30_encoding.md R81). -/
theorem getLsbD_setBit {n : Nat} (b : BitVec n) (i j : Nat) (x : Bool) (hj : j < n) :
    (setBit b i x).getLsbD j = if j = i then x else b.getLsbD j := by
  have hbit : (1#n <<< i).getLsbD j = decide (j = i) := by
    rw [BitVec.getLsbD_shiftLeft, BitVec.getLsbD_one]
    by_cases h : j = i
    · simp [h]; omega
    · simp [h]; omega
  cases x with
  | true =>
    simp only [setBit, if_true, BitVec.getLsbD_or, hbit]
    by_cases h : j = i <;> simp [h]
  | false =>
    simp only [setBit, Bool.false_eq_true, if_false, BitVec.getLsbD_and, BitVec.getLsbD_not, hbit, hj]
    by_cases h : j = i <;> simp [h]

/-- A pin that is Out carries its latch, a pin that is In nothing of the block's (10_state.md R23). -/
theorem State.drives_of_dirOf_out {s : State} {p : Pin} (h : s.dirOf p = .Out) : s.drives p = some (s.outOf p) := by
  simp [State.drives, h]

theorem State.drives_of_dirOf_in {s : State} {p : Pin} (h : s.dirOf p = .In) : s.drives p = none := by
  simp [State.drives, h]

end Sys2Proof.Machine

open Sys2Proof.Machine

/-- Settles O17: reading a pin register after a write of it, pin by pin, and reading a bit after a sample. -/
theorem pinEventsAreLocal : Obligations.PinEventsAreLocal := by
  intro s p q x m
  refine ⟨⟨rfl, s.outOf_drive p q x⟩, ⟨rfl, s.dirOf_pinMode p q m⟩, ⟨rfl, s.pullOf_pullUp p q⟩, ⟨rfl, fun _ i hi => ?_⟩,
    ⟨rfl, fun _ i hi => ?_⟩, ⟨rfl, fun _ i hi => ?_⟩⟩
  · exact getLsbD_setBit s.v _ i _ hi
  · exact getLsbD_setBit s.hi _ i _ hi
  · exact getLsbD_setBit s.lo _ i _ hi

/-- Settles O54: the direction decides who sets the level, and neither `Drive` nor `PinMode` loses the latch. -/
theorem pinLevelFollowsTheDirection : Obligations.PinLevelFollowsTheDirection := by
  intro s p x
  refine ⟨fun h => ?_, fun h => ?_, ?_, ?_, ?_⟩
  · simp [State.pinLevel, State.drives_of_dirOf_out h]
  · simp [State.pinLevel, State.drives_of_dirOf_in h]
  · exact State.drives_of_dirOf_in (by simp)
  · rw [State.drives_of_dirOf_out] <;> simp
  · rw [State.drives_of_dirOf_out] <;> simp
end

section
/-! Proofs about the falling edges of E along a list of events (00_scope.md R13, R14; 42_bus_encoder.md R126; 43_bus_decoder.md
R143): where there is none, and what the one of a strobe cycle commits. -/

namespace Sys2Proof.Machine

/-! ## Directions and latches after a list of events -/

/-- The directions of the pins after the listed events. -/
def dirsAfter (es : List Micro) (d : Pin → Dir) : Pin → Dir := fun p => after (Micro.onDir p) es (d p)

/-- The latches of the pins after the listed events. -/
def latchesAfter (es : List Micro) (lv : Pin → Bool) : Pin → Bool := fun p => after (Micro.onOut p) es (lv p)

@[simp] theorem dirsAfter_nil (d : Pin → Dir) : dirsAfter [] d = d := rfl
@[simp] theorem latchesAfter_nil (lv : Pin → Bool) : latchesAfter [] lv = lv := rfl

@[simp] theorem dirsAfter_append (es fs : List Micro) (d : Pin → Dir) :
    dirsAfter (es ++ fs) d = dirsAfter fs (dirsAfter es d) := by
  funext p
  simp [dirsAfter]

@[simp] theorem latchesAfter_append (es fs : List Micro) (lv : Pin → Bool) :
    latchesAfter (es ++ fs) lv = latchesAfter fs (latchesAfter es lv) := by
  funext p
  simp [latchesAfter]

theorem carried_append (es fs : List Micro) (d : Pin → Dir) (lv : Pin → Bool) :
    carried d lv (es ++ fs) = carried d lv es ++ carried (dirsAfter es d) (latchesAfter es lv) fs := by
  induction es generalizing d lv with
  | nil => rfl
  | cons op es ih => simp only [List.cons_append, carried, ih, List.append_assoc]; rfl

/-! ## Events that leave E alone -/

/-- An event that neither drives E nor changes its direction. -/
def Micro.keepsStrobe : Micro → Bool
  | .drive p _   => p != .E
  | .pinMode p _ => p != .E
  | _ => true

theorem Micro.keepsStrobe_onDir {op : Micro} (h : op.keepsStrobe = true) (y : Dir) : op.onDir .E y = y := by
  cases op with
  | pinMode p m => simp_all [Micro.keepsStrobe, Micro.onDir]
  | _ => rfl

theorem Micro.keepsStrobe_onOut {op : Micro} (h : op.keepsStrobe = true) (y : Bool) : op.onOut .E y = y := by
  cases op with
  | drive p x => simp_all [Micro.keepsStrobe, Micro.onOut]
  | _ => rfl

theorem dirsAfter_strobe {es : List Micro} (h : es.all Micro.keepsStrobe = true) (d : Pin → Dir) :
    dirsAfter es d .E = d .E := by
  induction es generalizing d with
  | nil => rfl
  | cons op es ih =>
    obtain ⟨hop, hes⟩ := Bool.and_eq_true_iff.1 h
    exact (ih hes fun p => op.onDir p (d p)).trans (Micro.keepsStrobe_onDir hop _)

theorem latchesAfter_strobe {es : List Micro} (h : es.all Micro.keepsStrobe = true) (lv : Pin → Bool) :
    latchesAfter es lv .E = lv .E := by
  induction es generalizing lv with
  | nil => rfl
  | cons op es ih =>
    obtain ⟨hop, hes⟩ := Bool.and_eq_true_iff.1 h
    exact (ih hes fun p => op.onOut p (lv p)).trans (Micro.keepsStrobe_onOut hop _)

/-- Where no event touches E it does not fall. -/
theorem carried_of_keepsStrobe {es : List Micro} (h : es.all Micro.keepsStrobe = true) (d : Pin → Dir) (lv : Pin → Bool) :
    carried d lv es = [] := by
  induction es generalizing d lv with
  | nil => rfl
  | cons op es ih =>
    obtain ⟨hop, hes⟩ := Bool.and_eq_true_iff.1 h
    have hsame : ∀ y : Option Bool, (y == some true && y == some false) = false := by decide
    simp [carried, ih hes, Micro.keepsStrobe_onDir hop, Micro.keepsStrobe_onOut hop, hsame]

/-! ## A strobe cycle -/

/-- A strobe cycle: E up, what is done while it is up, E down, and the hold time (00_scope.md R13). -/
def strobeCycle (held : List Micro) (n : Nat) : List Micro := [.drive .E true] ++ held ++ [.drive .E false, .wait n]

theorem writeCycle_eq_strobeCycle (p : Params) (levels : List (Pin × Bool)) :
    writeCycle p levels = strobeCycle (levels.map (fun (q, x) => .drive q x) ++ [.wait p.tPw]) p.tPw := by
  simp [writeCycle, strobeCycle]

theorem readCycle_eq_strobeCycle (p : Params) (lines : List Pin) (dst : SampleTo) :
    readCycle p lines dst = strobeCycle (.wait p.tPw :: lines.map fun q => .sample q dst) p.tPw := rfl

theorem dirsAfter_strobeCycle (held : List Micro) (n : Nat) (d : Pin → Dir) :
    dirsAfter (strobeCycle held n) d = dirsAfter held d := by
  rw [strobeCycle, dirsAfter_append, dirsAfter_append]
  rfl

/-- A strobe cycle leaves E low and the other latches as its own events do. -/
theorem latchesAfter_strobeCycle (held : List Micro) (n : Nat) (lv : Pin → Bool) :
    latchesAfter (strobeCycle held n) lv = fun p => if p = .E then false else latchesAfter held lv p := by
  funext p
  rw [strobeCycle, latchesAfter_append, latchesAfter_append]
  by_cases hp : p = .E
  · simp [latchesAfter, Micro.onOut, hp]
  · simp [latchesAfter, Micro.onOut, hp, Ne.symm hp]

/-- Where E is an output and high, its falling edge commits what the block drives when it is over. -/
theorem carried_fall {d : Pin → Dir} {lv : Pin → Bool} (hd : d .E = .Out) (hlv : lv .E = true) (n : Nat) :
    carried d lv [.drive .E false, .wait n] =
      [fun p => driving (dirsAfter [.drive .E false, .wait n] d p) (latchesAfter [.drive .E false, .wait n] lv p)] := by
  simp [carried, dirsAfter, latchesAfter, Micro.onDir, Micro.onOut, driving, hd, hlv]

/-- With E an output, a strobe cycle has one falling edge, and it commits what the block drives when the cycle is over
(00_scope.md R14). -/
theorem carried_strobeCycle {held : List Micro} (h : held.all Micro.keepsStrobe = true) (n : Nat) {d : Pin → Dir}
    (hd : d .E = .Out) (lv : Pin → Bool) :
    carried d lv (strobeCycle held n) =
      [fun p => driving (dirsAfter (strobeCycle held n) d p) (latchesAfter (strobeCycle held n) lv p)] := by
  have hrise : carried d lv [.drive .E true] = [] := by
    simp [carried, Micro.onDir, Micro.onOut, driving, hd]
  have hout : dirsAfter held (dirsAfter [.drive .E true] d) .E = .Out := (dirsAfter_strobe h _).trans hd
  have hhigh : latchesAfter held (latchesAfter [.drive .E true] lv) .E = true := latchesAfter_strobe h _
  simp only [strobeCycle, carried_append, hrise, carried_of_keepsStrobe h, dirsAfter_append, latchesAfter_append,
    List.nil_append, carried_fall hout hhigh]

end Sys2Proof.Machine
end

section
/-! Proofs about `AwaitReady` when the first poll reads "ready" (41_deadline_tracker.md R117; 43_bus_decoder.md R150): its two
tests then only let time pass, so it runs as a straight list of events. -/

namespace Sys2Proof.Machine

/-! ## The tests -/

@[simp] theorem State.event_wait_zero (s : State) : s.event (.wait 0) = s := rfl

/-- The test of `AwaitReady` is a step in which only time passes, with the blind-sleep after it or not. -/
theorem step_awaitTest_eq_wait (s : State) (l : List Micro) :
    step (s.start (.awaitTest :: l)) =
      step (s.start (.wait 0 :: ((if s.blindSleeps then [.waitUntil s.deadline] else []) ++ l))) := by
  rw [step_awaitTest, step_start_straight rfl, State.event_wait_zero]
  split <;> rfl

/-- The test of the busy-wait loop, the flag reading "ready", is a step in which only time passes. -/
theorem step_loopTest_eq_wait {s : State} (h : s.bf = false) (l : List Micro) :
    step (s.start (.loopTest :: l)) = step (s.start (.wait 0 :: l)) := by
  rw [step_loopTest, step_start_straight rfl, State.event_wait_zero]
  simp [h]

/-- Two runs with the same straight events first and then the same step have the same commits. -/
theorem commits_congr_step {es : List Micro} (hes : ∀ op ∈ es, op.straight = true) {s : State} {l l' : List Micro}
    (h : step ((s.afterEvents es).start l) = step ((s.afterEvents es).start l')) {n : Nat} (hn : es.length < n) :
    commits n (s.start (es ++ l)) = commits n (s.start (es ++ l')) := by
  obtain ⟨k, rfl⟩ : ∃ k, n = es.length + (k + 1) := ⟨n - es.length - 1, by omega⟩
  rw [commits_add _ _ (steps_straight es hes s l), commits_add _ _ (steps_straight es hes s l'),
    commits_straight es hes, commits_straight es hes]
  simp only [commits, h]
  rfl

/-! ## The events -/

/-- `AwaitReady` with `READ_EN` = 1 up to its first poll, the test of the blind-sleep as a step of no effect. -/
def State.pollApproach (s : State) : List Micro :=
  [.clockRead, .wait 0] ++ (if Expected.sleeps s then [.waitUntil s.deadline] else []) ++ linesIn s.width8 ++
    [.drive .RS false, .drive .RW true]

/-- The same and the first poll, up to the loop's test. -/
def State.firstPoll (s : State) : List Micro := s.pollApproach ++ (readCycle s.env.params [.D7] .v ++ [.updateBf])

/-- What follows a poll that reads "ready", the test of the loop as a step of no effect. -/
def State.pollsEnd (s : State) : List Micro := [.wait 0] ++ pollTail s.env.params s.width8 ++ linesOut s.width8

/-- `AwaitReady` as a straight list of events, when the first poll reads "ready" or with `READ_EN` = 0. -/
def State.readyAwait (s : State) : List Micro :=
  if s.readEn then s.firstPoll ++ s.pollsEnd else [.waitUntil s.deadline]

theorem straight_pollTail (p : Params) (w : Bool) : ∀ op ∈ pollTail p w, op.straight = true := by
  intro op h
  simp only [pollTail, List.mem_flatten, List.mem_replicate] at h
  obtain ⟨l, ⟨_, rfl⟩, h⟩ := h
  exact List.all_eq_true.1 (show (dummyCycle p).all Micro.straight = true from rfl) op h

theorem straight_firstPoll (s : State) : ∀ op ∈ s.firstPoll, op.straight = true := by
  rw [← List.all_eq_true]
  unfold State.firstPoll State.pollApproach
  cases Expected.sleeps s <;> cases s.width8 <;> rfl

theorem straight_pollsEnd (s : State) : ∀ op ∈ s.pollsEnd, op.straight = true := by
  have hlines : ∀ op ∈ linesOut s.width8, op.straight = true := by
    rw [← List.all_eq_true]
    cases s.width8 <;> rfl
  simp only [State.pollsEnd, List.forall_mem_append]
  exact ⟨⟨by simp [Micro.straight], straight_pollTail _ _⟩, hlines⟩

theorem straight_readyAwait (s : State) : ∀ op ∈ s.readyAwait, op.straight = true := by
  unfold State.readyAwait
  split
  · exact List.forall_mem_append.2 ⟨straight_firstPoll s, straight_pollsEnd s⟩
  · simp [Micro.straight]

theorem length_pollTail (p : Params) (w : Bool) :
    (pollTail p w).length = 4 * if w then p.pollTail8 else p.pollTail4 := by
  simp [pollTail, dummyCycle, readCycle, Nat.mul_comm]

theorem length_firstPoll (s : State) :
    s.firstPoll.length = (if s.width8 then 18 else 14) + (Expected.sleeps s).toNat := by
  unfold State.firstPoll State.pollApproach
  cases Expected.sleeps s <;> cases s.width8 <;> rfl

theorem length_pollsEnd (s : State) :
    s.pollsEnd.length = (if s.width8 then 9 else 5) + 4 * if s.width8 then s.env.params.pollTail8 else s.env.params.pollTail4 := by
  cases hw : s.width8 <;> simp [State.pollsEnd, length_pollTail, linesOut, activeLines, lines8, lines4, hw] <;> omega

/-- The length of `AwaitReady` (46_host_operations.md R200). -/
theorem length_readyAwait (s : State) :
    s.readyAwait.length = if s.readEn then (if s.width8 then 27 else 19) + (Expected.sleeps s).toNat +
      4 * (if s.width8 then s.env.params.pollTail8 else s.env.params.pollTail4) else 1 := by
  unfold State.readyAwait
  split
  · rw [List.length_append, length_firstPoll, length_pollsEnd]
    cases s.width8 <;> simp <;> omega
  · rfl

/-! ## What the tests find -/

/-- The test of `AwaitReady` finds what `Expected.sleeps` says from the state before it (41_deadline_tracker.md R117). -/
theorem blindSleeps_after_clockRead (s : State) : (s.afterEvents [.clockRead]).blindSleeps = Expected.sleeps s := by
  have hnow : (s.afterEvents [.clockRead]).tnow = s.env.now + (s.moveAt 0).dt := by
    simp [State.event, State.moveAt_zero]
  have hrest : (s.afterEvents [.clockRead]).deadline = s.deadline ∧
      (s.afterEvents [.clockRead]).env.params = s.env.params := ⟨rfl, rfl⟩
  rw [State.blindSleeps, Expected.sleeps, hnow, hrest.1, hrest.2, ← Bool.decide_and, decide_eq_decide]
  omega

theorem State.afterEvents_levelAt (es : List Micro) (s : State) (k : Nat) (p : Pin) :
    (s.afterEvents es).levelAt k p = s.levelAt (es.length + k) p := by
  simp [State.levelAt, State.afterEvents_moveAt]

/-- A poll leaves in `bf` the level D7 had two steps after it began (43_bus_decoder.md R150). -/
theorem State.afterEvents_poll_bf (s : State) (p : Params) :
    (s.afterEvents (readCycle p [.D7] .v ++ [.updateBf])).bf = s.levelAt 2 .D7 := by
  have hup := s.afterEvents_levelAt [.drive .E true, .wait p.tPw] 0 .D7
  rw [← State.envMove_inOf] at hup
  exact (getLsbD_setBit _ 7 7 _ (by decide)).trans hup

/-- The flag the loop's test finds is the level D7 had in the first poll. -/
theorem State.afterEvents_firstPoll_bf (s : State) :
    (s.afterEvents s.firstPoll).bf = s.levelAt ((if s.width8 then 14 else 10) + (Expected.sleeps s).toNat) .D7 := by
  rw [State.firstPoll, State.afterEvents_append, State.afterEvents_poll_bf, State.afterEvents_levelAt]
  unfold State.pollApproach
  cases Expected.sleeps s <;> cases s.width8 <;> rfl

/-- `AwaitReady` and what follows it has the commits of the straight list, if with `READ_EN` = 1 the first poll reads
"ready". -/
theorem commits_awaitReady (s : State) (rest : List Micro)
    (hready : s.readEn = true →
      s.levelAt ((if s.width8 then 14 else 10) + (Expected.sleeps s).toNat) .D7 = false)
    {n : Nat} (hn : s.readyAwait.length ≤ n) :
    commits n (s.start (s.awaitReady ++ rest)) = commits n (s.start (s.readyAwait ++ rest)) := by
  cases hr : s.readEn with
  | false => simp [State.awaitReady, State.readyAwait, hr]
  | true =>
    have hfirst : 1 < s.firstPoll.length := by simp [State.firstPoll, State.pollApproach]
    have hend : 0 < s.pollsEnd.length := by simp [State.pollsEnd]
    simp only [State.readyAwait, hr, if_true, List.length_append] at hn
    have hbf : (s.afterEvents s.firstPoll).bf = false := s.afterEvents_firstPoll_bf.trans (hready hr)
    have hsleep := step_awaitTest_eq_wait (s.afterEvents [.clockRead]) (busyWait s.env.params s.width8 ++ rest)
    have hloop := step_loopTest_eq_wait hbf (pollTail s.env.params s.width8 ++ linesOut s.width8 ++ rest)
    rw [blindSleeps_after_clockRead] at hsleep
    calc commits n (s.start (s.awaitReady ++ rest))
        = commits n (s.start ([.clockRead] ++ .awaitTest :: (busyWait s.env.params s.width8 ++ rest))) := by
          simp [State.awaitReady, hr]
      _ = commits n (s.start ([.clockRead] ++ .wait 0 :: ((if Expected.sleeps s then [.waitUntil s.deadline] else []) ++
            (busyWait s.env.params s.width8 ++ rest)))) :=
          commits_congr_step (by simp [Micro.straight]) hsleep (by simp; omega)
      _ = commits n (s.start (s.firstPoll ++ .loopTest ::
            (pollTail s.env.params s.width8 ++ linesOut s.width8 ++ rest))) := by
          simp [State.firstPoll, State.pollApproach, busyWait, poll]
      _ = commits n (s.start (s.firstPoll ++ .wait 0 ::
            (pollTail s.env.params s.width8 ++ linesOut s.width8 ++ rest))) :=
          commits_congr_step (straight_firstPoll s) hloop (by omega)
      _ = commits n (s.start (s.readyAwait ++ rest)) := by
          simp [State.readyAwait, State.pollsEnd, hr]

end Sys2Proof.Machine
end

section
/-! Proofs about what a write puts on the wire (30_encoding.md R75, R76; 42_bus_encoder.md R127, R128; 43_bus_decoder.md R150): the
commits of the busy-wait before it and of its own cycles. -/

namespace Sys2Proof.Machine

/-! ## What the event lists do to directions and latches -/

theorem dirsAfter_linesIn (w : Bool) (d : Pin → Dir) :
    dirsAfter (linesIn w) d = fun p => if p.lineAllowed w then .In else d p := by
  funext p
  cases w <;> cases p <;> rfl

theorem dirsAfter_linesOut (w : Bool) (d : Pin → Dir) :
    dirsAfter (linesOut w) d = fun p => if p.lineAllowed w then .Out else d p := by
  funext p
  cases w <;> cases p <;> rfl

theorem latchesAfter_linesIn (w : Bool) (lv : Pin → Bool) : latchesAfter (linesIn w) lv = lv := by
  cases w <;> rfl

theorem latchesAfter_linesOut (w : Bool) (lv : Pin → Bool) : latchesAfter (linesOut w) lv = lv := by
  cases w <;> rfl

/-- The lines of the width carry the value, bit j on the j-th of them (42_bus_encoder.md R126). -/
theorem latchesAfter_driven {n : Nat} (w : Bool) (value : BitVec n) (lv : Pin → Bool) :
    latchesAfter ((driven (activeLines w) value).map fun (q, x) => .drive q x) lv =
      fun p => if p.lineAllowed w then value.getLsbD (p.index.val - if w then 0 else 4) else lv p := by
  funext p
  cases w <;> cases p <;> rfl

/-! ## The polls -/

/-- The latches after a poll or a dummy cycle: E is low. -/
def strobeLow (lv : Pin → Bool) : Pin → Bool := fun p => if p = .E then false else lv p

theorem strobeLow_of_low {lv : Pin → Bool} (h : lv .E = false) : strobeLow lv = lv := by
  funext p
  by_cases hp : p = .E <;> simp [strobeLow, hp, h]

theorem latchesAfter_poll (p : Params) (lv : Pin → Bool) : latchesAfter (readCycle p [.D7] .v) lv = strobeLow lv :=
  latchesAfter_strobeCycle _ _ _

theorem latchesAfter_dummyCycle (p : Params) (lv : Pin → Bool) : latchesAfter (dummyCycle p) lv = strobeLow lv :=
  latchesAfter_strobeCycle _ _ _

/-- What a poll commits: the pins as they are, E low. -/
theorem carried_poll (p : Params) {d : Pin → Dir} (hd : d .E = .Out) (lv : Pin → Bool) :
    carried d lv (readCycle p [.D7] .v) = [fun q => driving (d q) (strobeLow lv q)] := by
  rw [← latchesAfter_poll p, readCycle_eq_strobeCycle]
  exact carried_strobeCycle rfl _ hd lv

theorem carried_dummyCycle (p : Params) {d : Pin → Dir} (hd : d .E = .Out) (lv : Pin → Bool) :
    carried d lv (dummyCycle p) = [fun q => driving (d q) (strobeLow lv q)] := by
  rw [← latchesAfter_dummyCycle p, dummyCycle, readCycle_eq_strobeCycle]
  exact carried_strobeCycle rfl _ hd lv

/-- Any number of dummy cycles, begun with E low, commit the pins as they are and leave them so. -/
theorem carried_dummyCycles (p : Params) {d : Pin → Dir} (hd : d .E = .Out) {lv : Pin → Bool} (hlv : lv .E = false)
    (n : Nat) :
    carried d lv (List.replicate n (dummyCycle p)).flatten = List.replicate n fun q => driving (d q) (lv q) := by
  induction n with
  | zero => rfl
  | succ n ih =>
    have hdirs : dirsAfter (dummyCycle p) d = d := rfl
    rw [List.replicate_succ, List.flatten_cons, carried_append, carried_dummyCycle p hd, latchesAfter_dummyCycle,
      strobeLow_of_low hlv, hdirs, ih]
    rfl

theorem latchesAfter_pollTail (p : Params) (w : Bool) {lv : Pin → Bool} (hlv : lv .E = false) :
    latchesAfter (pollTail p w) lv = lv := by
  unfold pollTail
  induction (if w then p.pollTail8 else p.pollTail4) with
  | zero => rfl
  | succ n ih =>
    rw [List.replicate_succ, List.flatten_cons, latchesAfter_append, latchesAfter_dummyCycle, strobeLow_of_low hlv, ih]

theorem dirsAfter_pollTail (p : Params) (w : Bool) (d : Pin → Dir) : dirsAfter (pollTail p w) d = d := by
  unfold pollTail
  induction (if w then p.pollTail8 else p.pollTail4) with
  | zero => rfl
  | succ n ih =>
    rw [List.replicate_succ, List.flatten_cons, dirsAfter_append]
    exact ih

/-- The directions during the polls: the lines of the width are inputs (43_bus_decoder.md R142). -/
def State.pollDirs (s : State) : Pin → Dir := fun p => if p.lineAllowed s.width8 then .In else s.dirOf p

/-- The latches during the polls: RS = 0, RW = 1, E low (43_bus_decoder.md R150). -/
def State.pollLatches (s : State) : Pin → Bool :=
  strobeLow (latchesAfter [.drive .RS false, .drive .RW true] s.outOf)

theorem driving_dirOf (s : State) (p : Pin) (x : Bool) : driving (s.dirOf p) x = Expected.onLine s p x := by
  unfold Expected.onLine
  cases s.dirOf p <;> rfl

theorem Pin.ne_of_isDataLine {p : Pin} (h : p.isDataLine = true) : p ≠ .RS ∧ p ≠ .RW ∧ p ≠ .E := by
  refine ⟨?_, ?_, ?_⟩ <;> rintro rfl <;> simp [Pin.isDataLine] at h

theorem Pin.isDataLine_of_lineAllowed {w : Bool} {p : Pin} (h : p.lineAllowed w = true) : p.isDataLine = true :=
  (Bool.and_eq_true_iff.1 h).1

theorem State.pollLatches_dataLine (s : State) {p : Pin} (hp : p.isDataLine = true) : s.pollLatches p = s.outOf p := by
  obtain ⟨hRS, hRW, hE⟩ := Pin.ne_of_isDataLine hp
  simp [State.pollLatches, strobeLow, latchesAfter, Micro.onOut, hRS.symm, hRW.symm, hE]

/-- What a poll of the busy-wait commits. -/
theorem State.pollCommit (s : State) :
    Expected.PollCommit s s.width8 fun p => driving (s.pollDirs p) (s.pollLatches p) where
  target := driving_dirOf s .RS false
  direction := driving_dirOf s .RW true
  lines p hp := by simp [State.pollDirs, hp, driving]
  untouched p hdata hp := by simp [State.pollDirs, hp, State.pollLatches_dataLine s hdata, State.drives_eq]

/-- The directions `AwaitReady` leaves: the lines of the width are outputs, if the block polls. -/
def State.writeDirs (s : State) : Pin → Dir := fun p => if s.readEn && p.lineAllowed s.width8 then .Out else s.dirOf p

theorem dirsAfter_pollApproach (s : State) : dirsAfter s.pollApproach s.dirOf = s.pollDirs := by
  rw [State.pollApproach, dirsAfter_append, dirsAfter_append, dirsAfter_append]
  cases Expected.sleeps s <;> exact dirsAfter_linesIn s.width8 s.dirOf

theorem latchesAfter_pollApproach (s : State) :
    latchesAfter s.pollApproach s.outOf = latchesAfter [.drive .RS false, .drive .RW true] s.outOf := by
  rw [State.pollApproach, latchesAfter_append, latchesAfter_append, latchesAfter_linesIn]
  cases Expected.sleeps s <;> rfl

theorem keepsStrobe_pollApproach (s : State) : s.pollApproach.all Micro.keepsStrobe = true := by
  unfold State.pollApproach
  cases Expected.sleeps s <;> cases s.width8 <;> rfl

theorem dirsAfter_firstPoll (s : State) : dirsAfter s.firstPoll s.dirOf = s.pollDirs := by
  rw [State.firstPoll, dirsAfter_append, dirsAfter_pollApproach]
  rfl

theorem latchesAfter_firstPoll (s : State) : latchesAfter s.firstPoll s.outOf = s.pollLatches := by
  rw [State.firstPoll, latchesAfter_append, latchesAfter_pollApproach, latchesAfter_append, latchesAfter_poll]
  rfl

theorem carried_firstPoll {s : State} (hE : s.dirOf .E = .Out) :
    carried s.dirOf s.outOf s.firstPoll = [fun p => driving (s.pollDirs p) (s.pollLatches p)] := by
  have hbf : ∀ d lv, carried d lv [.updateBf] = [] := carried_of_keepsStrobe rfl
  have hpollE : s.pollDirs .E = .Out := hE
  rw [State.firstPoll, carried_append, carried_of_keepsStrobe (keepsStrobe_pollApproach s), dirsAfter_pollApproach,
    latchesAfter_pollApproach, carried_append, carried_poll _ hpollE, hbf]
  rfl

theorem dirsAfter_pollsEnd (s : State) :
    dirsAfter s.pollsEnd s.pollDirs = fun p => if p.lineAllowed s.width8 then .Out else s.dirOf p := by
  rw [State.pollsEnd, dirsAfter_append, dirsAfter_append, dirsAfter_pollTail, dirsAfter_linesOut]
  funext p
  by_cases hp : p.lineAllowed s.width8 = true
  · simp only [if_pos hp]
  · simp only [if_neg hp]
    exact if_neg hp

theorem latchesAfter_pollsEnd (s : State) : latchesAfter s.pollsEnd s.pollLatches = s.pollLatches := by
  rw [State.pollsEnd, latchesAfter_append, latchesAfter_append, latchesAfter_linesOut]
  exact latchesAfter_pollTail _ _ rfl

theorem carried_pollsEnd {s : State} (hE : s.dirOf .E = .Out) :
    carried s.pollDirs s.pollLatches s.pollsEnd =
      List.replicate (if s.width8 then s.env.params.pollTail8 else s.env.params.pollTail4)
        fun p => driving (s.pollDirs p) (s.pollLatches p) := by
  have hlines : ∀ d lv, carried d lv (linesOut s.width8) = [] := carried_of_keepsStrobe (by cases s.width8 <;> rfl)
  have hwait : ∀ d lv, carried d lv [.wait 0] = [] := carried_of_keepsStrobe rfl
  rw [State.pollsEnd, carried_append, carried_append, hlines, hwait, List.append_nil]
  have hpollE : s.pollDirs .E = .Out := hE
  have hlow : s.pollLatches .E = false := rfl
  exact carried_dummyCycles s.env.params hpollE hlow _

theorem dirsAfter_readyAwait (s : State) : dirsAfter s.readyAwait s.dirOf = s.writeDirs := by
  unfold State.readyAwait State.writeDirs
  cases s.readEn with
  | true => simpa [dirsAfter_firstPoll] using dirsAfter_pollsEnd s
  | false => rfl

theorem latchesAfter_readyAwait (s : State) :
    latchesAfter s.readyAwait s.outOf = if s.readEn then s.pollLatches else s.outOf := by
  unfold State.readyAwait
  cases s.readEn with
  | true => simpa [latchesAfter_firstPoll] using latchesAfter_pollsEnd s
  | false => rfl

/-- The commits of `AwaitReady`: one for the poll that reads "ready" and one for each cycle of the tail. -/
theorem carried_readyAwait {s : State} (hE : s.dirOf .E = .Out) :
    carried s.dirOf s.outOf s.readyAwait =
      List.replicate (if s.readEn then 1 + (if s.width8 then s.env.params.pollTail8 else s.env.params.pollTail4) else 0)
        fun p => driving (s.pollDirs p) (s.pollLatches p) := by
  unfold State.readyAwait
  cases s.readEn with
  | true =>
    simp only [if_true]
    rw [carried_append, carried_firstPoll hE, dirsAfter_firstPoll, latchesAfter_firstPoll, carried_pollsEnd hE,
      Nat.add_comm, List.replicate_succ]
    rfl
  | false => exact carried_of_keepsStrobe rfl _ _

/-! ## The write cycles -/

/-- The pins between `AwaitReady` and the end of a write, in the directions `d` and the latches `lv`. -/
structure State.Writing (s : State) (d : Pin → Dir) (lv : Pin → Bool) : Prop where
  dirs      : d = s.writeDirs
  target    : lv .RS = s.rs
  direction : lv .RW = if s.readEn then false else s.outOf .RW
  untouched : ∀ p : Pin, p.isDataLine = true → p.lineAllowed s.width8 = false → lv p = s.outOf p

/-- After `AwaitReady`, RS and RW the write cycles may begin (42_bus_encoder.md R127, R131). -/
theorem State.writing_writeControls (s : State) :
    s.Writing (dirsAfter s.writeControls s.writeDirs)
      (latchesAfter s.writeControls (if s.readEn then s.pollLatches else s.outOf)) := by
  unfold State.writeControls
  refine ⟨?_, ?_, ?_, fun p hdata _ => ?_⟩
  · cases s.readEn <;> rfl
  · cases s.readEn <;> rfl
  · cases s.readEn <;> rfl
  · obtain ⟨hRS, hRW, _⟩ := Pin.ne_of_isDataLine hdata
    cases s.readEn <;> simp [latchesAfter, Micro.onOut, hRS.symm, hRW.symm, s.pollLatches_dataLine hdata]

/-- One cycle of a write: the value on the lines of the width (42_bus_encoder.md R126). -/
def State.valueCycle {n : Nat} (s : State) (value : BitVec n) : List Micro :=
  writeCycle s.env.params (driven (activeLines s.width8) value)

theorem State.dirsAfter_valueCycle {n : Nat} (s : State) (value : BitVec n) (d : Pin → Dir) :
    dirsAfter (s.valueCycle value) d = d := by
  unfold State.valueCycle
  cases s.width8 <;> rfl

theorem State.latchesAfter_valueCycle {n : Nat} (s : State) (value : BitVec n) (lv : Pin → Bool) :
    latchesAfter (s.valueCycle value) lv = strobeLow fun p =>
      if p.lineAllowed s.width8 then value.getLsbD (p.index.val - if s.width8 then 0 else 4) else lv p := by
  rw [State.valueCycle, writeCycle_eq_strobeCycle, latchesAfter_strobeCycle, latchesAfter_append, latchesAfter_driven]
  rfl

theorem State.carried_valueCycle {n : Nat} (s : State) (value : BitVec n) {d : Pin → Dir} (hd : d .E = .Out)
    (lv : Pin → Bool) :
    carried d lv (s.valueCycle value) = [fun p => driving (d p) (latchesAfter (s.valueCycle value) lv p)] := by
  have hheld : ((driven (activeLines s.width8) value).map (fun (q, x) => Micro.drive q x) ++
      [Micro.wait s.env.params.tPw]).all Micro.keepsStrobe = true := by
    cases s.width8 <;> rfl
  have hcycle := carried_strobeCycle hheld s.env.params.tPw hd lv
  have hdirs := s.dirsAfter_valueCycle value d
  rw [← writeCycle_eq_strobeCycle] at hcycle
  rw [State.valueCycle] at hdirs ⊢
  rw [hcycle, hdirs]

/-- A cycle of a write touches neither RS, RW nor a line outside the width. -/
theorem State.Writing.valueCycle {s : State} {d : Pin → Dir} {lv : Pin → Bool} (h : s.Writing d lv) {n : Nat}
    (value : BitVec n) : s.Writing (dirsAfter (s.valueCycle value) d) (latchesAfter (s.valueCycle value) lv) := by
  rw [s.dirsAfter_valueCycle, s.latchesAfter_valueCycle]
  refine ⟨h.dirs, h.target, h.direction, fun p hdata hp => ?_⟩
  obtain ⟨_, _, hE⟩ := Pin.ne_of_isDataLine hdata
  simp [strobeLow, hE, hp, h.untouched p hdata hp]

/-- What is driven after a cycle of a write, the lines of the width carrying `bit`, is what its edge must commit. -/
theorem State.Writing.commit {s : State} {d : Pin → Dir} {lv : Pin → Bool} (h : s.Writing d lv) {bit : Pin → Bool}
    (hbit : ∀ p : Pin, p.lineAllowed s.width8 = true → lv p = bit p) :
    Expected.WriteCommit s s.rs s.width8 bit fun p => driving (d p) (lv p) := by
  obtain ⟨rfl, htarget, hdirection, huntouched⟩ := h
  have hcontrol : ∀ p : Pin, p.lineAllowed s.width8 = false → s.writeDirs p = s.dirOf p := by
    intro p hp
    simp [State.writeDirs, hp]
  refine ⟨?_, ?_, fun p hp => ?_, fun p hdata hp => ?_⟩
  · rw [htarget, hcontrol .RS rfl, driving_dirOf]
  · rw [hdirection, hcontrol .RW rfl]
    split
    · exact driving_dirOf s .RW false
    · rfl
  · rw [hbit p hp, State.writeDirs, hp, Bool.and_true]
    split
    · rfl
    · exact driving_dirOf s p (bit p)
  · rw [huntouched p hdata hp, hcontrol p hp, State.drives_eq]

/-- The cycles of a write: the byte, or its high and then its low nibble (42_bus_encoder.md R127, R128). -/
def State.writeCycles (s : State) : List Micro :=
  if s.width8 then s.valueCycle s.wbyte else s.valueCycle (hiNibble s.wbyte) ++ s.valueCycle (loNibble s.wbyte)

/-- What a write does after `AwaitReady`. -/
def State.writeTail (s : State) : List Micro := s.writeControls ++ s.writeCycles ++ recordDeadlineEvents ++ [.respond]

theorem State.writeEvents_eq (s : State) : s.writeEvents = s.awaitReady ++ s.writeTail := by
  cases hw : s.width8 <;>
    simp [State.writeEvents, State.writeTail, State.writeCycles, State.valueCycle, State.write8, State.write4, activeLines,
      hw]

theorem straight_writeTail (s : State) : ∀ op ∈ s.writeTail, op.straight = true := by
  rw [← List.all_eq_true]
  unfold State.writeTail State.writeControls State.writeCycles State.valueCycle
  cases s.readEn <;> cases s.width8 <;> rfl

theorem length_writeTail (s : State) : s.writeTail.length = (if s.readEn then 1 else 0) + if s.width8 then 16 else 20 := by
  unfold State.writeTail State.writeControls State.writeCycles State.valueCycle
  cases s.readEn <;> cases s.width8 <;> rfl

/-- The commits of what follows `AwaitReady` are those of the write cycles. -/
theorem carried_writeTail (s : State) (d : Pin → Dir) (lv : Pin → Bool) :
    carried d lv s.writeTail =
      carried (dirsAfter s.writeControls d) (latchesAfter s.writeControls lv) s.writeCycles := by
  have hcontrols : s.writeControls.all Micro.keepsStrobe = true := by
    unfold State.writeControls
    cases s.readEn <;> rfl
  have hrecord : ∀ d lv, carried d lv recordDeadlineEvents = [] := carried_of_keepsStrobe rfl
  have hrespond : ∀ d lv, carried d lv [.respond] = [] := carried_of_keepsStrobe rfl
  rw [State.writeTail, carried_append, carried_append, carried_append, carried_of_keepsStrobe hcontrols, hrecord, hrespond]
  simp

/-- The edge of one cycle commits its value. -/
theorem State.Writing.exists_commit {s : State} {d : Pin → Dir} {lv : Pin → Bool} (h : s.Writing d lv)
    (hE : s.dirOf .E = .Out) {n : Nat} (value : BitVec n) {bit : Pin → Bool}
    (hbit : ∀ p : Pin, p.lineAllowed s.width8 = true →
      value.getLsbD (p.index.val - if s.width8 then 0 else 4) = bit p) :
    ∃ c, carried d lv (s.valueCycle value) = [c] ∧ Expected.WriteCommit s s.rs s.width8 bit c := by
  have hd : d .E = .Out := by
    rw [h.dirs]
    simpa [State.writeDirs, Pin.lineAllowed, Pin.isDataLine] using hE
  have hnext := h.valueCycle value
  rw [s.dirsAfter_valueCycle] at hnext
  refine ⟨_, s.carried_valueCycle value hd lv, hnext.commit fun p hp => ?_⟩
  obtain ⟨_, _, hpE⟩ := Pin.ne_of_isDataLine (Pin.isDataLine_of_lineAllowed hp)
  simp [s.latchesAfter_valueCycle, strobeLow, hpE, hp, hbit p hp]

/-- D4 to D7 carry bits 4 to 7 of the byte in the cycle of the high nibble. -/
theorem hiNibble_getLsbD {p : Pin} (hp : p.lineAllowed false = true) (b : Byte) :
    (hiNibble b).getLsbD (p.index.val - 4) = b.getLsbD p.index.val := by
  cases p <;> simp [Pin.lineAllowed, Pin.isDataLine, Pin.isUpperLine] at hp <;> simp [hiNibble, Pin.index]

/-- D4 to D7 carry bits 0 to 3 of the byte in the cycle of the low nibble. -/
theorem loNibble_getLsbD {p : Pin} (hp : p.lineAllowed false = true) (b : Byte) :
    (loNibble b).getLsbD (p.index.val - 4) = b.getLsbD (p.index.val - 4) := by
  cases p <;> simp [Pin.lineAllowed, Pin.isDataLine, Pin.isUpperLine] at hp <;> simp [loNibble, Pin.index]

/-- The edge of an 8-bit write. -/
theorem State.Writing.exists_commit8 {s : State} {d : Pin → Dir} {lv : Pin → Bool} (h : s.Writing d lv)
    (hE : s.dirOf .E = .Out) (hw : s.width8 = true) :
    ∃ c, carried d lv s.writeCycles = [c] ∧
      Expected.WriteCommit s s.rs s.width8 (fun p => s.wbyte.getLsbD p.index.val) c := by
  rw [State.writeCycles, if_pos hw]
  exact h.exists_commit hE s.wbyte fun p _ => by simp [hw]

/-- The two edges of a 4-bit write. -/
theorem State.Writing.exists_commits4 {s : State} {d : Pin → Dir} {lv : Pin → Bool} (h : s.Writing d lv)
    (hE : s.dirOf .E = .Out) (hw : s.width8 = false) :
    ∃ c₁ c₂, carried d lv s.writeCycles = [c₁, c₂] ∧
      Expected.WriteCommit s s.rs s.width8 (fun p => s.wbyte.getLsbD p.index.val) c₁ ∧
      Expected.WriteCommit s s.rs s.width8 (fun p => s.wbyte.getLsbD (p.index.val - 4)) c₂ := by
  obtain ⟨c₁, hc₁, h₁⟩ := h.exists_commit hE (hiNibble s.wbyte) (bit := fun p => s.wbyte.getLsbD p.index.val)
    fun p hp => by
      rw [hw] at hp ⊢
      exact hiNibble_getLsbD hp s.wbyte
  obtain ⟨c₂, hc₂, h₂⟩ := (h.valueCycle (hiNibble s.wbyte)).exists_commit hE (loNibble s.wbyte)
    (bit := fun p => s.wbyte.getLsbD (p.index.val - 4)) fun p hp => by
      rw [hw] at hp ⊢
      exact loNibble_getLsbD hp s.wbyte
  refine ⟨c₁, c₂, ?_, h₁, h₂⟩
  rw [State.writeCycles, if_neg (by simp [hw]), carried_append, hc₁, hc₂]
  rfl

/-! ## The whole write -/

/-- The commits of a write from `AwaitReady` to the response, if with `READ_EN` = 1 the first poll reads "ready". -/
theorem commits_writeEvents {s : State}
    (hready : s.readEn = true →
      s.levelAt ((if s.width8 then 14 else 10) + (Expected.sleeps s).toNat) .D7 = false) :
    commits (s.readyAwait.length + s.writeTail.length) (s.start s.writeEvents) =
      carried s.dirOf s.outOf s.readyAwait ++
        carried (dirsAfter s.writeControls s.writeDirs)
          (latchesAfter s.writeControls (if s.readEn then s.pollLatches else s.outOf)) s.writeCycles := by
  have hstraight : ∀ op ∈ s.readyAwait ++ s.writeTail, op.straight = true :=
    List.forall_mem_append.2 ⟨straight_readyAwait s, straight_writeTail s⟩
  have hrun := commits_straight (s.readyAwait ++ s.writeTail) hstraight s []
  rw [List.append_nil, List.length_append] at hrun
  rw [State.writeEvents_eq, commits_awaitReady s s.writeTail hready (Nat.le_add_right _ _), hrun, carried_append,
    dirsAfter_readyAwait, latchesAfter_readyAwait, carried_writeTail]

/-- What the run of a write of `b` from `t` puts on the wire, in the pins and the configuration of `s` (30_encoding.md R75,
R76). -/
def State.WriteOnTheWire (s t : State) (b : Byte) (rs w : Bool) : Prop :=
  (s.readEn = true → t.levelAt ((if w then 14 else 10) + (Expected.sleeps t).toNat) .D7 = false) →
    let tail := if w then s.env.params.pollTail8 else s.env.params.pollTail4
    let await := if s.readEn then (if w then 27 else 19) + (Expected.sleeps t).toNat + 4 * tail else 0
    ∃ polls, polls.length = (if s.readEn then 1 + tail else 0) ∧ (∀ c ∈ polls, Expected.PollCommit s w c) ∧
      (w = true → ∃ c, commits (await + 17) t = polls ++ [c] ∧
        Expected.WriteCommit s rs w (fun p => b.getLsbD p.index.val) c) ∧
      (w = false → ∃ c₁ c₂, commits (await + 21) t = polls ++ [c₁, c₂] ∧
        Expected.WriteCommit s rs w (fun p => b.getLsbD p.index.val) c₁ ∧
        Expected.WriteCommit s rs w (fun p => b.getLsbD (p.index.val - 4)) c₂)

/-- The polls come first, then the cycles of the byte. -/
theorem State.writeOnTheWire (s : State) (hE : s.dirOf .E = .Out) :
    s.WriteOnTheWire (s.start s.writeEvents) s.wbyte s.rs s.width8 := by
  intro hready tail await
  have hrun := commits_writeEvents hready
  have hlen : s.readyAwait.length + s.writeTail.length = await + if s.width8 then 17 else 21 := by
    change _ = (if s.readEn then (if s.width8 then 27 else 19) + (Expected.sleeps s).toNat +
      4 * (if s.width8 then s.env.params.pollTail8 else s.env.params.pollTail4) else 0) + _
    rw [length_readyAwait, length_writeTail]
    cases s.readEn <;> cases s.width8 <;> simp
  rw [hlen, carried_readyAwait hE] at hrun
  have hwriting := s.writing_writeControls
  refine ⟨_, List.length_replicate, fun c hc => (List.eq_of_mem_replicate hc) ▸ s.pollCommit, fun hw => ?_, fun hw => ?_⟩
  · obtain ⟨c, hc, hcommit⟩ := hwriting.exists_commit8 hE hw
    rw [hc, if_pos hw] at hrun
    exact ⟨c, hrun, hcommit⟩
  · obtain ⟨c₁, c₂, hc, hcommits⟩ := hwriting.exists_commits4 hE hw
    rw [hc, if_neg (by simp [hw])] at hrun
    exact ⟨c₁, c₂, hrun, hcommits⟩

/-! ## From the state that writes to the state before the request -/

theorem onLine_congr {s u : State} (hd : u.dirOf = s.dirOf) : Expected.onLine u = Expected.onLine s := by
  funext p x
  rw [Expected.onLine, hd, Expected.onLine]

theorem drives_congr {s u : State} (hd : u.dirOf = s.dirOf) (ho : u.outOf = s.outOf) : u.drives = s.drives := by
  funext p
  rw [State.drives_eq, State.drives_eq, hd, ho]

/-- What goes on the wire is stated in the pins and the configuration only: a state with the same is as good. -/
theorem State.WriteOnTheWire.of_samePins {s u t : State} {b : Byte} {rs w : Bool} (h : u.WriteOnTheWire t b rs w)
    (hr : u.readEn = s.readEn) (hp : u.env.params = s.env.params) (hd : u.dirOf = s.dirOf) (ho : u.outOf = s.outOf) :
    s.WriteOnTheWire t b rs w := by
  have hline := onLine_congr hd
  have hdrives := drives_congr hd ho
  have hpoll : ∀ c, Expected.PollCommit u w c → Expected.PollCommit s w c := fun c hc =>
    ⟨hline ▸ hc.target, hline ▸ hc.direction, hc.lines, hdrives ▸ hc.untouched⟩
  have hwrite : ∀ bit c, Expected.WriteCommit u rs w bit c → Expected.WriteCommit s rs w bit c := fun bit c hc =>
    ⟨hline ▸ hc.target, hr ▸ hline ▸ hdrives ▸ hc.direction, hr ▸ hline ▸ hc.lines, hdrives ▸ hc.untouched⟩
  unfold State.WriteOnTheWire at h ⊢
  rw [hr, hp] at h
  intro hready
  obtain ⟨polls, hlen, hpolls, h8, h4⟩ := h hready
  refine ⟨polls, hlen, fun c hc => hpoll c (hpolls c hc), fun hw => ?_, fun hw => ?_⟩
  · obtain ⟨c, hc, hcommit⟩ := h8 hw
    exact ⟨c, hc, hwrite _ _ hcommit⟩
  · obtain ⟨c₁, c₂, hc, h₁, h₂⟩ := h4 hw
    exact ⟨c₁, c₂, hc, hwrite _ _ h₁, hwrite _ _ h₂⟩

/-- A block that drives E has it as an output. -/
theorem State.dirOf_of_drives {s : State} {p : Pin} {x : Bool} (h : s.drives p = some x) : s.dirOf p = .Out := by
  cases hd : s.dirOf p with
  | Out => rfl
  | In => simp [State.drives_of_dirOf_in hd] at h

end Sys2Proof.Machine

open Sys2Proof.Machine

/-- Settles O41: with its first poll reading "ready" a write runs as a straight list of events, whose falling edges are those
of the polls and of the byte's cycles; `Negotiate`'s step before it has none. -/
theorem writesPutTheByteOnTheWire : Obligations.WritesPutTheByteOnTheWire := by
  intro s i b rs w hready hE h
  have hout := State.dirOf_of_drives hE
  rcases h with ⟨rfl, rfl, rfl⟩ | ⟨hb, hwf, rfl, rfl⟩
  · have hwire := (s.latchWrite 0b00#2 b).writeOnTheWire hout
    exact ⟨_, (s.latchWrite 0b00#2 b).startWrite, State.serve_ready hready, rfl, rfl, hwire.of_samePins rfl rfl rfl rfl⟩
  · let u := s.latchWrite 0b01#2 b
    have hnegotiate : ∀ op ∈ [Micro.negotiate], op.straight = true := by simp [Micro.straight]
    have hstep := steps_straight [.negotiate] hnegotiate u u.negotiate.writeEvents
    have hedges := commits_straight [.negotiate] hnegotiate u u.negotiate.writeEvents
    have hwire := u.envMove.negotiate.writeOnTheWire hout
    exact ⟨u.startInstruction, _, (exec_instructionByte hb hwf).trans (State.serve_ready hready), hstep,
      hedges.trans (carried_of_keepsStrobe rfl _ _), hwire.of_samePins rfl rfl rfl rfl⟩
end

section
/-! Proofs about the host port and the data lines (20_memory.md R50, R55, R58; 46_host_operations.md R191): the instruction an
access stands for, what a step takes from the port, and the lines outside the width. -/

namespace Sys2Proof.Machine

/-! ## The instruction an access stands for -/

theorem fetched_write_base (p : Params) (v : Nat) : fetched p (.write p.base v) = some (.wrd (BitVec.ofNat 8 v)) := by
  simp [fetched, HostRequest.toPort, decodeWord]

theorem fetched_write_base_succ (p : Params) (v : Nat) :
    fetched p (.write (p.base + 1) v) = some (.wri (BitVec.ofNat 8 v)) := by
  simp [fetched, HostRequest.toPort, decodeWord]

theorem fetched_read_base (p : Params) : fetched p (.read p.base) = some (.rdd 0) := by
  simp [fetched, HostRequest.toPort, decodeWord, decodeHostReq]

theorem fetched_read_base_succ (p : Params) : fetched p (.read (p.base + 1)) = some (.rds 0) := by
  simp [fetched, HostRequest.toPort, decodeWord, decodeHostReq]

/-- An access to any other address does not reach the block (20_memory.md R58). -/
theorem fetched_foreign {p : Params} {a : Nat} (hbase : a ≠ p.base) (hsucc : a ≠ p.base + 1) (v : Nat) :
    fetched p (.write a v) = none ∧ fetched p (.read a) = none := by
  simp [fetched, HostRequest.toPort, hbase, hsucc]

/-! ## The lines outside the width -/

/-- An operational event touches no data line outside the width (20_memory.md R55). -/
theorem Micro.operational_untouched {readEn w : Bool} {op : Micro} (h : op.operational readEn w = true) {p : Pin}
    (hdata : p.isDataLine = true) (hp : p.lineAllowed w = false) :
    (∀ y, op.onOut p y = y) ∧ ∀ y, op.onDir p y = y := by
  cases op with
  | drive q x =>
    have hq : q ≠ p := by
      rintro rfl
      obtain ⟨hRS, hRW, hE⟩ := Pin.ne_of_isDataLine hdata
      simp [Micro.operational, hp, hRS, hRW, hE] at h
    simp [Micro.onOut, Micro.onDir, hq]
  | pinMode q m =>
    have hq : q ≠ p := by
      rintro rfl
      simp [Micro.operational, hp] at h
    simp [Micro.onOut, Micro.onDir, hq]
  | _ => exact ⟨fun _ => rfl, fun _ => rfl⟩

/-- An event of an installed block touches no data line outside the width in force. -/
theorem SequencerInv.installed_untouched {s : State} (hi : SequencerInv s) (hin : s.installed = true) {op : Micro}
    {rest : List Micro} (hs : s.seq = op :: rest) {p : Pin} (hdata : p.isDataLine = true)
    (hp : p.lineAllowed s.width8 = false) : (∀ y, op.onOut p y = y) ∧ ∀ y, op.onDir p y = y := by
  rcases hi.next_installed hin hs with hop | rfl | hop
  · simp only [setupLast, List.mem_cons, List.not_mem_nil, or_false] at hop
    rcases hop with rfl | rfl | rfl | rfl <;> exact ⟨fun _ => rfl, fun _ => rfl⟩
  · exact ⟨fun _ => rfl, fun _ => rfl⟩
  · exact Micro.operational_untouched hop hdata hp

/-- D0 to D3 are data lines outside the 4-bit width. -/
theorem Pin.isUpperLine_outside_fourBit {p : Pin} (h : p.isUpperLine = true) :
    p.isDataLine = true ∧ p.lineAllowed false = false := by
  cases p <;> simp_all [Pin.isUpperLine, Pin.isDataLine, Pin.lineAllowed]

end Sys2Proof.Machine

open Sys2Proof.Machine

/-- Settles O14: an event leaves the held requests alone, and so does an idle block that holds none; an idle block that holds
some takes the first, whether or not it reaches the block, and accepting an instruction takes no other. -/
theorem requestsAreTakenInOrder : Obligations.RequestsAreTakenInOrder := by
  intro s t h
  rcases step_next_cases h with ⟨op, rest, _, rfl⟩ | ⟨_, _, rfl⟩ | ⟨hs, q, rest, hq, _, rfl⟩ |
    ⟨hs, q, rest, i, hq, _, he⟩
  · obtain ⟨_, _, _, _, _, _, _, hhost⟩ := (s.envMove.start rest).event_frame op
    exact .inl hhost
  · exact .inl rfl
  · exact .inr ⟨hs, q, hq⟩
  · obtain ⟨_, _, henv⟩ := exec_keeps_tracker he
    exact .inr ⟨hs, q, by simpa [henv] using hq⟩

/-- Settles O49: an installed block keeps every pull-up, and of its events none drives or turns a data line outside the
width. -/
theorem upperLinesUntouchedInFourBit : Obligations.UpperLinesUntouchedInFourBit := by
  intro s t hi hin hw h p hp
  obtain ⟨hdata, houtside⟩ := Pin.isUpperLine_outside_fourBit hp
  obtain ⟨_, _, _, hpull, _⟩ := configurationIsSetOnce s t hi hin h
  have hpullOf : t.pullOf p = s.pullOf p := by simp [State.pullOf, hpull]
  rcases step_event_or_sameRecord h with ⟨op, rest, hs, rfl⟩ | hsame
  · obtain ⟨hout, hdir⟩ := hi.installed_untouched hin hs hdata (hw ▸ houtside)
    exact ⟨by simp [State.event_outOf, hout], by simp [State.event_dirOf, hdir], hpullOf⟩
  · exact ⟨by simp [State.outOf, hsame.out], by simp [State.dirOf, hsame.dir], hpullOf⟩

/-- Settles O4: the four accesses stand for the four operations, and an idle block drops any other. -/
theorem hostAccessMap : Obligations.HostAccessMap := by
  refine ⟨fun p v => ⟨fetched_write_base p v, fetched_write_base_succ p v, fetched_read_base p, fetched_read_base_succ p⟩,
    fun s a v q rest hs hbase hsucc hq hhost => ?_⟩
  obtain ⟨hwrite, hread⟩ := fetched_foreign hbase hsucc v
  rcases hq with rfl | rfl
  · exact step_foreign hs hhost hwrite
  · exact step_foreign hs hhost hread
end

section
/-! Proofs about the encoding (30_encoding.md R70 to R74, R79): the value of each class's byte, that the encoder's words are all
words and the decoder reads each of them back, and that no two rows of the opcode table share a byte. -/

namespace Sys2Proof

/-! ## The value of a class's byte (40_command_bytes.md R91 to R98) -/

@[simp] theorem homeByte_toNat (x : Bool) : (homeByte x).toNat = 0x02 + x.toNat := by revert x; decide

@[simp] theorem entryModeByte_toNat (i h : Bool) : (entryModeByte i h).toNat = 0x04 + 2 * i.toNat + h.toNat := by
  revert i h; decide

@[simp] theorem onOffByte_toNat (d c b : Bool) : (onOffByte d c b).toNat = 0x08 + 4 * d.toNat + 2 * c.toNat + b.toNat := by
  revert d c b; decide

@[simp] theorem shiftByte_toNat (c r : Bool) (x : BitVec 2) :
    (shiftByte c r x).toNat = 0x10 + 8 * c.toNat + 4 * r.toNat + x.toNat := by
  revert c r x; decide

@[simp] theorem funcSetByte_toNat (l n f : Bool) (x : BitVec 2) :
    (funcSetByte l n f x).toNat = 0x20 + 16 * l.toNat + 8 * n.toNat + 4 * f.toNat + x.toNat := by
  revert l n f x; decide

/-- An address in range shares no bit with the class's leading one, so "or" is addition. -/
theorem setCgramByte_toNat {a : Nat} (h : a ≤ 0x3F) : (setCgramByte a).toNat = 0x40 + a := by
  have hor : 0x40 + a = 0x40 ||| a := Nat.two_pow_add_eq_or_of_lt (i := 6) (by omega) 1
  simp [setCgramByte, hor, Nat.mod_eq_of_lt (show a < 256 by omega)]

theorem setDdramByte_toNat {a : Nat} (h : a ≤ 0x7F) : (setDdramByte a).toNat = 0x80 + a := by
  have hor : 0x80 + a = 0x80 ||| a := Nat.two_pow_add_eq_or_of_lt (i := 7) (by omega) 1
  simp [setDdramByte, hor, Nat.mod_eq_of_lt (show a < 256 by omega)]

/-! ## Decoding what the encoder makes -/

theorem wellFormed_setCgram {a : Nat} : WellFormed (.setCgram a) ↔ a ≤ 0x3F := decide_eq_true_iff

theorem wellFormed_setDdram {a : Nat} : WellFormed (.setDdram a) ↔ a ≤ 0x7F := decide_eq_true_iff

@[simp] theorem decodeCmdByte_homeByte (x : Bool) : decodeCmdByte (homeByte x) = .home x := by revert x; decide

@[simp] theorem decodeCmdByte_entryModeByte (i h : Bool) : decodeCmdByte (entryModeByte i h) = .entryMode i h := by
  revert i h; decide

@[simp] theorem decodeCmdByte_onOffByte (d c b : Bool) : decodeCmdByte (onOffByte d c b) = .onOff d c b := by
  revert d c b; decide

@[simp] theorem decodeCmdByte_shiftByte (c r : Bool) (x : BitVec 2) : decodeCmdByte (shiftByte c r x) = .shift c r x := by
  revert c r x; decide

@[simp] theorem decodeCmdByte_funcSetByte (l n f : Bool) (x : BitVec 2) :
    decodeCmdByte (funcSetByte l n f x) = .funcSet l n f x := by
  revert l n f x; decide

theorem decodeWord_encode {i : Instr} (h : WellFormed i) : decodeWord (encode i) = i := by
  cases i with
  | setup r m k => exact decodeSetupReq_append r m k
  | wrd d => exact decodeHostReq_wrd d
  | wri d => exact decodeHostReq_wri d
  | rdd x => exact decodeHostReq_rdd x
  | rds x => exact decodeHostReq_rds x
  | clear => rfl
  | home x => exact decodeCmdByte_homeByte x
  | entryMode inc sh => exact decodeCmdByte_entryModeByte inc sh
  | onOff d c b => exact decodeCmdByte_onOffByte d c b
  | shift c r x => exact decodeCmdByte_shiftByte c r x
  | funcSet l n f x => exact decodeCmdByte_funcSetByte l n f x
  | setCgram a => exact decodeCmdByte_setCgramByte (wellFormed_setCgram.1 h)
  | setDdram a => exact decodeCmdByte_setDdramByte (wellFormed_setDdram.1 h)
  | undef00 => rfl

/-! ## Every word is the word of an instruction -/

/-- The leading bit of a vector and the rest, by their value. -/
theorem exists_toNat_eq {n : Nat} (b : BitVec (n + 1)) :
    ∃ (x : Bool) (c : BitVec n), b.toNat = x.toNat * 2 ^ n + c.toNat :=
  ⟨b.msb, b.setWidth n, by
    rw [← Nat.shiftLeft_eq, ← BitVec.toNat_cons', BitVec.cons_msb_setWidth]⟩

/-- The class of a byte is found by its most significant 1 bit (30_encoding.md R73): bit after bit is split off until one is
set, and what is left are the operands. -/
theorem exists_encode_eq_cmdbyte (b : Byte) : ∃ i, WellFormed i ∧ encode i = .cmdbyte b := by
  suffices h : ∃ i c, WellFormed i ∧ encode i = .cmdbyte c ∧ c.toNat = b.toNat by
    obtain ⟨i, c, hw, he, hc⟩ := h
    exact ⟨i, hw, BitVec.eq_of_toNat_eq hc ▸ he⟩
  obtain ⟨x₇, c₇, h₇⟩ := exists_toNat_eq b
  cases x₇
  case true =>
    have ha : c₇.toNat ≤ 0x7F := by omega
    exact ⟨.setDdram c₇.toNat, _, wellFormed_setDdram.2 ha, rfl, by simp [setDdramByte_toNat ha, h₇]⟩
  obtain ⟨x₆, c₆, h₆⟩ := exists_toNat_eq c₇
  cases x₆
  case true =>
    have ha : c₆.toNat ≤ 0x3F := by omega
    exact ⟨.setCgram c₆.toNat, _, wellFormed_setCgram.2 ha, rfl, by simp [setCgramByte_toNat ha, h₆, h₇]⟩
  obtain ⟨x₅, c₅, h₅⟩ := exists_toNat_eq c₆
  obtain ⟨x₄, c₄, h₄⟩ := exists_toNat_eq c₅
  obtain ⟨x₃, c₃, h₃⟩ := exists_toNat_eq c₄
  obtain ⟨x₂, c₂, h₂⟩ := exists_toNat_eq c₃
  have hc₆ : b.toNat = c₆.toNat := by simp [h₆, h₇]
  have hc₂ : b.toNat = 32 * x₅.toNat + 16 * x₄.toNat + 8 * x₃.toNat + 4 * x₂.toNat + c₂.toNat := by omega
  cases x₅
  case true => exact ⟨.funcSet x₄ x₃ x₂ c₂, _, rfl, rfl, by simp [hc₂]⟩
  cases x₄
  case true => exact ⟨.shift x₃ x₂ c₂, _, rfl, rfl, by simp [hc₂]⟩
  obtain ⟨x₁, c₁, h₁⟩ := exists_toNat_eq c₂
  obtain ⟨x₀, c₀, h₀⟩ := exists_toNat_eq c₁
  have hb : b.toNat = 8 * x₃.toNat + 4 * x₂.toNat + 2 * x₁.toNat + x₀.toNat := by
    simp only [Bool.toNat_false] at hc₂
    omega
  cases x₃
  case true => exact ⟨.onOff x₂ x₁ x₀, _, rfl, rfl, by simp [hb]⟩
  cases x₂
  case true => exact ⟨.entryMode x₁ x₀, _, rfl, rfl, by simp [hb]⟩
  cases x₁
  case true => exact ⟨.home x₀, _, rfl, rfl, by simp [hb]⟩
  cases x₀
  case true => exact ⟨.clear, _, rfl, rfl, by simp [hb, clearByte]⟩
  exact ⟨.undef00, _, rfl, rfl, by simp [hb, undef00Byte]⟩

theorem exists_eq_append {m n : Nat} (w : BitVec (m + n)) : ∃ (h : BitVec m) (l : BitVec n), w = h ++ l :=
  ⟨w.extractLsb' n m, w.extractLsb' 0 n, by
    rw [BitVec.extractLsb'_append_extractLsb'_eq_extractLsb' (by omega), BitVec.extractLsb'_eq_self]⟩

theorem exists_eq_ofBool_append_ofBool (h : BitVec 2) : ∃ x y : Bool, h = BitVec.ofBool x ++ BitVec.ofBool y := by
  revert h; decide

theorem exists_encode_eq (w : PortWord) : ∃ i, WellFormed i ∧ encode i = w := by
  cases w with
  | hostreq w =>
    obtain ⟨h, d, rfl⟩ := exists_eq_append (m := 2) (n := 8) w
    obtain ⟨dir, sel, rfl⟩ := exists_eq_ofBool_append_ofBool h
    cases dir <;> cases sel
    · exact ⟨.wrd d, rfl, rfl⟩
    · exact ⟨.wri d, rfl, rfl⟩
    · exact ⟨.rdd d, rfl, rfl⟩
    · exact ⟨.rds d, rfl, rfl⟩
  | setupreq w =>
    obtain ⟨h, k, rfl⟩ := exists_eq_append (m := 2) (n := 11) w
    obtain ⟨r, m, rfl⟩ := exists_eq_ofBool_append_ofBool h
    exact ⟨.setup r m k, rfl, rfl⟩
  | cmdbyte b => exact exists_encode_eq_cmdbyte b

/-- The decoder inverts the encoder, and the encoder reaches every word: so the encoder inverts the decoder too. -/
theorem wellFormed_and_encode_decodeWord (w : PortWord) : WellFormed (decodeWord w) ∧ encode (decodeWord w) = w := by
  obtain ⟨i, hw, rfl⟩ := exists_encode_eq w
  rw [decodeWord_encode hw]
  exact ⟨hw, rfl⟩

theorem encode_decodeCmdByte (b : Byte) : encode (decodeCmdByte b) = .cmdbyte b :=
  (wellFormed_and_encode_decodeWord (.cmdbyte b)).2

/-! ## The rows of the opcode table -/

theorem Row.holds_iff {r : Row} {w : PortWord} :
    r.holds w = true ↔ w.formatBits.1 = r.format ∧ w.formatBits.2 &&& r.mask = r.pat := by
  simp [Row.holds]

theorem row_holds_encode {i : Instr} (h : WellFormed i) : i.row.holds (encode i) = true := by
  cases i with
  | setup r m k => exact Laws.RowMatch.setup r m k h
  | wrd d => exact Laws.RowMatch.wrd d h
  | wri d => exact Laws.RowMatch.wri d h
  | rdd x => exact Laws.RowMatch.rdd x h
  | rds x => exact Laws.RowMatch.rds x h
  | clear => exact Laws.RowMatch.clear h
  | home x => exact Laws.RowMatch.home x h
  | entryMode inc sh => exact Laws.RowMatch.entryMode inc sh h
  | onOff d c b => exact Laws.RowMatch.onOff d c b h
  | shift c r x => exact Laws.RowMatch.shift c r x h
  | funcSet l n f x => exact Laws.RowMatch.funcSet l n f x h
  | setCgram a => exact Laws.RowMatch.setCgram a h
  | setDdram a => exact Laws.RowMatch.setDdram a h
  | undef00 => exact Laws.RowMatch.undef00 h

theorem row_decodeCmdByte_holds (b : Byte) : (decodeCmdByte b).row.holds (.cmdbyte b) = true := by
  obtain ⟨hw, he⟩ := wellFormed_and_encode_decodeWord (.cmdbyte b)
  exact he ▸ row_holds_encode hw

theorem row_mem_cmdRows {i : Instr} {b : Byte} (h : encode i = .cmdbyte b) : i.row ∈ cmdRows := by
  cases i with
  | setup | wrd | wri | rdd | rds => cases h
  | _ => simp [Instr.row, cmdRows]

/-- Two rows that hold of one word fix the bits they have in common alike. -/
theorem Row.pat_and_mask_eq {r r' : Row} {w : PortWord} (h : r.holds w = true) (h' : r'.holds w = true) :
    r.pat &&& r'.mask = r'.pat &&& r.mask := by
  rw [← (Row.holds_iff.1 h).2, ← (Row.holds_iff.1 h').2, Nat.and_right_comm]

/-- "The nine patterns are disjoint" (30_encoding.md R73): two different rows ask for different values of a bit that both
fix. -/
theorem cmdRows_eq_of_pat_and_mask_eq :
    ∀ r ∈ cmdRows, ∀ r' ∈ cmdRows, r.pat &&& r'.mask = r'.pat &&& r.mask → r = r' := by decide

end Sys2Proof

/-! ## The predicates of a command byte (30_encoding.md R74) -/

namespace Sys2Proof.Machine

theorem hiNibble_toNat (b : Byte) : (hiNibble b).toNat = b.toNat / 16 := by
  rw [hiNibble, BitVec.extractLsb'_toNat, Nat.shiftRight_eq_div_pow]
  omega

theorem isLong_eq (b : Byte) : isLong b = decide (b.toNat % 64 ≤ 3) := by
  simp [isLong, BitVec.ule, BitVec.extractLsb'_toNat]

theorem isFS8_eq (b : Byte) : isFS8 b = decide (b.toNat / 16 = 3) := by
  simp [isFS8, ← hiNibble_toNat, BitVec.toNat_eq, beq_eq_decide]

theorem isFS4_eq (b : Byte) : isFS4 b = decide (b.toNat / 16 = 2) := by
  simp [isFS4, ← hiNibble_toNat, BitVec.toNat_eq, beq_eq_decide]

/-- FUNCSET is the class of the values 0x20 to 0x3F (40_command_bytes.md R96, R100). -/
theorem decodeCmdByte_eq_funcSet_iff (b : Byte) :
    (∃ l n f x, decodeCmdByte b = .funcSet l n f x) ↔ b.toNat / 32 = 1 := by
  have hbit (k : Nat) : b.getLsbD k = decide (b.toNat / 2 ^ k % 2 = 1) := Nat.testBit_eq_decide_div_mod_eq
  constructor
  · rintro ⟨l, n, f, x, h⟩
    have hb : PortWord.cmdbyte b = .cmdbyte (funcSetByte l n f x) := by rw [← encode_decodeCmdByte, h]; rfl
    injection hb with hb
    rw [hb, funcSetByte_toNat]
    have hl := l.toNat_le
    have hn := n.toNat_le
    have hf := f.toNat_le
    omega
  · intro h
    have h₇ : b.getLsbD 7 = false := by rw [hbit]; exact decide_eq_false (by omega)
    have h₆ : b.getLsbD 6 = false := by rw [hbit]; exact decide_eq_false (by omega)
    have h₅ : b.getLsbD 5 = true := by rw [hbit]; exact decide_eq_true (by omega)
    exact ⟨b.getLsbD 4, b.getLsbD 3, b.getLsbD 2, b.extractLsb' 0 2, by
      simp only [decodeCmdByte, h₇, h₆, h₅, Bool.false_eq_true, if_false, if_true]⟩

end Sys2Proof.Machine

open Sys2Proof Sys2Proof.Machine

/-- Settles O1: the decoder reads every well-formed instruction back from its word, and every word is the word of one. -/
theorem decodeAndEncodeAgree : Obligations.DecodeAndEncodeAgree :=
  ⟨fun _ h => decodeWord_encode h, wellFormed_and_encode_decodeWord⟩

/-- Settles O2, by decoding the twelve words. -/
theorem specWordsDecode : Obligations.SpecWordsDecode :=
  ⟨rfl, rfl, rfl, rfl, rfl, rfl, rfl, rfl, rfl, rfl, rfl, rfl⟩

/-- Settles O3: the row of the decoded instruction holds of the byte, and rows that hold of one byte are equal. -/
theorem commandByteRowsPartition : Obligations.CommandByteRowsPartition := by
  intro b
  have hmem := row_mem_cmdRows (encode_decodeCmdByte b)
  have hholds := row_decodeCmdByte_holds b
  refine ⟨hmem, fun r hr => ⟨fun h => ?_, fun h => h ▸ hholds⟩⟩
  exact cmdRows_eq_of_pat_and_mask_eq r hr _ hmem (Row.pat_and_mask_eq h hholds)

/-- Settles O5: each predicate is a range of the byte's value, and so is the FUNCSET class. -/
theorem commandBytePredicates : Obligations.CommandBytePredicates := by
  intro b
  refine ⟨isLong_eq b, isFS8_eq b, isFS4_eq b, ?_, ?_⟩
  · have hlt := b.isLt
    simp only [isLong_eq, decide_eq_true_eq, List.mem_cons, List.not_mem_nil, or_false]
    omega
  · rw [decodeCmdByte_eq_funcSet_iff, isFS8_eq, isFS4_eq, Bool.or_eq_true, decide_eq_true_eq, decide_eq_true_eq]
    omega
end

section
/-! Proofs about the command bytes (40_command_bytes.md): the constructors' bytes, the classes as instruction writes, and the
ignored bits of a read. -/

namespace Sys2Proof.Machine

theorem byte_eq_ofNat {b : Byte} {n : Nat} (h : b.toNat = n) : b = BitVec.ofNat 8 n := by
  rw [← h, BitVec.ofNat_toNat, BitVec.setWidth_eq]

/-- An instruction that sends a byte of the value `n` does what `WRI n` does (40_command_bytes.md R90). -/
theorem exec_eq_wri_ofNat {i : Instr} {b : Byte} {n : Nat} (hb : instructionByte i = some b) (hw : WellFormed i)
    (hn : b.toNat = n) (s : State) : exec i s = exec (.wri (BitVec.ofNat 8 n)) s := by
  rw [exec_instructionByte hb hw, exec_instructionByte (i := .wri _) rfl rfl, byte_eq_ofNat hn]

end Sys2Proof.Machine

open Sys2Proof Sys2Proof.Machine

/-- Settles O10: the classes' bytes by their value, with the constructors' ignored bits 0; the two addresses are tested. -/
theorem constructorBytes : Obligations.ConstructorBytes := by
  refine ⟨rfl, rfl, fun dec sh => entryModeByte_toNat (!dec) sh, fun d c k => onOffByte_toNat d c k,
    fun c r => shiftByte_toNat c r 0, fun e t f => funcSetByte_toNat e t f 0, fun a h => ?_, fun a h => ?_, fun a h => ?_,
    fun a h => ?_⟩
  · rw [constructSetCGRAM, if_pos h, byte_eq_ofNat (setCgramByte_toNat h)]
  · rw [constructSetCGRAM, if_neg (Nat.not_le.2 h)]
  · rw [constructSetDDRAM, if_pos h, byte_eq_ofNat (setDdramByte_toNat h)]
  · rw [constructSetDDRAM, if_neg (Nat.not_le.2 h)]

/-- Settles O22: each class is the instruction write of its byte, whose value is known; an address out of range fails the
constructor's test. -/
theorem classesAreInstructionWrites : Obligations.ClassesAreInstructionWrites := fun s =>
  ⟨exec_eq_wri_ofNat (n := 0x01) rfl rfl rfl s, exec_eq_wri_ofNat (n := 0x00) rfl rfl rfl s,
   fun x => exec_eq_wri_ofNat rfl rfl (homeByte_toNat x) s,
   fun i h => exec_eq_wri_ofNat rfl rfl (entryModeByte_toNat i h) s,
   fun d c k => exec_eq_wri_ofNat rfl rfl (onOffByte_toNat d c k) s,
   fun c r x => exec_eq_wri_ofNat rfl rfl (shiftByte_toNat c r x) s,
   fun l n f x => exec_eq_wri_ofNat rfl rfl (funcSetByte_toNat l n f x) s,
   fun _ h => exec_eq_wri_ofNat rfl (wellFormed_setCgram.2 h) (setCgramByte_toNat h) s,
   fun _ h => if_neg (Nat.not_le.2 h),
   fun _ h => exec_eq_wri_ofNat rfl (wellFormed_setDdram.2 h) (setDdramByte_toNat h) s,
   fun _ h => if_neg (Nat.not_le.2 h)⟩

/-- Settles O23: neither read's meaning mentions the data bits. -/
theorem readDataBitsAreIgnored : Obligations.ReadDataBitsAreIgnored := fun _ _ _ => ⟨rfl, rfl⟩
end

section
/-! Proofs about what the block does with an instruction byte (40_command_bytes.md R100; 46_host_operations.md R194): its
class, the width it asks for and its delay class by its value, and the events it starts. -/

namespace Sys2Proof

/-! ## The class of a byte by its value (30_encoding.md R73) -/

/-- The leading bit of a value below `2 ^ (k + 1)`. -/
theorem getLsbD_eq_decide_of_lt {b : Byte} {k : Nat} (h : b.toNat < 2 ^ (k + 1)) :
    b.getLsbD k = decide (2 ^ k ≤ b.toNat) := by
  by_cases hk : 2 ^ k ≤ b.toNat
  · rw [decide_eq_true hk]
    exact Nat.testBit_of_two_pow_le_and_two_pow_add_one_gt hk h
  · rw [decide_eq_false hk]
    exact Nat.testBit_lt_two_pow (Nat.lt_of_not_le hk)

/-- The position of the most significant 1 bit is the range the value lies in, and an address is what the value exceeds that
range's first by. -/
theorem decodeCmdByte_eq_ite (b : Byte) :
    decodeCmdByte b =
      if 0x80 ≤ b.toNat then .setDdram (b.toNat - 0x80)
      else if 0x40 ≤ b.toNat then .setCgram (b.toNat - 0x40)
      else if 0x20 ≤ b.toNat then
        .funcSet (decide (0x30 ≤ b.toNat)) (b.getLsbD 3) (b.getLsbD 2) (b.extractLsb' 0 2)
      else if 0x10 ≤ b.toNat then .shift (b.getLsbD 3) (b.getLsbD 2) (b.extractLsb' 0 2)
      else if 0x08 ≤ b.toNat then .onOff (b.getLsbD 2) (b.getLsbD 1) (b.getLsbD 0)
      else if 0x04 ≤ b.toNat then .entryMode (b.getLsbD 1) (b.getLsbD 0)
      else if 0x02 ≤ b.toNat then .home (b.getLsbD 0)
      else if 0x01 ≤ b.toNat then .clear
      else .undef00 := by
  have hbit {k : Nat} (h : b.toNat < 2 ^ (k + 1)) : (b.getLsbD k = true) = (2 ^ k ≤ b.toNat) := by
    rw [getLsbD_eq_decide_of_lt h, decide_eq_true_eq]
  have hlt := b.isLt
  refine ite_congr (hbit hlt) (fun h₇ => congrArg _ ?_) fun h₇ =>
    ite_congr (hbit (Nat.lt_of_not_le h₇)) (fun h₆ => congrArg _ ?_) fun h₆ =>
    ite_congr (hbit (Nat.lt_of_not_le h₆)) (fun h₅ => ?_) fun h₅ =>
    ite_congr (hbit (Nat.lt_of_not_le h₅)) (fun _ => rfl) fun h₄ =>
    ite_congr (hbit (Nat.lt_of_not_le h₄)) (fun _ => rfl) fun h₃ =>
    ite_congr (hbit (Nat.lt_of_not_le h₃)) (fun _ => rfl) fun h₂ =>
    ite_congr (hbit (Nat.lt_of_not_le h₂)) (fun _ => rfl) fun h₁ =>
    ite_congr (hbit (Nat.lt_of_not_le h₁)) (fun _ => rfl) fun _ => rfl
  · rw [BitVec.extractLsb'_toNat, Nat.shiftRight_zero]
    omega
  · rw [BitVec.extractLsb'_toNat, Nat.shiftRight_zero]
    omega
  · have h₄ : b.getLsbD 4 = decide (0x30 ≤ b.toNat) := by
      rw [BitVec.getLsbD, Nat.testBit_eq_decide_div_mod_eq, decide_eq_decide]
      omega
    rw [h₄]

end Sys2Proof

namespace Sys2Proof.Machine

/-! ## The width and the delay class of a byte by its value -/

/-- `Negotiate` by the byte's high nibble (44_mode_negotiator.md R161, R164). -/
theorem nextWidth_eq_ite (w : Bool) (b : Byte) :
    nextWidth w b = if b.toNat / 16 = 3 then true else if b.toNat / 16 = 2 then false else w := by
  rw [nextWidth, isFS8_eq, isFS4_eq]
  by_cases h₈ : b.toNat / 16 = 3
  · cases w <;> simp [h₈]
  · cases w <;> simp [h₈]

/-- The delay class of an instruction write by the low six bits of the byte (41_deadline_tracker.md R114). -/
theorem selectDelayClass_instruction (p : Params) (b : Byte) :
    selectDelayClass p false b = if b.toNat % 64 ≤ 3 then p.tLong else p.tShort := by
  simp [selectDelayClass, isLong_eq]

/-! ## The events it starts -/

/-- `AwaitReady` as the spec's pseudocode has it (41_deadline_tracker.md R117; 43_bus_decoder.md R150). -/
theorem State.awaitReady_eq_expected (s : State) :
    s.awaitReady = Expected.awaitReady s.env.params s.readEn s.width8 s.deadline := by
  unfold State.awaitReady
  cases s.readEn <;> cases s.width8 <;> rfl

theorem driven_hiNibble (b : Byte) :
    driven (activeLines false) (hiNibble b) =
      [(.D4, b.getLsbD 4), (.D5, b.getLsbD 5), (.D6, b.getLsbD 6), (.D7, b.getLsbD 7)] := by
  simp [driven, activeLines, lines4, hiNibble]

theorem driven_loNibble (b : Byte) :
    driven (activeLines false) (loNibble b) =
      [(.D4, b.getLsbD 0), (.D5, b.getLsbD 1), (.D6, b.getLsbD 2), (.D7, b.getLsbD 3)] := by
  simp [driven, activeLines, lines4, loNibble]

/-- The events of a write as the spec's pseudocode has them (42_bus_encoder.md R127 to R129). -/
theorem State.writeEvents_eq_expected (s : State) :
    s.writeEvents = Expected.write s.env.params s.readEn s.width8 s.deadline s.rs s.wbyte := by
  unfold Expected.write
  rw [State.writeEvents_eq, State.awaitReady_eq_expected, List.append_assoc, List.append_assoc]
  refine congrArg _ ?_
  rw [State.writeTail, State.writeControls, State.writeCycles, State.valueCycle, State.valueCycle, State.valueCycle]
  cases s.width8 with
  | true => cases s.readEn <;> rfl
  | false =>
    rw [driven_hiNibble, driven_loNibble]
    cases s.readEn <;> rfl

end Sys2Proof.Machine

open Sys2Proof Sys2Proof.Machine

/-- Settles O9: in each range the class, the width and the delay class are the branch its bounds select. -/
theorem treatmentOfEveryByte : Obligations.TreatmentOfEveryByte := by
  intro b w p v long
  have hlt : v < 256 := b.isLt
  simp only [decodeCmdByte_eq_ite, nextWidth_eq_ite, selectDelayClass_instruction]
  refine ⟨fun h => ?undef00, fun h => ?clear, fun h => ?home, fun h => ?entryMode, fun h => ?onOff, fun h => ?shift,
    fun h => ⟨?funcSet4, ?toFour⟩, fun h => ⟨?funcSet8, ?toEight⟩, fun h => ?setCgram, fun h => ?setDdram,
    fun h => ?keepsWidth, fun h => ?long, fun h => ?short⟩
  all_goals simp (disch := omega) only [if_pos, if_neg]
  case home => exact ⟨_, rfl⟩
  case entryMode => exact ⟨_, _, rfl⟩
  case onOff | shift => exact ⟨_, _, _, rfl⟩
  case funcSet4 => exact ⟨_, _, _, by rw [decide_eq_false (by omega)]⟩
  case funcSet8 => exact ⟨_, _, _, by rw [decide_eq_true h.1]⟩
  case setCgram | setDdram => rfl

/-- Settles O19: an instruction write of a ready block starts, and what it starts is `Negotiate` and the write in the width
that leaves. -/
theorem instructionWriteStarts : Obligations.InstructionWriteStarts := by
  intro s i b hb hw hready w
  have hwidth : nextWidth s.width8 b = w := nextWidth_eq_ite s.width8 b
  have hevents := (s.latchWrite 0b01#2 b).negotiate.writeEvents_eq_expected
  simp only [State.negotiate_fields, State.latchWrite_fields, hwidth] at hevents
  rw [exec_instructionByte hb hw, State.instructionWrite, State.serve_ready hready, State.startInstruction,
    State.instructionEvents, hevents]
  rfl
end

section
/-! Proofs about the run of a write (42_bus_encoder.md R127, R128, R130; 46_host_operations.md R200): the state it ends in when
its first poll, if it has one, reads "ready", its strobe cycles and its times, and from these what a finished instruction
write leaves. -/

namespace Sys2Proof.Machine

/-! ## The state a write ends in -/

/-- The events of a write on the bus: all but `RecordDeadline` and the response. -/
def State.busEvents (s : State) : List Micro := s.readyAwait ++ s.writeControls ++ s.writeCycles

/-- How many steps a write takes when its first poll reads "ready". -/
def State.writeLength (s : State) : Nat := s.readyAwait.length + s.writeTail.length

/-- `RecordDeadline` and the response, which end the transaction (41_deadline_tracker.md R115; 46_host_operations.md
R191). -/
def State.recorded (s : State) : State := (s.afterEvents (recordDeadlineEvents ++ [.respond])).start []

@[simp] theorem State.recorded_fields (s : State) :
    s.recorded.seq = [] ∧ s.recorded.rspValid = true ∧ s.recorded.bf = s.bf ∧ s.recorded.v = s.v ∧
    s.recorded.tnow = s.env.advance.now ∧ s.recorded.env = s.env.advance.advance.advance ∧
    s.recorded.deadline = s.env.advance.now + selectDelayClass s.env.params s.rs s.wbyte ∧
    s.recorded.width8 = s.width8 ∧ s.recorded.op = s.op ∧ s.recorded.wbyte = s.wbyte ∧ s.recorded.rs = s.rs ∧
    (∀ p, s.recorded.dirOf p = s.dirOf p) ∧ ∀ p, s.recorded.outOf p = s.outOf p := by
  simp [State.recorded, recordDeadlineEvents, State.event]

/-- The state in which it ends. -/
def State.written (s : State) : State := (s.afterEvents s.busEvents).recorded

/-- The first poll of the `AwaitReady` that begins in `s` reads "ready", if the block polls. -/
def State.ReadsReady (s : State) : Prop :=
  s.readEn = true → s.levelAt ((if s.width8 then 14 else 10) + (Expected.sleeps s).toNat) .D7 = false

theorem State.afterEvents_readyAwait_writeTail (s : State) :
    (s.afterEvents (s.readyAwait ++ s.writeTail)).start [] = s.written := by
  rw [State.written, State.recorded, ← State.afterEvents_append, State.busEvents, State.writeTail]
  simp only [List.append_assoc]

theorem State.writeLength_eq_busEvents (s : State) : s.writeLength = s.busEvents.length + 3 := by
  simp only [State.writeLength, State.writeTail, State.busEvents, List.length_append, recordDeadlineEvents,
    List.length_cons, List.length_nil]
  omega

theorem State.writeLength_eq (s : State) :
    s.writeLength = (if s.readEn then (if s.width8 then 27 else 19) + (Expected.sleeps s).toNat +
      4 * (if s.width8 then s.env.params.pollTail8 else s.env.params.pollTail4) else 0) + if s.width8 then 17 else 21 := by
  rw [State.writeLength, length_readyAwait, length_writeTail]
  cases s.readEn <;> cases s.width8 <;> simp

/-! ## Its steps -/

/-- A run goes on alike from two states with the same next step. -/
theorem steps_succ_congr {s t : State} (h : step s = step t) (n : Nat) : steps (n + 1) s = steps (n + 1) t := by
  simp only [steps, h]

/-- `AwaitReady` up to its loop's test. -/
theorem steps_firstPoll {s : State} (hr : s.readEn = true) (rest : List Micro) :
    steps s.firstPoll.length (s.start (s.awaitReady ++ rest)) =
      .next ((s.afterEvents s.firstPoll).start
        (.loopTest :: (pollTail s.env.params s.width8 ++ linesOut s.width8 ++ rest))) := by
  let loop := Micro.loopTest :: (pollTail s.env.params s.width8 ++ linesOut s.width8 ++ rest)
  let wait := busyWait s.env.params s.width8 ++ rest
  obtain ⟨es, hfirst, hwait⟩ : ∃ es, s.firstPoll = .clockRead :: .wait 0 :: es ∧
      (if Expected.sleeps s then [.waitUntil s.deadline] else []) ++ wait = es ++ loop :=
    ⟨_, rfl, by simp [wait, loop, busyWait, poll]⟩
  have hstraight := straight_firstPoll s
  have htest := step_awaitTest_eq_wait (s.afterEvents [.clockRead]) wait
  rw [blindSleeps_after_clockRead] at htest
  rw [hfirst] at hstraight
  rw [hfirst, List.length_cons, List.length_cons, Nat.add_comm]
  calc steps (1 + (es.length + 1)) (s.start (s.awaitReady ++ rest))
      = steps (1 + (es.length + 1)) (s.start ([.clockRead] ++ .awaitTest :: wait)) := by
        simp [State.awaitReady, hr, wait]
    _ = steps (es.length + 1) ((s.afterEvents [.clockRead]).start (.awaitTest :: wait)) :=
        steps_add 1 _ (steps_straight [.clockRead] (by simp [Micro.straight]) s _)
    _ = steps (es.length + 1) ((s.afterEvents [.clockRead]).start (.wait 0 :: (es ++ loop))) := by
        rw [steps_succ_congr htest, ← hwait]
        rfl
    _ = _ := steps_straight (.wait 0 :: es) (fun op h => hstraight op (.tail _ h)) (s.afterEvents [.clockRead]) loop

/-- `AwaitReady` runs as the straight list of its events. -/
theorem steps_awaitReady {s : State} (hready : s.ReadsReady) (rest : List Micro) :
    steps s.readyAwait.length (s.start (s.awaitReady ++ rest)) = .next ((s.afterEvents s.readyAwait).start rest) := by
  cases hr : s.readEn with
  | false => simpa [State.awaitReady, State.readyAwait, hr, Micro.straight] using
      steps_straight [.waitUntil s.deadline] (by simp [Micro.straight]) s rest
  | true =>
    have hbf : (s.afterEvents s.firstPoll).bf = false := s.afterEvents_firstPoll_bf.trans (hready hr)
    have hloop := step_loopTest_eq_wait hbf (pollTail s.env.params s.width8 ++ linesOut s.width8 ++ rest)
    have hend := steps_straight s.pollsEnd (straight_pollsEnd s) (s.afterEvents s.firstPoll) rest
    have hcons : s.pollsEnd = .wait 0 :: (pollTail s.env.params s.width8 ++ linesOut s.width8) := rfl
    rw [State.readyAwait, if_pos hr, List.length_append, steps_add _ _ (steps_firstPoll hr rest),
      State.afterEvents_append, ← hend, hcons, List.length_cons, steps_succ_congr hloop]
    rfl

theorem State.steps_writeEvents {s : State} (hready : s.ReadsReady) :
    steps s.writeLength (s.start s.writeEvents) = .next s.written := by
  have htail := steps_straight s.writeTail (straight_writeTail s) (s.afterEvents s.readyAwait) []
  rw [List.append_nil, ← State.afterEvents_append, s.afterEvents_readyAwait_writeTail] at htail
  rw [s.writeEvents_eq]
  exact (steps_add _ _ (steps_awaitReady hready s.writeTail)).trans htail

/-! ## Its strobe cycles -/

theorem strobes_eq_length_commits (n : Nat) (s : State) : strobes n s = (commits n s).length := by
  induction n generalizing s with
  | zero => rfl
  | succ n ih =>
    simp only [strobes, commits]
    split
    · rename_i t _
      cases strobeEnds s t <;> simp [ih, Nat.add_comm]
    · rfl
    · rfl

theorem State.strobes_writeEvents {s : State} (hready : s.ReadsReady) (hE : s.dirOf .E = .Out) :
    strobes s.writeLength (s.start s.writeEvents) =
      (if s.readEn then 1 + (if s.width8 then s.env.params.pollTail8 else s.env.params.pollTail4) else 0) +
        if s.width8 then 1 else 2 := by
  rw [strobes_eq_length_commits, State.writeLength, commits_writeEvents hready, List.length_append,
    carried_readyAwait hE, List.length_replicate]
  congr 1
  have hwriting := s.writing_writeControls
  cases hw : s.width8 with
  | true =>
    obtain ⟨c, hc, _⟩ := hwriting.exists_commit8 hE hw
    rw [hc]
    rfl
  | false =>
    obtain ⟨c₁, c₂, hc, _⟩ := hwriting.exists_commits4 hE hw
    rw [hc]
    rfl

/-! ## The pins it leaves -/

theorem State.Writing.writeCycles {s : State} {d : Pin → Dir} {lv : Pin → Bool} (h : s.Writing d lv) :
    s.Writing (dirsAfter s.writeCycles d) (latchesAfter s.writeCycles lv) := by
  unfold State.writeCycles
  split
  · exact h.valueCycle _
  · rw [dirsAfter_append, latchesAfter_append]
    exact (h.valueCycle _).valueCycle _

/-- E is low, and the lines of the width carry the byte, or in 4-bit width its low nibble. -/
theorem State.latchesAfter_writeCycles (s : State) (lv : Pin → Bool) :
    latchesAfter s.writeCycles lv .E = false ∧
    ∀ p : Pin, p.lineAllowed s.width8 = true →
      latchesAfter s.writeCycles lv p = s.wbyte.getLsbD (p.index.val - if s.width8 then 0 else 4) := by
  obtain ⟨n, value, lv', hlast, hvalue⟩ : ∃ (n : Nat) (value : BitVec n) (lv' : Pin → Bool),
      latchesAfter s.writeCycles lv = latchesAfter (s.valueCycle value) lv' ∧
      ∀ p : Pin, p.lineAllowed s.width8 = true → value.getLsbD (p.index.val - if s.width8 then 0 else 4) =
        s.wbyte.getLsbD (p.index.val - if s.width8 then 0 else 4) := by
    unfold State.writeCycles
    cases hw : s.width8 with
    | true => exact ⟨8, s.wbyte, lv, by simp, fun _ _ => rfl⟩
    | false => exact ⟨4, loNibble s.wbyte, latchesAfter (s.valueCycle (hiNibble s.wbyte)) lv, by simp,
        fun p hp => loNibble_getLsbD hp s.wbyte⟩
  rw [hlast, s.latchesAfter_valueCycle]
  refine ⟨rfl, fun p hp => ?_⟩
  obtain ⟨_, _, hE⟩ := Pin.ne_of_isDataLine (Pin.isDataLine_of_lineAllowed hp)
  simp only [strobeLow, if_neg hE, if_pos hp, hvalue p hp]

theorem State.written_dirOf (s : State) :
    s.written.dirOf = dirsAfter s.writeCycles (dirsAfter s.writeControls s.writeDirs) := by
  rw [← dirsAfter_readyAwait, ← dirsAfter_append s.readyAwait, ← dirsAfter_append]
  funext p
  simp [State.written, State.busEvents, State.afterEvents_dirOf, dirsAfter]

theorem State.written_outOf (s : State) :
    s.written.outOf =
      latchesAfter s.writeCycles (latchesAfter s.writeControls (if s.readEn then s.pollLatches else s.outOf)) := by
  rw [← latchesAfter_readyAwait, ← latchesAfter_append s.readyAwait, ← latchesAfter_append]
  funext p
  simp [State.written, State.busEvents, State.afterEvents_outOf, latchesAfter]

theorem State.writing_written (s : State) : s.Writing s.written.dirOf s.written.outOf := by
  rw [s.written_dirOf, s.written_outOf]
  exact s.writing_writeControls.writeCycles

/-- E is low again, and the lines of the width carry the byte or its low nibble. -/
theorem State.written_lines (s : State) :
    s.written.outOf .E = false ∧
    ∀ p : Pin, p.lineAllowed s.width8 = true →
      s.written.outOf p = s.wbyte.getLsbD (p.index.val - if s.width8 then 0 else 4) := by
  rw [s.written_outOf]
  exact s.latchesAfter_writeCycles _

/-! ## What it leaves unchanged -/

/-- The registers no write changes, of the configuration and of the reads. -/
structure SameBuffers (s u : State) : Prop where
  same  : SameSetup s u
  rbyte : u.rbyte = s.rbyte
  hi    : u.hi = s.hi
  lo    : u.lo = s.lo

theorem SameSetup.trans {s t u : State} (h : SameSetup s t) (k : SameSetup t u) : SameSetup s u where
  readEn     := k.readEn.trans h.readEn
  mode8En    := k.mode8En.trans h.mode8En
  pull       := k.pull.trans h.pull
  installed  := k.installed.trans h.installed
  setupR     := k.setupR.trans h.setupR
  setupM     := k.setupM.trans h.setupM
  setupPinOk := k.setupPinOk.trans h.setupPinOk
  setupOk    := k.setupOk.trans h.setupOk
  cause      := k.cause.trans h.cause
  badPins    := k.badPins.trans h.badPins
  params     := k.params.trans h.params
  host       := k.host.trans h.host

theorem SameBuffers.trans {s t u : State} (h : SameBuffers s t) (k : SameBuffers t u) : SameBuffers s u :=
  ⟨h.same.trans k.same, k.rbyte.trans h.rbyte, k.hi.trans h.hi, k.lo.trans h.lo⟩

/-- The events of a write (42_bus_encoder.md R127, R128; 43_bus_decoder.md R150). -/
def Micro.duringWrite : Micro → Bool
  | .drive _ _ | .pinMode _ _ | .sample _ .v | .clockRead | .wait _ | .waitUntil _ | .updateBf | .recordDeadline
  | .respond => true
  | _ => false

theorem Micro.duringWrite_event {op : Micro} (h : op.duringWrite = true) (s : State) :
    SameBuffers s (s.envMove.event op) ∧ (s.envMove.event op).width8 = s.width8 := by
  cases op with
  | sample p dst =>
    cases dst with
    | v => exact ⟨⟨by constructor <;> rfl, rfl, rfl, rfl⟩, rfl⟩
    | _ => simp [Micro.duringWrite] at h
  | drive | pinMode | clockRead | wait | waitUntil | updateBf | recordDeadline | respond =>
    exact ⟨⟨by constructor <;> rfl, rfl, rfl, rfl⟩, rfl⟩
  | _ => simp [Micro.duringWrite] at h

theorem State.afterEvents_duringWrite {es : List Micro} (h : es.all Micro.duringWrite = true) (s : State) :
    SameBuffers s (s.afterEvents es) ∧ (s.afterEvents es).width8 = s.width8 := by
  induction es generalizing s with
  | nil => exact ⟨⟨by constructor <;> rfl, rfl, rfl, rfl⟩, rfl⟩
  | cons op es ih =>
    obtain ⟨hop, hes⟩ := Bool.and_eq_true_iff.1 h
    obtain ⟨hfirst, hwidth⟩ := Micro.duringWrite_event hop s
    obtain ⟨hrest, hwidth'⟩ := ih hes (s.envMove.event op)
    exact ⟨hfirst.trans hrest, hwidth'.trans hwidth⟩

section
variable {f : Micro → Bool} (hdrive : ∀ p x, f (.drive p x) = true) (hwait : ∀ n, f (.wait n) = true)
include hdrive hwait

/-- What follows the loop's test is made of pin events and waits. -/
theorem State.all_pollsEnd (hpinMode : ∀ p m, f (.pinMode p m) = true) (s : State) : s.pollsEnd.all f = true := by
  have hcycle : (dummyCycle s.env.params).all f = true := by simp [dummyCycle, readCycle, hdrive, hwait]
  have htail : (pollTail s.env.params s.width8).all f = true := by simp [pollTail, hcycle]
  have hlines : (linesOut s.width8).all f = true := by simp [linesOut, hpinMode]
  simp [State.pollsEnd, htail, hlines, hwait]

/-- What follows `AwaitReady`, up to the clock read, drives pins and waits. -/
theorem State.all_writeCycles (s : State) : (s.writeControls ++ s.writeCycles).all f = true := by
  have hcontrols : s.writeControls.all f = true := by
    unfold State.writeControls
    cases s.readEn <;> simp [hdrive]
  have hcycle {n : Nat} (value : BitVec n) : (s.valueCycle value).all f = true := by
    simp [State.valueCycle, writeCycle, hdrive, hwait]
  rw [List.all_append, hcontrols, State.writeCycles]
  cases s.width8 <;> simp [hcycle]

end

theorem State.busEvents_of_polls {s : State} (hr : s.readEn = true) :
    s.busEvents = s.firstPoll ++ (s.pollsEnd ++ (s.writeControls ++ s.writeCycles)) := by
  simp [State.busEvents, State.readyAwait, hr]

theorem State.busEvents_of_blind {s : State} (hr : s.readEn = false) :
    s.busEvents = .waitUntil s.deadline :: (s.writeControls ++ s.writeCycles) := by
  simp [State.busEvents, State.readyAwait, hr]

theorem State.duringWrite_busEvents (s : State) : s.busEvents.all Micro.duringWrite = true := by
  have hcycles : (s.writeControls ++ s.writeCycles).all Micro.duringWrite = true :=
    State.all_writeCycles (fun _ _ => rfl) (fun _ => rfl) s
  cases hr : s.readEn with
  | true =>
    have hfirst : s.firstPoll.all Micro.duringWrite = true := by
      unfold State.firstPoll State.pollApproach
      cases Expected.sleeps s <;> cases s.width8 <;> rfl
    have hend : s.pollsEnd.all Micro.duringWrite = true :=
      State.all_pollsEnd (fun _ _ => rfl) (fun _ => rfl) (fun _ _ => rfl) s
    rw [State.busEvents_of_polls hr, List.all_append, List.all_append, hfirst, hend, hcycles]
    rfl
  | false =>
    rw [State.busEvents_of_blind hr]
    exact hcycles

theorem State.recorded_sameBuffers (s : State) : SameBuffers s s.recorded := by
  obtain ⟨⟨hsame, hrbyte, hhi, hlo⟩, _⟩ :=
    State.afterEvents_duringWrite (es := recordDeadlineEvents ++ [.respond]) rfl s
  exact ⟨{ hsame with }, hrbyte, hhi, hlo⟩

theorem State.written_sameBuffers (s : State) : SameBuffers s s.written ∧ s.written.width8 = s.width8 := by
  obtain ⟨hbus, hwidth⟩ := State.afterEvents_duringWrite s.duringWrite_busEvents s
  exact ⟨hbus.trans (State.recorded_sameBuffers _), by simp [State.written, hwidth]⟩

/-- The latches of the host port stay. -/
theorem State.written_latches (s : State) : s.written.op = s.op ∧ s.written.wbyte = s.wbyte ∧ s.written.rs = s.rs := by
  simp [State.written, s.afterEvents_frame s.busEvents]

theorem State.onBus_writeCycles (s : State) : ∀ op ∈ s.writeControls ++ s.writeCycles, op.onBus = true :=
  List.all_eq_true.1 (State.all_writeCycles (fun _ _ => rfl) (fun _ => rfl) s)

theorem State.onBus_pollsEnd (s : State) : ∀ op ∈ s.pollsEnd, op.onBus = true :=
  List.all_eq_true.1 (State.all_pollsEnd (fun _ _ => rfl) (fun _ => rfl) (fun _ _ => rfl) s)

/-- Without a poll nothing is sampled. -/
theorem State.written_samples_of_blind {s : State} (hr : s.readEn = false) :
    s.written.bf = s.bf ∧ s.written.v = s.v := by
  have hbus : ∀ op ∈ s.busEvents, op.onBus = true := by
    rw [State.busEvents_of_blind hr]
    exact List.forall_mem_cons.2 ⟨rfl, s.onBus_writeCycles⟩
  obtain ⟨_, _, _, _, _, _, hbf, _, _, _, hv, _⟩ := State.afterEvents_onBus s.busEvents hbus s
  simp only [State.written, State.recorded_fields, hbf, hv, and_self]

/-- The flag is the level the first poll read. -/
theorem State.written_bf_of_polls {s : State} (hready : s.ReadsReady) (hr : s.readEn = true) : s.written.bf = false := by
  have hbus : ∀ op ∈ s.pollsEnd ++ (s.writeControls ++ s.writeCycles), op.onBus = true :=
    List.forall_mem_append.2 ⟨s.onBus_pollsEnd, s.onBus_writeCycles⟩
  obtain ⟨_, _, _, _, _, _, hbf, _⟩ := State.afterEvents_onBus _ hbus (s.afterEvents s.firstPoll)
  rw [← State.afterEvents_append, ← State.busEvents_of_polls hr, s.afterEvents_firstPoll_bf, hready hr] at hbf
  simp only [State.written, State.recorded_fields, hbf]

/-! ## Its times -/

theorem after_onNow_linesIn (w : Bool) (t : Nat) : after Micro.onNow (linesIn w) t = t := by
  cases w <;> rfl

theorem after_onNow_linesOut (w : Bool) (t : Nat) : after Micro.onNow (linesOut w) t = t := by
  cases w <;> rfl

theorem after_onNow_pollTail (p : Params) (w : Bool) (t : Nat) :
    after Micro.onNow (pollTail p w) t = t + 2 * (if w then p.pollTail8 else p.pollTail4) * p.tPw := by
  unfold pollTail
  induction (if w then p.pollTail8 else p.pollTail4) generalizing t with
  | zero => simp
  | succ n ih =>
    have hcycle : after Micro.onNow (dummyCycle p) t = t + p.tPw + p.tPw := rfl
    rw [List.replicate_succ, List.flatten_cons, after_append, ih, hcycle]
    ring

theorem after_onNow_valueCycle {n : Nat} (s : State) (value : BitVec n) (t : Nat) :
    after Micro.onNow (s.valueCycle value) t = t + 2 * s.env.params.tPw := by
  have hcycle : after Micro.onNow (s.valueCycle value) t = t + s.env.params.tPw + s.env.params.tPw := by
    unfold State.valueCycle
    cases s.width8 <;> rfl
  omega

theorem after_onNow_writeCycles (s : State) (t : Nat) :
    after Micro.onNow (s.writeControls ++ s.writeCycles) t = t + (if s.width8 then 2 else 4) * s.env.params.tPw := by
  have hcontrols : after Micro.onNow s.writeControls t = t := by
    unfold State.writeControls
    cases s.readEn <;> rfl
  rw [after_append, hcontrols, State.writeCycles]
  cases s.width8 with
  | true => exact after_onNow_valueCycle s _ t
  | false =>
    simp only [Bool.false_eq_true, if_false, after_append, after_onNow_valueCycle]
    omega

theorem after_onNow_busEvents_of_blind {s : State} (hr : s.readEn = false) (t : Nat) :
    after Micro.onNow s.busEvents t = max t s.deadline + (if s.width8 then 2 else 4) * s.env.params.tPw := by
  rw [State.busEvents_of_blind hr, after_cons, after_onNow_writeCycles]
  rfl

theorem after_onNow_busEvents_of_polls {s : State} (hr : s.readEn = true) (t : Nat) :
    after Micro.onNow s.busEvents t = (if Expected.sleeps s then max t s.deadline else t) +
      (2 + 2 * (if s.width8 then s.env.params.pollTail8 else s.env.params.pollTail4) + if s.width8 then 2 else 4) *
        s.env.params.tPw := by
  have happroach : after Micro.onNow s.pollApproach t = if Expected.sleeps s then max t s.deadline else t := by
    unfold State.pollApproach
    rw [after_append, after_append, after_onNow_linesIn]
    cases Expected.sleeps s <;> rfl
  have hpoll (t : Nat) : after Micro.onNow (readCycle s.env.params [.D7] .v ++ [.updateBf]) t =
      t + s.env.params.tPw + s.env.params.tPw := rfl
  have hend (t : Nat) : after Micro.onNow s.pollsEnd t = after Micro.onNow (pollTail s.env.params s.width8) t := by
    rw [State.pollsEnd, after_append, after_append, after_onNow_linesOut]
    rfl
  rw [State.busEvents_of_polls hr, after_append, after_append, after_onNow_writeCycles, hend, after_onNow_pollTail,
    State.firstPoll, after_append, happroach, hpoll]
  ring

/-- The clock is read no earlier than the events on the bus take. -/
theorem State.written_tnow_ge (s : State) :
    after Micro.onNow s.busEvents s.env.now ≤ s.written.tnow ∧ s.written.tnow ≤ s.written.env.now := by
  simp only [State.written, State.recorded_fields]
  exact ⟨(s.afterEvents_now_ge s.busEvents).trans (Env.now_le_advance _),
    (Env.now_le_advance _).trans (Env.now_le_advance _)⟩

/-- Under the ideal clock no other time passes. -/
theorem State.written_now_of_idealClock {s : State} (h : s.idealClock s.writeLength) :
    s.written.env.now = after Micro.onNow s.busEvents s.env.now ∧ s.written.tnow = s.written.env.now := by
  rw [State.writeLength_eq_busEvents] at h
  have hstill (k : Nat) (hk : k < 3) : ((s.afterEvents s.busEvents).moveAt k).dt = 0 := by
    rw [State.afterEvents_moveAt]
    exact h _ (by omega)
  have hbus := State.afterEvents_now_eq s.busEvents s fun k hk => h k (by omega)
  have hlast := State.afterEvents_now_eq [.clockRead, .recordDeadline, .respond] (s.afterEvents s.busEvents) hstill
  have hread := State.afterEvents_now_eq [.clockRead] (s.afterEvents s.busEvents)
    fun k hk => hstill k (lt_trans hk (by decide))
  have hnow : s.written.env.now = (s.afterEvents s.busEvents).env.now := hlast
  have htnow : s.written.tnow = (s.afterEvents s.busEvents).env.now := hread
  rw [htnow, hnow, hbus]
  exact ⟨rfl, rfl⟩

/-! ## What a write leaves -/

/-- `u` is `s` with a write request accepted: the registers a write keeps or reads, its own latches and `width8` apart, are
those of `s`. -/
structure WriteBegun (s u : State) : Prop extends SameBuffers s u where
  bf       : u.bf = s.bf
  v        : u.v = s.v
  deadline : u.deadline = s.deadline
  dirOf    : u.dirOf = s.dirOf
  outOf    : u.outOf = s.outOf

theorem State.written_deadline (s : State) :
    s.written.deadline = s.written.tnow + selectDelayClass s.env.params s.rs s.wbyte := by
  obtain ⟨_, hwbyte, hrs, _, _, _, hparams, _⟩ := s.afterEvents_frame s.busEvents
  simp only [State.written, State.recorded_fields, hwbyte, hrs, hparams]

theorem WriteBegun.writeLeft {s u : State} (h : WriteBegun s u) : WriteLeft s u.written u.op u.rs u.width8 u.wbyte := by
  obtain ⟨hkeep, hwidth⟩ := u.written_sameBuffers
  obtain ⟨hop, hwbyte, hrs⟩ := u.written_latches
  obtain ⟨hdirs, htarget, hdirection, huntouched⟩ := u.writing_written
  obtain ⟨hlow, hlines⟩ := u.written_lines
  have hbuffers := h.toSameBuffers.trans hkeep
  rw [h.same.readEn, h.outOf] at hdirection
  rw [h.outOf] at huntouched
  exact {
    responded := by simp [State.Responded, State.written]
    same      := hbuffers.same
    width8    := hwidth
    opLatch   := hop
    wbyte     := hwbyte
    rbyte     := hbuffers.rbyte
    hi        := hbuffers.hi
    lo        := hbuffers.lo
    rsLatch   := hrs
    strobe    := hlow
    target    := htarget
    direction := hdirection
    lines8 hw := by
      rw [hw] at hlines
      exact ⟨hlines .D0 rfl, hlines .D1 rfl, hlines .D2 rfl, hlines .D3 rfl, hlines .D4 rfl, hlines .D5 rfl,
        hlines .D6 rfl, hlines .D7 rfl⟩
    lines4 hw := by
      rw [hw] at hlines huntouched
      exact ⟨hlines .D4 rfl, hlines .D5 rfl, hlines .D6 rfl, hlines .D7 rfl, huntouched .D0 rfl rfl,
        huntouched .D1 rfl rfl, huntouched .D2 rfl rfl, huntouched .D3 rfl rfl⟩
    dir p     := by rw [hdirs, State.writeDirs, h.same.readEn, h.dirOf]
    deadline  := by rw [u.written_deadline, h.same.params]
    clock     := u.written_tnow_ge.2 }

/-- A write with `READ_EN` = 0 (42_bus_encoder.md R130; 41_deadline_tracker.md R118). -/
theorem WriteBegun.blindWrite {s u : State} (h : WriteBegun s u) (hr : s.readEn = false) :
    Expected.BlindWrite s (u.start u.writeEvents) u.op u.rs u.width8 u.wbyte := by
  unfold Expected.BlindWrite
  intro n held
  have hru : u.readEn = false := h.same.readEn.trans hr
  have hready : u.ReadsReady := fun hf => absurd (hru.symm.trans hf) Bool.false_ne_true
  have hlength : u.writeLength = n := by simp [u.writeLength_eq, hru, n]
  have htime := after_onNow_busEvents_of_blind hru u.env.now
  rw [h.deadline, h.same.params] at htime
  obtain ⟨hbf, hv⟩ := State.written_samples_of_blind hru
  obtain ⟨hread, _⟩ := u.written_tnow_ge
  rw [htime] at hread
  rw [← hlength]
  refine ⟨u.written, State.steps_writeEvents hready, h.writeLeft, hbf.trans h.bf, hv.trans h.v, fun hE => ?_, hread,
    fun hideal => ?_⟩
  · rw [← drives_congr h.dirOf h.outOf] at hE
    simp [State.strobes_writeEvents hready (State.dirOf_of_drives hE), hru]
  · obtain ⟨hnow, htnow⟩ := State.written_now_of_idealClock (s := u) hideal
    exact ⟨hnow.trans htime, htnow⟩

/-- A write with `READ_EN` = 1 whose first poll reads "ready" (43_bus_decoder.md R150; 41_deadline_tracker.md R117). -/
theorem WriteBegun.polledWrite {s u : State} (h : WriteBegun s u) (hr : s.readEn = true) :
    Expected.PolledWrite s (u.start u.writeEvents) u.op u.rs u.width8 u.wbyte := by
  intro hpoll tail n held
  have hru : u.readEn = true := h.same.readEn.trans hr
  have hready : u.ReadsReady := fun _ => hpoll
  have hsleeps : Expected.sleeps (u.start u.writeEvents) = Expected.sleeps u := rfl
  have hlength : u.writeLength = n := by
    simp only [u.writeLength_eq, hru, if_true, h.same.params, n, tail, hsleeps]
  have hlate : Expected.sleeps u = true → max u.env.now s.deadline = s.deadline ∧ u.env.now ≤ s.deadline := by
    intro hs
    have hremains := of_decide_eq_true hs
    rw [h.deadline] at hremains
    omega
  have htime : after Micro.onNow u.busEvents u.env.now =
      (if Expected.sleeps u then s.deadline else u.env.now) + held := by
    rw [after_onNow_busEvents_of_polls hru, h.deadline, h.same.params]
    exact congrArg (· + held) (ite_congr rfl (fun hs => (hlate hs).1) fun _ => rfl)
  obtain ⟨hread, _⟩ := u.written_tnow_ge
  rw [htime] at hread
  rw [← hlength]
  refine ⟨u.written, State.steps_writeEvents hready, h.writeLeft, State.written_bf_of_polls hready hru, fun hE => ?_,
    le_trans (Nat.add_le_add_right ?_ held) hread, fun hs => ?_, fun hideal => ?_⟩
  · rw [← drives_congr h.dirOf h.outOf] at hE
    simp [State.strobes_writeEvents hready (State.dirOf_of_drives hE), hru, h.same.params, tail]
  · split
    · rename_i hs
      exact (hlate hs).2
    · exact le_rfl
  · rwa [if_pos (hsleeps ▸ hs)] at hread
  · obtain ⟨hnow, htnow⟩ := State.written_now_of_idealClock (s := u) hideal
    exact ⟨hnow.trans htime, htnow⟩

/-! ## An instruction write -/

/-- The state in which `Write(0, b)` begins: the request is latched, and `Negotiate` has been run (46_host_operations.md
R194). -/
def State.negotiated (s : State) (b : Byte) : State := (s.latchWrite 0b01#2 b).envMove.negotiate

theorem WriteBegun.negotiated (s : State) (b : Byte) : WriteBegun s (s.negotiated b) :=
  ⟨⟨by constructor <;> rfl, rfl, rfl, rfl⟩, rfl, rfl, rfl, rfl, rfl⟩

/-- A ready block starts an instruction write, whose first step is `Negotiate`'s and leaves the events of `Write(0, b)`. -/
theorem State.exists_negotiateStep {s : State} {i : Instr} {b : Byte} (hb : instructionByte i = some b) (hw : WellFormed i)
    (hready : s.Ready) :
    ∃ t, exec i s = .next t ∧
      Expected.NegotiateStep s t ((s.negotiated b).start (s.negotiated b).writeEvents) b :=
  ⟨(s.latchWrite 0b01#2 b).startInstruction, (exec_instructionByte hb hw).trans (State.serve_ready hready), rfl, rfl, rfl,
    step_start_straight (op := .negotiate) rfl (s.latchWrite 0b01#2 b) _, rfl⟩

end Sys2Proof.Machine

open Sys2Proof.Machine

/-- Settles O26: after `Negotiate`'s step the write is that of a block without `READ_EN`. -/
theorem blindInstructionWriteCompletes : Obligations.BlindInstructionWriteCompletes := by
  intro s i b hb hw hready hr
  obtain ⟨t, hexec, hstep⟩ := State.exists_negotiateStep hb hw hready
  exact ⟨t, _, hexec, hstep, (WriteBegun.negotiated s b).blindWrite hr⟩

/-- Settles O28: after `Negotiate`'s step the write is that of a block with `READ_EN`. -/
theorem polledInstructionWriteCompletes : Obligations.PolledInstructionWriteCompletes := by
  intro s i b hb hw hready hr
  obtain ⟨t, hexec, hstep⟩ := State.exists_negotiateStep hb hw hready
  exact ⟨t, _, hexec, hstep, (WriteBegun.negotiated s b).polledWrite hr⟩
end

section
/-! Proofs about the clock, the waits and the deadline (41_deadline_tracker.md R110 to R118): what a wait's step does to `NOW`, what
`RecordDeadline` leaves, when `AwaitReady` sleeps, and that every run of the block lets the clock go on. -/

namespace Sys2Proof.Machine

/-! ## The delay class and the waits -/

/-- A memory write is of the extended class whatever its byte (41_deadline_tracker.md R114). -/
theorem selectDelayClass_memory (p : Params) (b : Byte) : selectDelayClass p true b = p.tExt := rfl

/-- The step of `Wait(n)`: only `NOW` changes (41_deadline_tracker.md R111). -/
theorem step_wait {s : State} {n : Nat} {rest : List Micro} (hs : s.seq = .wait n :: rest) :
    step s = .next ((s.envMove.start rest).setNow (s.env.now + (s.moveAt 0).dt + n)) := by
  rw [step_busy hs, ← State.moveAt_zero]
  rfl

/-- The step of `WaitUntil(t)`: only `NOW` changes (41_deadline_tracker.md R112). -/
theorem step_waitUntil {s : State} {t : Nat} {rest : List Micro} (hs : s.seq = .waitUntil t :: rest) :
    step s = .next ((s.envMove.start rest).setNow (max (s.env.now + (s.moveAt 0).dt) t)) := by
  rw [step_busy hs, ← State.moveAt_zero]
  rfl

/-! ## The deadline -/

/-- The guarded difference of `AwaitReady`'s test is one strict comparison (41_deadline_tracker.md R118). -/
theorem State.blindSleeps_eq (s : State) :
    s.blindSleeps = decide (s.tnow + s.env.params.tThresh < s.deadline) := by
  rw [State.blindSleeps, ← Bool.decide_and, decide_eq_decide]
  omega

/-- The whole state `RecordDeadline` leaves: the environment has moved twice, and the clock was read after its first move
(41_deadline_tracker.md R115). -/
theorem State.afterEvents_recordDeadlineEvents (s : State) :
    s.afterEvents recordDeadlineEvents =
      { s with tnow := s.env.now + (s.moveAt 0).dt,
               deadline := s.env.now + (s.moveAt 0).dt + selectDelayClass s.env.params s.rs s.wbyte,
               env := s.env.advance.advance } := by
  rw [← State.moveAt_zero]
  rfl

/-- A run through the straight events that stand first in the sequencer. -/
theorem steps_straight_of_seq {es rest : List Micro} (h : ∀ op ∈ es, op.straight = true) {s : State}
    (hs : s.seq = es ++ rest) : steps es.length s = .next ((s.afterEvents es).start rest) := by
  have hrun := steps_straight es h s rest
  rwa [← hs, State.start_self] at hrun

/-! ## The parameters -/

/-- No step changes a parameter (00_scope.md R7, R8). -/
theorem step_params {s t : State} (h : step s = .next t) : t.env.params = s.env.params := by
  rcases step_next_cases h with ⟨op, rest, _, rfl⟩ | ⟨_, _, rfl⟩ | ⟨_, q, rest, _, _, rfl⟩ | ⟨_, q, rest, i, _, _, he⟩
  · simp [State.runMicro, State.event_frame]
  · rfl
  · rfl
  · obtain ⟨_, _, henv⟩ := exec_keeps_tracker he
    rw [henv]
    rfl

/-! ## The clock -/

/-- The clock reaches every value in a run that is long enough (41_deadline_tracker.md R110). -/
theorem State.exists_steps_now_ge (s : State) (t : Nat) : ∃ n, ∀ u, steps n s = .next u → t ≤ u.env.now := by
  obtain ⟨n, hn⟩ := s.exists_movesTime_ge t
  refine ⟨n, fun u hu => ?_⟩
  have hnow := steps_now_ge n hu
  omega

end Sys2Proof.Machine

open Sys2Proof.Machine

/-- Settles O15: a step lets at least the environment's move pass, and neither an event nor a look at the port writes a
parameter. -/
theorem clockIsMonotone : Obligations.ClockIsMonotone := by
  intro s t h
  obtain ⟨hnow, _⟩ := step_next_moves h
  exact ⟨by omega, step_params h⟩

/-- Settles O55: some number of steps takes the clock to `t` in whatever run goes on that long, and the wait of an idle block
is such a run. -/
theorem clockIsUnbounded : Obligations.ClockIsUnbounded := by
  intro s t
  obtain ⟨n, hn⟩ := s.exists_steps_now_ge t
  refine ⟨fun hruns => ?_, fun hs hh => ?_⟩
  · obtain ⟨u, hu⟩ := hruns n
    exact ⟨n, u, hu, hn u hu⟩
  · obtain ⟨u, hu, hseq, hhost⟩ := steps_idle n hs hh
    exact ⟨n, u, hu, hseq, hhost, hn u hu⟩

/-- Settles O6: a memory write is tested first, then the byte's low six bits. -/
theorem delayClassRule : Obligations.DelayClassRule := by
  intro p b
  refine ⟨selectDelayClass_memory p b, fun h => ?_, fun h => ?_⟩
  · rw [selectDelayClass_instruction, if_pos h]
  · rw [selectDelayClass_instruction, if_neg (Nat.not_le.mpr h)]

/-- Settles O16: each wait's step sets `NOW` to its lower bound, counted from where the environment's move left the clock. -/
theorem waitsAreLowerBounds : Obligations.WaitsAreLowerBounds := by
  intro s rest n
  refine ⟨fun hs => ⟨_, step_wait hs, ?_, rfl, rfl⟩, fun hs => ⟨_, step_waitUntil hs, ?_, fun h => ?_, rfl⟩⟩
  · simp only [State.setNow_fields]
    omega
  · exact Nat.le_max_right _ _
  · exact Nat.max_eq_left (Nat.le_add_right_of_le h)

/-- Settles O37: the two events of `RecordDeadline` are straight, and the state they leave holds the clock read and the sum. -/
theorem recordDeadlineOverwrites : Obligations.RecordDeadlineOverwrites := by
  intro s rest hs
  refine ⟨_, steps_straight_of_seq (es := recordDeadlineEvents) (by decide) hs, ?_⟩
  rw [State.afterEvents_recordDeadlineEvents]
  exact ⟨rfl, rfl, rfl⟩

/-- Settles O38: the test's step is the environment's move and the choice by `blindSleeps`. -/
theorem blindSleepAboveThreshold : Obligations.BlindSleepAboveThreshold := by
  intro s rest hs
  have htest := step_awaitTest s rest
  rw [← hs, State.start_self, State.blindSleeps_eq] at htest
  simp only [decide_eq_true_eq] at htest
  exact htest
end

section
/-! Proofs about where a transaction leads (42_bus_encoder.md R125; 43_bus_decoder.md R142; 45_node_lifecycle.md R174): every
list of events leaves E low and turns the lines it reads back to outputs, so each step keeps what an idle installed block
rests on. -/

namespace Sys2Proof.Machine

/-! ## Event lists that end with E low and the pins outputs -/

/-- The listed events touch no direction and leave a low E low. -/
structure StrobesOnly (es : List Micro) : Prop where
  dirs : ∀ p y, after (Micro.onDir p) es y = y
  low  : after (Micro.onOut .E) es false = false

theorem StrobesOnly.nil : StrobesOnly [] := ⟨fun _ _ => rfl, rfl⟩

theorem StrobesOnly.append {es fs : List Micro} (he : StrobesOnly es) (hf : StrobesOnly fs) : StrobesOnly (es ++ fs) where
  dirs p y := by rw [after_append, he.dirs, hf.dirs]
  low := by rw [after_append, he.low, hf.low]

/-- A lower latch before the events is no higher after them. -/
theorem after_onOut_eq_false {es : List Micro} {p : Pin} {x : Bool} (h : after (Micro.onOut p) es x = false) :
    after (Micro.onOut p) es false = false := by
  induction es generalizing x with
  | nil => rfl
  | cons op es ih =>
    cases op with
    | drive q y =>
      by_cases hq : q = p
      · simpa [Micro.onOut, hq] using h
      · simp only [after_cons, Micro.onOut, if_neg hq] at h ⊢
        exact ih h
    | _ => exact ih h

/-- Events that only strobe, put first, do not raise E at the end. -/
theorem StrobesOnly.append_low {es fs : List Micro} (he : StrobesOnly es) {x : Bool}
    (h : after (Micro.onOut .E) fs x = false) : after (Micro.onOut .E) (es ++ fs) x = false := by
  rw [after_append]
  cases x with
  | false =>
    rw [he.low]
    exact h
  | true =>
    cases after (Micro.onOut .E) es true with
    | true => exact h
    | false => exact after_onOut_eq_false h

theorem strobesOnly_pollTail (p : Params) (w : Bool) : StrobesOnly (pollTail p w) where
  dirs q y := congrFun (dirsAfter_pollTail p w fun _ => y) q
  low := congrFun (latchesAfter_pollTail p w (lv := fun _ => false) rfl) .E

theorem strobesOnly_pollAgain (p : Params) (w : Bool) : StrobesOnly (pollAgain p w) := by
  unfold pollAgain
  cases w <;> cases p.pollPair4 <;> exact ⟨fun _ _ => rfl, rfl⟩

theorem strobesOnly_writeTail (s : State) : StrobesOnly s.writeTail := by
  unfold State.writeTail State.writeControls State.writeCycles State.valueCycle
  cases s.readEn <;> cases s.width8 <;> exact ⟨fun _ _ => rfl, rfl⟩

/-- The listed events leave a low E low and a pin that is an output an output, whatever they do in between. -/
structure EndsAtRest (es : List Micro) : Prop where
  dirs : ∀ p, after (Micro.onDir p) es .Out = .Out
  low  : after (Micro.onOut .E) es false = false

theorem StrobesOnly.endsAtRest {es : List Micro} (h : StrobesOnly es) : EndsAtRest es :=
  ⟨fun p => h.dirs p .Out, h.low⟩

theorem EndsAtRest.append {es fs : List Micro} (he : EndsAtRest es) (hf : EndsAtRest fs) : EndsAtRest (es ++ fs) where
  dirs p := by rw [after_append, he.dirs, hf.dirs]
  low := by rw [after_append, he.low, hf.low]

/-- `LinesOut` undoes `LinesIn` (43_bus_decoder.md R142). -/
theorem StrobesOnly.between_lines {es : List Micro} (h : StrobesOnly es) (w : Bool) :
    EndsAtRest (linesIn w ++ es ++ linesOut w) where
  dirs p := by
    rw [after_append, after_append, h.dirs]
    cases w <;> cases p <;> rfl
  low := by
    rw [after_append, after_append]
    cases w <;> exact h.low

theorem endsAtRest_busyWait (p : Params) (w : Bool) : EndsAtRest (busyWait p w) := by
  have hpolls : StrobesOnly ([.drive .RS false, .drive .RW true] ++ poll p ++ pollTail p w) :=
    StrobesOnly.append ⟨fun _ _ => rfl, rfl⟩ (strobesOnly_pollTail p w)
  simpa [busyWait] using hpolls.between_lines w

theorem endsAtRest_awaitReady (s : State) : EndsAtRest s.awaitReady := by
  unfold State.awaitReady
  split
  · exact EndsAtRest.append ⟨fun _ => rfl, rfl⟩ (endsAtRest_busyWait _ _)
  · exact ⟨fun _ => rfl, rfl⟩

/-- A write returns E to its idle level (42_bus_encoder.md R125). -/
theorem endsAtRest_writeEvents (s : State) : EndsAtRest s.writeEvents := by
  rw [s.writeEvents_eq]
  exact (endsAtRest_awaitReady s).append (strobesOnly_writeTail s).endsAtRest

theorem endsAtRest_readEvents (s : State) : EndsAtRest s.readEvents := by
  have hawait : EndsAtRest s.readAwait := by
    unfold State.readAwait
    split
    · exact endsAtRest_awaitReady s
    · exact ⟨fun _ => rfl, rfl⟩
  unfold State.readEvents
  split
  · have hcycle : StrobesOnly ([.drive .RS s.rs, .drive .RW true] ++ readCycle s.env.params lines8.reverse .v) :=
      ⟨fun _ _ => rfl, rfl⟩
    have hend : EndsAtRest [.rbyteFromLines, .respond] := ⟨fun _ => rfl, rfl⟩
    simpa [State.read8] using hawait.append ((hcycle.between_lines true).append hend)
  · have hcycles : StrobesOnly ([.drive .RS s.rs, .drive .RW true] ++ readCycle s.env.params lines4.reverse .hi ++
        readCycle s.env.params lines4.reverse .lo) := ⟨fun _ _ => rfl, rfl⟩
    have hend : EndsAtRest [.rbyteFromNibbles, .respond] := ⟨fun _ => rfl, rfl⟩
    simpa [State.read4] using hawait.append ((hcycles.between_lines false).append hend)

/-! ## SETUP -/

/-- Step 4 of SETUP for a list of pins: the listed ones get pull-up, output and level 0 (45_node_lifecycle.md R174). -/
theorem after_idlePins (ps : List Pin) (q : Pin) :
    (∀ d, after (Micro.onDir q) (idlePins ps) d = if q ∈ ps then .Out else d) ∧
    (∀ u, after (Micro.onPull q) (idlePins ps) u = if q ∈ ps then .Up else u) ∧
    ∀ x, after (Micro.onOut q) (idlePins ps) x = if q ∈ ps then false else x := by
  induction ps with
  | nil => simp [idlePins]
  | cons p ps ih =>
    have hcons : idlePins (p :: ps) = [.pullUp p, .pinMode p .Out, .drive p false] ++ idlePins ps := rfl
    rw [hcons]
    by_cases hp : p = q
    · subst hp
      simp [ih, Micro.onDir, Micro.onPull, Micro.onOut]
    · simp [ih, Micro.onDir, Micro.onPull, Micro.onOut, hp, Ne.symm hp]

/-- A SETUP with valid pins ends with E low and the used pins outputs with pull-ups (45_node_lifecycle.md R174, R177). -/
theorem after_setupEvents_pins (p : Params) (r m : Bool) :
    (∀ x, after (Micro.onOut .E) (setupEvents p r m) x = false) ∧
    ∀ q : Pin, q.used r m = true →
      (∀ d, after (Micro.onDir q) (setupEvents p r m) d = .Out) ∧
      ∀ u, after (Micro.onPull q) (setupEvents p r m) u = .Up := by
  refine ⟨fun x => ?_, fun q hq => ⟨fun d => ?_, fun u => ?_⟩⟩
  · cases r <;> cases m <;> rfl
  all_goals
    have hmem := (mem_usedPins r m q).2 hq
    cases m <;>
      simp [setupEvents, priming, writeCycle, setupLast, after_idlePins, Micro.onDir, Micro.onPull, hmem]

/-! ## What an operation keeps -/

theorem Micro.operational_onReadEn {readEn w : Bool} {op : Micro} (h : op.operational readEn w = true) (y : Bool) :
    op.onReadEn y = y := by
  obtain ⟨hre, _⟩ := Micro.operational_keeps h
  exact hre y

theorem Micro.operational_onPull {readEn w : Bool} {op : Micro} (h : op.operational readEn w = true) (p : Pin)
    (y : Pull) : op.onPull p y = y := by
  obtain ⟨_, _, _, _, hpull⟩ := Micro.operational_keeps h
  exact hpull p y

/-! ## The invariant -/

/-- In an idle installed block what the invariant promises holds now (10_state.md R20, R23, R25). -/
theorem SettledInv.ready {s : State} (h : SettledInv s) (hr : s.Ready) :
    s.outOf .E = false ∧ s.readEn = s.setupR ∧ s.mode8En = s.setupM ∧
    ∀ p : Pin, p.used s.setupR s.setupM = true → s.dirOf p = .Out ∧ s.pullOf p = .Up := by
  obtain ⟨hs, hin⟩ := hr
  have hlive : s.Live := by simp [State.Live, hs, hin]
  have hE := h.strobeLow hlive
  have hdir := h.usedOut hlive
  have hpull := h.usedUp hlive
  have hre := h.readEn hlive
  have hm8 := h.mode8En hlive
  rw [hs] at hE hdir hpull hre hm8
  exact ⟨hE, hre, hm8, fun p hp => ⟨hdir p hp, hpull p hp⟩⟩

/-- A host operation whose events end at rest begins in an idle installed block that meets the invariant. -/
theorem SettledInv.start {s : State} (h : SettledInv s) (hr : s.Ready) {es : List Micro} {readEn w : Bool}
    (hops : ∀ op ∈ es, op.operational readEn w = true) (hrest : EndsAtRest es) : SettledInv (s.start es) := by
  obtain ⟨hE, hre, hm8, hused⟩ := h.ready hr
  refine ⟨fun _ => ?_, fun _ p hp => ?_, fun _ p hp => ?_, fun _ => ?_, fun _ => ?_⟩
  · simpa [hE] using hrest.low
  · obtain ⟨hdir, _⟩ := hused p hp
    simpa [hdir] using hrest.dirs p
  · obtain ⟨_, hpull⟩ := hused p hp
    exact (after_of_fixed (fun op hop => Micro.operational_onPull (hops op hop) p) _).trans hpull
  · exact (after_of_fixed (fun op hop => Micro.operational_onReadEn (hops op hop)) _).trans hre
  · exact (after_of_fixed (fun op hop => Micro.operational_onMode8En (hops op hop)) _).trans hm8

/-- `Negotiate` before them changes nothing the invariant speaks of. -/
theorem SettledInv.negotiate_cons {s : State} {es : List Micro} (h : SettledInv (s.start es)) :
    SettledInv (s.start (.negotiate :: es)) := { h with }

/-- Accepting an instruction: a SETUP leads to a settled block or installs none, an operation ends at rest. -/
theorem SettledInv.exec {i : Instr} {s t : State} (h : SettledInv s) (he : exec i s = .next t) : SettledInv t := by
  obtain ⟨hs, ⟨r, m, k, _, hin, ⟨_, rfl⟩ | ⟨_, rfl⟩⟩ |
    ⟨hin, ⟨d, _, rfl⟩ | ⟨b, hb, rfl⟩ | ⟨x, _, hr, rfl⟩ | ⟨x, _, hr, rfl⟩⟩⟩ := exec_next_cases he
  · obtain ⟨hE, hused⟩ := after_setupEvents_pins s.env.params r m
    obtain ⟨_, hm8⟩ := after_setupEvents s.env.params r m s.wbyte s.width8 s.mode8En
    refine ⟨fun _ => hE _, fun _ q hq => ?_, fun _ q hq => ?_, fun _ => ?_, fun _ => hm8⟩
    · obtain ⟨hdir, _⟩ := hused q hq
      exact hdir _
    · obtain ⟨_, hpull⟩ := hused q hq
      exact hpull _
    · cases r <;> cases m <;> rfl
  · have hdead : ¬ ((s.latchSetup r m k).start (failedSetupEvents (failingPins r m k))).Live := by
      simp [State.Live, after_failedSetupEvents_onInstalled, hin]
    constructor <;> intro hlive <;> exact absurd hlive hdead
  · exact SettledInv.start (s := s.latchWrite 0b00#2 d) { h with } ⟨hs, hin⟩ (operational_writeEvents _)
      (endsAtRest_writeEvents _)
  · refine SettledInv.negotiate_cons (s := s.latchWrite 0b01#2 b) ?_
    exact SettledInv.start (s := s.latchWrite 0b01#2 b) { h with } ⟨hs, hin⟩ (operational_afterNegotiate _)
      (endsAtRest_writeEvents _)
  · exact SettledInv.start (s := s.latchRead 0b10#2) { h with } ⟨hs, hin⟩ (operational_readEvents _ hr)
      (endsAtRest_readEvents _)
  · exact SettledInv.start (s := s.latchRead 0b11#2) { h with } ⟨hs, hin⟩ (operational_readEvents _ hr)
      (endsAtRest_readEvents _)

/-! ## The next event -/

/-- After the next event stands what remained, and before it what a test may add, which only strobes. -/
theorem SequencerInv.exists_runMicro_seq {s : State} (hi : SequencerInv s) {op : Micro} {rest : List Micro}
    (hs : s.seq = op :: rest) : ∃ es, StrobesOnly es ∧ (s.runMicro op rest).seq = es ++ rest := by
  rw [State.runMicro, (s.start rest).event_seq op]
  cases op with
  | awaitTest =>
    simp only
    split
    · exact ⟨[.waitUntil s.deadline], ⟨fun _ _ => rfl, rfl⟩, rfl⟩
    · exact ⟨[], .nil, rfl⟩
  | loopTest =>
    simp only
    split
    · exact ⟨_, strobesOnly_pollAgain _ _, rfl⟩
    · exact ⟨[], .nil, rfl⟩
  | raise c info => exact ⟨[], .nil, (hi.raise_last hs).symm⟩
  | _ => exact ⟨[], .nil, rfl⟩

/-- A register that no operational event writes: the next event leads where the transaction led. -/
theorem SequencerInv.after_runMicro {s : State} (hi : SequencerInv s) {op : Micro} {rest : List Micro}
    (hs : s.seq = op :: rest) {α : Type} {f : Micro → α → α} {register : State → α}
    (hevent : ∀ u o, register (u.event o) = f o (register u)) (hstart : register (s.start rest) = register s)
    (hfixed : ∀ {readEn w : Bool} {o : Micro}, o.operational readEn w = true → ∀ y, f o y = y) :
    after f (s.runMicro op rest).seq (register (s.runMicro op rest)) = after f s.seq (register s) := by
  have hraise : ∀ c info, op = .raise c info → (s.start rest).seq = [] := by
    rintro c info rfl
    exact hi.raise_last hs
  rw [State.runMicro, State.after_event_seq (fun _ => hfixed) hraise, hevent, hstart, hs]
  rfl

/-- The next event keeps the invariant: it does now what it was expected to do, and what a test adds only strobes. -/
theorem SettledInv.runMicro {s : State} (h : SettledInv s) (hi : SequencerInv s) {op : Micro} {rest : List Micro}
    (hs : s.seq = op :: rest) : SettledInv (s.runMicro op rest) := by
  obtain ⟨es, hes, hseq⟩ := hi.exists_runMicro_seq hs
  obtain ⟨_, _, _, hR, hM, _⟩ := (s.start rest).event_frame op
  have hinst := hi.after_runMicro hs (register := State.installed) State.event_installed rfl Micro.operational_onInstalled
  have hre := hi.after_runMicro hs (register := State.readEn) State.event_readEn rfl Micro.operational_onReadEn
  have hm8 := hi.after_runMicro hs (register := State.mode8En) State.event_mode8En rfl Micro.operational_onMode8En
  have hpull (p : Pin) := hi.after_runMicro hs (register := (·.pullOf p)) (fun u o => u.event_pullOf o p) rfl
    fun ho => Micro.operational_onPull ho p
  have hlive : (s.runMicro op rest).Live → s.Live := hinst.symm.trans
  refine ⟨fun hl => ?_, fun hl p hp => ?_, fun hl p hp => ?_, fun hl => ?_, fun hl => ?_⟩
  · have hE := h.strobeLow (hlive hl)
    rw [hs] at hE
    rw [hseq, State.runMicro, State.event_outOf]
    exact hes.append_low hE
  · have hdir := h.usedOut (hlive hl) p (hR ▸ hM ▸ hp)
    rw [hs] at hdir
    rw [hseq, after_append, hes.dirs, State.runMicro, State.event_dirOf]
    exact hdir
  · exact (hpull p).trans (h.usedUp (hlive hl) p (hR ▸ hM ▸ hp))
  · exact hre.trans ((h.readEn (hlive hl)).trans hR.symm)
  · exact hm8.trans ((h.mode8En (hlive hl)).trans hM.symm)

/-! ## Runs -/

/-- What every step keeps, every run keeps. -/
theorem steps_keep {P : State → Prop} (hstep : ∀ s t, P s → step s = .next t → P t) (n : Nat) {s u : State} (h : P s)
    (hu : steps n s = .next u) : P u := by
  induction n generalizing s with
  | zero => cases hu; exact h
  | succ n ih =>
    simp only [steps] at hu
    split at hu
    · rename_i t ht
      exact ih (hstep s t h ht) hu
    · cases hu
    · cases hu

end Sys2Proof.Machine

open Sys2Proof.Machine

/-- Settles O45: the next event leads where the invariant already counts on, a look at the port changes nothing it speaks of,
and an accepted instruction leads from a settled block to a settled block. -/
theorem stepKeepsSettledInv : Obligations.StepKeepsSettledInv := by
  intro s t hi h hstep
  have hmoved : SettledInv s.envMove := { h with }
  rcases step_next_cases hstep with ⟨op, rest, hs, rfl⟩ | ⟨_, _, rfl⟩ | ⟨_, q, rest, _, _, rfl⟩ | ⟨_, q, rest, i, _, _, he⟩
  · exact hmoved.runMicro hi.envMove hs
  · exact { hmoved with }
  · exact { hmoved with }
  · exact SettledInv.exec (s := s.envMove.taken rest) { hmoved with } he

/-- Settles O46: both invariants hold along the run, and in an idle installed block the settled one says what holds now. -/
theorem idleBlockIsSettled : Obligations.IdleBlockIsSettled := by
  intro s u n hi h hu hr
  have hkeep : ∀ s t, SequencerInv s ∧ SettledInv s → step s = .next t → SequencerInv t ∧ SettledInv t :=
    fun s t ⟨hi, h⟩ hstep => ⟨stepKeepsSequencerInv s t hi hstep, stepKeepsSettledInv s t hi h hstep⟩
  obtain ⟨_, hsettled⟩ := steps_keep hkeep n ⟨hi, h⟩ hu
  obtain ⟨hE, hre, hm8, hused⟩ := hsettled.ready hr
  rw [← hre, ← hm8] at hused
  exact ⟨hE, hre, hm8, hused⟩
end

section
/-! Proofs about the read path (43_bus_decoder.md R141 to R146, R154): the events of a read, the register a cycle's samples make
up, and the byte that comes back from the wire. -/

namespace Sys2Proof.Machine

/-! ## The events of a read -/

/-- The events of a read as the spec's pseudocode has them (43_bus_decoder.md R144 to R146). -/
theorem State.readEvents_eq_expected {s : State} (hr : s.readEn = true) :
    s.readEvents = Expected.read s.env.params s.width8 s.deadline s.rs := by
  have hawait := s.awaitReady_eq_expected
  rw [hr] at hawait
  unfold Expected.read State.readEvents State.read8 State.read4 State.readAwait
  rw [hawait]
  cases s.rs <;> cases s.width8 <;> simp [linesIn, linesOut, activeLines, lines8, lines4, readCycle]

/-! ## The register a read cycle leaves -/

/-- Samples of the listed lines make up `value`, if each line shows its bit of it and no bit is left out, or was right
before. -/
theorem getLsbD_sampled {n : Nat} {dst : SampleTo} {level : Nat → Pin → Bool} {value : BitVec n} (lines : List Pin)
    (k : Nat) (x : BitVec n)
    (hlevel : ∀ j, j < lines.length → level (k + j) (lines.getD j .D7) = value.getLsbD (dst.bitOf (lines.getD j .D7)))
    {i : Nat} (hi : i < n) (hbit : i ∈ lines.map dst.bitOf ∨ x.getLsbD i = value.getLsbD i) :
    (sampled dst level k (lines.map fun q => .sample q dst) x).getLsbD i = value.getLsbD i := by
  induction lines generalizing k x with
  | nil => simpa [sampled] using hbit
  | cons q lines ih =>
    have hq : level k q = value.getLsbD (dst.bitOf q) := hlevel 0 (by simp)
    simp only [List.map_cons, sampled, if_true]
    refine ih (k + 1) _ (fun j hj => ?_) ?_
    · simpa [Nat.add_assoc, Nat.add_comm 1] using hlevel (j + 1) (by simpa using hj)
    · rw [getLsbD_setBit _ _ _ _ hi]
      by_cases hiq : i = dst.bitOf q
      · right; simp [hiq, hq]
      · simpa [hiq] using hbit

/-- Samples of lines that show `value` and carry all its bits leave `value` (30_encoding.md R81; 43_bus_decoder.md R143). -/
theorem sampled_eq_value {n : Nat} {dst : SampleTo} {level : Nat → Pin → Bool} {value : BitVec n} {lines : List Pin}
    (k : Nat) (x : BitVec n) (hcover : ∀ i, i < n → i ∈ lines.map dst.bitOf)
    (hlevel : ∀ j, j < lines.length → level (k + j) (lines.getD j .D7) = value.getLsbD (dst.bitOf (lines.getD j .D7))) :
    sampled dst level k (lines.map fun q => .sample q dst) x = value :=
  BitVec.eq_of_getLsbD_eq fun i hi => getLsbD_sampled lines k x hlevel hi (.inl (hcover i hi))

/-! ## The cycles of a write, whatever the width in force -/

theorem driving_eq_some {d : Dir} {x y : Bool} (h : driving d x = some y) : x = y := by
  cases d with
  | Out => exact Option.some.inj h
  | In => cases h

/-- Where E is an input it has no falling edge of the block's (10_state.md R23). -/
theorem carried_of_strobe_in {es : List Micro} (h : es.all (fun op => op.onDir .E .In == .In) = true) {d : Pin → Dir}
    (hd : d .E = .In) (lv : Pin → Bool) : carried d lv es = [] := by
  induction es generalizing d lv with
  | nil => rfl
  | cons op es ih =>
    obtain ⟨hop, hes⟩ := Bool.and_eq_true_iff.1 h
    have hnext : op.onDir .E (d .E) = .In := by rw [hd]; exact eq_of_beq hop
    have hlow : (driving (d .E) (lv .E) == some true) = false := by rw [hd]; rfl
    simp only [carried, ih (d := fun p => op.onDir p (d p)) hes hnext, hlow, Bool.false_and]
    rfl

/-- The edge of a cycle that sends `value` on the lines of a width: each of them carries its bit, or nothing. -/
theorem exists_carried_writeCycle (s : State) (w : Bool) {n : Nat} (value : BitVec n) {d : Pin → Dir} (hd : d .E = .Out)
    (lv : Pin → Bool) :
    ∃ x, carried d lv (writeCycle s.env.params (driven (activeLines w) value)) = [x] ∧
      dirsAfter (writeCycle s.env.params (driven (activeLines w) value)) d = d ∧
      ∀ p : Pin, p.lineAllowed w = true → ∀ y, x p = some y → y = value.getLsbD (p.index.val - if w then 0 else 4) := by
  let sender : State := { s with width8 := w }
  refine ⟨_, sender.carried_valueCycle value hd lv, sender.dirsAfter_valueCycle value d, fun p hp y hy => ?_⟩
  obtain ⟨_, _, hE⟩ := Pin.ne_of_isDataLine (Pin.isDataLine_of_lineAllowed hp)
  have hbit := driving_eq_some hy
  rw [sender.latchesAfter_valueCycle] at hbit
  simpa [strobeLow, hE, hp, sender] using hbit.symm

theorem joinNibbles_hiNibble_loNibble (b : Byte) : joinNibbles (hiNibble b) (loNibble b) = b := by
  revert b; decide

/-! ## The round trip -/

/-- The commits of the straight events that stand first in the sequencer. -/
theorem commits_straight_of_seq {es rest : List Micro} (h : ∀ op ∈ es, op.straight = true) {s : State}
    (hs : s.seq = es ++ rest) : commits es.length s = carried s.dirOf s.outOf es := by
  have hrun := commits_straight es h s rest
  rwa [← hs, State.start_self] at hrun

/-- A falling edge of the block's shows that E is an output. -/
theorem dirOf_strobe_of_carried {s : State} {es : List Micro} (h : es.all (fun op => op.onDir .E .In == .In) = true)
    {x : Pin → Option Bool} {xs : List (Pin → Option Bool)} (hx : carried s.dirOf s.outOf es = x :: xs) :
    s.dirOf .E = .Out := by
  cases hd : s.dirOf .E with
  | Out => rfl
  | In => rw [carried_of_strobe_in h hd] at hx; cases hx

/-- The two cycles that send a byte in 4-bit width, high nibble first (42_bus_encoder.md R128). -/
def sendNibbles (p : Params) (b : Byte) : List Micro :=
  writeCycle p (driven (activeLines false) (hiNibble b)) ++ writeCycle p (driven (activeLines false) (loNibble b))

/-- The cycle that sends a byte in 8-bit width (42_bus_encoder.md R127). -/
def sendByte (p : Params) (b : Byte) : List Micro := writeCycle p (driven (activeLines true) b)

/-- The cycles of a 4-bit read, and the lines given back (43_bus_decoder.md R145). -/
def readNibbles (p : Params) : List Micro :=
  readCycle p lines4.reverse .hi ++ readCycle p lines4.reverse .lo ++ linesOut false

/-- The cycle of an 8-bit read, and the lines given back (43_bus_decoder.md R144). -/
def readByte (p : Params) : List Micro := readCycle p lines8.reverse .v ++ linesOut true

/-- The first edge carries the high nibble and the second the low one (20_memory.md R55). -/
theorem State.commits_sendNibbles {s : State} {b : Byte} {rest : List Micro} {x₁ x₂ : Pin → Option Bool}
    (hs : s.seq = sendNibbles s.env.params b ++ rest)
    (hx : commits (sendNibbles s.env.params b).length s = [x₁, x₂]) {p : Pin} (hp : p.lineAllowed false = true)
    {y : Bool} :
    (x₁ p = some y → y = (hiNibble b).getLsbD (p.index.val - 4)) ∧
    (x₂ p = some y → y = (loNibble b).getLsbD (p.index.val - 4)) := by
  rw [commits_straight_of_seq (List.all_eq_true.1 rfl) hs] at hx
  have hE : s.dirOf .E = .Out := dirOf_strobe_of_carried rfl hx
  obtain ⟨c₁, hc₁, hd, h₁⟩ := exists_carried_writeCycle s false (hiNibble b) hE s.outOf
  obtain ⟨c₂, hc₂, _, h₂⟩ := exists_carried_writeCycle s false (loNibble b) hE
    (latchesAfter (writeCycle s.env.params (driven (activeLines false) (hiNibble b))) s.outOf)
  rw [sendNibbles, carried_append, hc₁, hd, hc₂] at hx
  cases hx
  exact ⟨h₁ p hp y, h₂ p hp y⟩

/-- The edge carries the byte (20_memory.md R54). -/
theorem State.commits_sendByte {s : State} {b : Byte} {rest : List Micro} {x : Pin → Option Bool}
    (hs : s.seq = sendByte s.env.params b ++ rest) (hx : commits (sendByte s.env.params b).length s = [x]) {p : Pin}
    (hp : p.lineAllowed true = true) {y : Bool} (hy : x p = some y) : y = b.getLsbD p.index.val := by
  rw [commits_straight_of_seq (List.all_eq_true.1 rfl) hs] at hx
  have hE : s.dirOf .E = .Out := dirOf_strobe_of_carried rfl hx
  obtain ⟨c, hc, _, h⟩ := exists_carried_writeCycle s true b hE s.outOf
  rw [sendByte, hc] at hx
  cases hx
  exact h p hp y hy

/-- A 4-bit read whose cycles find the nibbles of `b` on the lines returns `b` (30_encoding.md R81). -/
theorem State.afterEvents_readNibbles_rbyte {r : State} {b : Byte}
    (hhi : ∀ j, j < 4 → r.levelAt (2 + j) (lines4.reverse.getD j .D7) =
      (hiNibble b).getLsbD ((lines4.reverse.getD j .D7).index.val - 4))
    (hlo : ∀ j, j < 4 → r.levelAt (10 + j) (lines4.reverse.getD j .D7) =
      (loNibble b).getLsbD ((lines4.reverse.getD j .D7).index.val - 4)) :
    (r.afterEvents (readNibbles r.env.params ++ [.rbyteFromNibbles])).rbyte = b := by
  obtain ⟨_, hreadHi, hreadLo⟩ := r.afterEvents_samples (readNibbles r.env.params)
  have hsampledHi : sampled .hi r.levelAt 0 (readNibbles r.env.params) r.hi = hiNibble b :=
    sampled_eq_value (dst := .hi) (lines := lines4.reverse) 2 r.hi (by decide) hhi
  have hsampledLo : sampled .lo r.levelAt 0 (readNibbles r.env.params) r.lo = loNibble b :=
    sampled_eq_value (dst := .lo) (lines := lines4.reverse) 10 r.lo (by decide) hlo
  simp only [State.afterEvents_append, State.afterEvents_cons, State.afterEvents_nil, State.event,
    State.rbyteFromNibbles_fields, State.envMove_fields, hreadHi, hreadLo, hsampledHi, hsampledLo,
    joinNibbles_hiNibble_loNibble]

/-- An 8-bit read whose cycle finds `b` on the lines returns `b` (43_bus_decoder.md R144). -/
theorem State.afterEvents_readByte_rbyte {r : State} {b : Byte}
    (hv : ∀ j, j < 8 → r.levelAt (2 + j) (lines8.reverse.getD j .D7) =
      b.getLsbD (lines8.reverse.getD j .D7).index.val) :
    (r.afterEvents (readByte r.env.params ++ [.rbyteFromLines])).rbyte = b := by
  obtain ⟨hread, _⟩ := r.afterEvents_samples (readByte r.env.params)
  have hsampled : sampled .v r.levelAt 0 (readByte r.env.params) r.v = b :=
    sampled_eq_value (dst := .v) (lines := lines8.reverse) 2 r.v (by decide) hv
  simp only [State.afterEvents_append, State.afterEvents_cons, State.afterEvents_nil, State.event,
    State.rbyteFromLines_fields, State.envMove_fields, hread, hsampled]

end Sys2Proof.Machine

open Sys2Proof.Machine

/-- Settles O20: a ready block with `READ_EN` = 1 starts the read, and what it starts is the spec's list of events. -/
theorem readStarts : Obligations.ReadStarts := by
  intro s x hready hr
  have hevents (op : BitVec 2) := (s.latchRead op).readEvents_eq_expected hr
  simp only [State.latchRead_fields] at hevents
  refine ⟨(State.serveRead_ready hready hr).trans ?_, (State.serveRead_ready hready hr).trans ?_⟩
  · rw [State.startRead, hevents]; rfl
  · rw [State.startRead, hevents]; rfl

/-- Settles O42: each edge of the write carries its nibble, or the byte, on the lines of the width, and a read cycle that
finds it there has it in its register. -/
theorem roundTripLaw : Obligations.RoundTripLaw := by
  have hlines4 : ∀ j, j < 4 → (lines4.reverse.getD j .D7).lineAllowed false = true := by decide
  have hlines8 : ∀ j, j < 8 → (lines8.reverse.getD j .D7).lineAllowed true = true := by decide
  constructor
  · intro s r b rest rest' es fs hs hr x₁ x₂ hx h₁ h₂
    have hnibbles {j : Nat} (hj : j < 4) {y : Bool} := State.commits_sendNibbles (y := y) hs hx (hlines4 j hj)
    have hbyte := State.afterEvents_readNibbles_rbyte (r := r) (b := b) (fun j hj => (hnibbles hj).1 (h₁ j hj))
      fun j hj => (hnibbles hj).2 (h₂ j hj)
    exact ⟨_, steps_straight_of_seq (List.all_eq_true.1 rfl) hr, hbyte⟩
  · intro s r b rest rest' es fs hs hr x hx h
    have hbyte := State.afterEvents_readByte_rbyte (r := r) (b := b)
      fun j hj => State.commits_sendByte hs hx (hlines8 j hj) (h j hj)
    exact ⟨_, steps_straight_of_seq (List.all_eq_true.1 rfl) hr, hbyte⟩
end

section
/-! Proofs about the busy-wait loop (43_bus_decoder.md R150 to R152): a poll that reads "busy" runs as a straight list of events
after which the next poll stands, so the loop is a number of such rounds and a poll that reads "ready", or it never ends. -/

namespace Sys2Proof.Machine

/-! ## Runs that are those of a straight list -/

/-- The block in `s`, its sequencer holding `l`, goes through the listed events, its edges theirs, and then holds `l'`. -/
structure State.RunsThrough (s : State) (l es l' : List Micro) : Prop where
  run   : steps es.length (s.start l) = .next ((s.afterEvents es).start l')
  edges : commits es.length (s.start l) = carried s.dirOf s.outOf es

theorem State.RunsThrough.straight {es : List Micro} (h : ∀ op ∈ es, op.straight = true) (s : State) (l : List Micro) :
    s.RunsThrough (es ++ l) es l :=
  ⟨steps_straight es h s l, commits_straight es h s l⟩

theorem State.RunsThrough.append {s : State} {l l' l'' es fs : List Micro} (h : s.RunsThrough l es l')
    (h' : (s.afterEvents es).RunsThrough l' fs l'') : s.RunsThrough l (es ++ fs) l'' := by
  have hdirs : (s.afterEvents es).dirOf = dirsAfter es s.dirOf := funext (s.afterEvents_dirOf es)
  have hlatches : (s.afterEvents es).outOf = latchesAfter es s.outOf := funext (s.afterEvents_outOf es)
  constructor
  · rw [List.length_append, steps_add _ _ h.run, h'.run, State.afterEvents_append]
  · rw [List.length_append, commits_add _ _ h.run, h.edges, h'.edges, carried_append, hdirs, hlatches]

/-- A run that begins with the same step is as good. -/
theorem State.RunsThrough.of_step {s : State} {l m l' es : List Micro} {op : Micro}
    (h : step (s.start l) = step (s.start m)) (hm : s.RunsThrough m (op :: es) l') : s.RunsThrough l (op :: es) l' := by
  refine ⟨(steps_succ_congr h es.length).trans hm.run, Eq.trans ?_ hm.edges⟩
  simp only [List.length_cons, commits, h]
  rfl

/-- The test of the busy-wait loop is a step in which only time passes; by the flag the next poll is put first. -/
theorem State.runsThrough_loopTest (s : State) (l : List Micro) :
    s.RunsThrough (.loopTest :: l) [.wait 0] (if s.bf then pollAgain s.env.params s.width8 ++ l else l) := by
  refine State.RunsThrough.of_step ?_ (State.RunsThrough.straight (by simp [Micro.straight]) s _)
  rw [step_loopTest]
  exact (step_start_straight (op := .wait 0) rfl s _).symm

/-! ## What polling leaves unchanged -/

/-- `u` is `s` but for the directions and latches of the pins, the sample and the flag of a poll, the sequencer, the clock and
what the environment shows. -/
structure SameButPolls (s u : State) : Prop where
  registers : u = { s with dir := u.dir, out := u.out, v := u.v, bf := u.bf, seq := u.seq, env := u.env }
  params    : u.env.params = s.env.params
  host      : u.env.host = s.env.host

theorem SameButPolls.trans {s t u : State} (h : SameButPolls s t) (k : SameButPolls t u) : SameButPolls s u where
  registers := k.registers.trans (by rw [h.registers])
  params    := k.params.trans h.params
  host      := k.host.trans h.host

theorem SameButPolls.fields {s u : State} (h : SameButPolls s u) :
    u.deadline = s.deadline ∧ u.width8 = s.width8 ∧ u.rbyte = s.rbyte ∧ u.pull = s.pull ∧ u.wbyte = s.wbyte ∧
    u.op = s.op ∧ u.rs = s.rs ∧ u.tnow = s.tnow ∧ u.hi = s.hi ∧ u.lo = s.lo ∧ u.rspValid = s.rspValid := by
  rw [h.registers]
  exact ⟨rfl, rfl, rfl, rfl, rfl, rfl, rfl, rfl, rfl, rfl, rfl⟩

theorem SameButPolls.width8 {s u : State} (h : SameButPolls s u) : u.width8 = s.width8 := by
  obtain ⟨_, hw, _⟩ := h.fields
  exact hw

theorem SameButPolls.start {s u : State} (h : SameButPolls s u) (l : List Micro) : SameButPolls s (u.start l) :=
  h.trans ⟨rfl, rfl, rfl⟩

/-- The events of the busy-wait, its tests apart (43_bus_decoder.md R150). -/
def Micro.duringPolls : Micro → Bool
  | .drive _ _ | .pinMode _ _ | .sample _ .v | .wait _ | .updateBf => true
  | _ => false

theorem Micro.duringPolls_straight {op : Micro} (h : op.duringPolls = true) : op.straight = true := by
  cases op with
  | awaitTest | loopTest | raise => simp [Micro.duringPolls] at h
  | _ => rfl

theorem Micro.duringPolls_event {op : Micro} (h : op.duringPolls = true) (s : State) :
    SameButPolls s (s.envMove.event op) := by
  cases op with
  | sample p dst =>
    cases dst with
    | v => exact ⟨rfl, rfl, rfl⟩
    | _ => simp [Micro.duringPolls] at h
  | drive | pinMode | wait | updateBf => exact ⟨rfl, rfl, rfl⟩
  | _ => simp [Micro.duringPolls] at h

theorem State.afterEvents_duringPolls {es : List Micro} (h : ∀ op ∈ es, op.duringPolls = true) (s : State) :
    SameButPolls s (s.afterEvents es) := by
  induction es generalizing s with
  | nil => exact ⟨rfl, rfl, rfl⟩
  | cons op es ih =>
    obtain ⟨hop, hes⟩ := List.forall_mem_cons.1 h
    exact (Micro.duringPolls_event hop s).trans (ih hes _)

/-! ## One poll -/

/-- A poll up to its test (43_bus_decoder.md R150). -/
def flagSample (p : Params) : List Micro := readCycle p [.D7] .v ++ [.updateBf]

/-- A poll and its test, the test as a step of no effect. -/
def pollRound (p : Params) : List Micro := flagSample p ++ [.wait 0]

/-- The dummy cycle that in 4-bit width with `POLL_PAIR_4` = 1 follows a poll that read "busy" (43_bus_decoder.md R150). -/
def pairCycle (p : Params) (w : Bool) : List Micro := if !w && p.pollPair4 then dummyCycle p else []

theorem poll_append (p : Params) (l : List Micro) : poll p ++ l = flagSample p ++ .loopTest :: l := rfl

theorem pollAgain_append (p : Params) (w : Bool) (l : List Micro) :
    pollAgain p w ++ l = pairCycle p w ++ (poll p ++ l) := List.append_assoc _ _ _

theorem straight_of_duringPolls {es : List Micro} (h : ∀ op ∈ es, op.duringPolls = true) :
    ∀ op ∈ es, op.straight = true := fun op hop => Micro.duringPolls_straight (h op hop)

theorem duringPolls_flagSample (p : Params) : ∀ op ∈ flagSample p, op.duringPolls = true := List.all_eq_true.1 rfl

theorem duringPolls_pollRound (p : Params) : ∀ op ∈ pollRound p, op.duringPolls = true := List.all_eq_true.1 rfl

theorem duringPolls_pairCycle (p : Params) (w : Bool) : ∀ op ∈ pairCycle p w, op.duringPolls = true := by
  rw [← List.all_eq_true]
  unfold pairCycle
  split <;> rfl

@[simp] theorem length_flagSample (p : Params) : (flagSample p).length = 6 := rfl

@[simp] theorem length_pollRound (p : Params) : (pollRound p).length = 7 := rfl

theorem length_pairCycle (p : Params) (w : Bool) :
    (pairCycle p w).length = 4 * if !w && p.pollPair4 then 1 else 0 := by
  unfold pairCycle
  split <;> rfl

/-- A poll goes on by the level D7 had in its third step: with the next poll if that is 1. -/
theorem State.runsThrough_poll (s : State) (l : List Micro) :
    s.RunsThrough (poll s.env.params ++ l) (pollRound s.env.params)
      (if s.levelAt 2 .D7 then pollAgain s.env.params s.width8 ++ l else l) := by
  have hpolls := duringPolls_flagSample s.env.params
  have hsame := s.afterEvents_duringPolls hpolls
  have hflag : (s.afterEvents (flagSample s.env.params)).bf = s.levelAt 2 .D7 := s.afterEvents_poll_bf _
  have htest := (s.afterEvents (flagSample s.env.params)).runsThrough_loopTest l
  rw [hflag, hsame.params, hsame.width8] at htest
  rw [poll_append]
  exact (State.RunsThrough.straight (straight_of_duringPolls hpolls) s _).append htest

/-- The same with events that come before the poll. -/
theorem State.runsThrough_until_poll {as : List Micro} (has : ∀ op ∈ as, op.duringPolls = true) (s : State)
    (l : List Micro) :
    s.RunsThrough (as ++ (poll s.env.params ++ l)) (as ++ pollRound s.env.params)
      (if s.levelAt (as.length + 2) .D7 then pairCycle s.env.params s.width8 ++ (poll s.env.params ++ l) else l) := by
  have hsame := s.afterEvents_duringPolls has
  have hpoll := (s.afterEvents as).runsThrough_poll l
  rw [hsame.params, hsame.width8, State.afterEvents_levelAt, pollAgain_append] at hpoll
  exact (State.RunsThrough.straight (straight_of_duringPolls has) s _).append hpoll

/-! ## A stuck busy flag -/

/-- A run stopped within straight events. -/
theorem steps_straight_take {es : List Micro} (h : ∀ op ∈ es, op.straight = true) {n : Nat} (hn : n ≤ es.length)
    (s : State) (l : List Micro) :
    steps n (s.start (es ++ l)) = .next ((s.afterEvents (es.take n)).start (es.drop n ++ l)) := by
  have hrun := steps_straight (es.take n) (fun op hop => h op (List.mem_of_mem_take hop)) s (es.drop n ++ l)
  rwa [← List.append_assoc, List.take_append_drop, List.length_take_of_le hn] at hrun

/-- As long as each poll reads 1 the run stays before the loop's end: the polls' own registers apart nothing has changed, and
what follows the loop is still to come. -/
theorem State.exists_steps_polling (n : Nat) {s : State} {as l : List Micro} (has : ∀ op ∈ as, op.duringPolls = true)
    (hbusy : ∀ j, as.length + j * (7 + (pairCycle s.env.params s.width8).length) + 2 < n →
      s.levelAt (as.length + j * (7 + (pairCycle s.env.params s.width8).length) + 2) .D7 = true) :
    ∃ u op es, steps n (s.start (as ++ (poll s.env.params ++ l))) = .next u ∧ SameButPolls s u ∧
      u.seq = es ++ op :: l := by
  induction n using Nat.strong_induction_on generalizing s as with
  | h n ih =>
    have hround := duringPolls_pollRound s.env.params
    by_cases hn : n ≤ (as ++ flagSample s.env.params).length
    · have hbefore : ∀ op ∈ as ++ flagSample s.env.params, op.duringPolls = true :=
        List.forall_mem_append.2 ⟨has, duringPolls_flagSample _⟩
      have hrun := steps_straight_take (straight_of_duringPolls hbefore) hn s (.loopTest :: l)
      rw [List.append_assoc, ← poll_append] at hrun
      exact ⟨_, _, _, hrun, (s.afterEvents_duringPolls fun op hop => hbefore op (List.mem_of_mem_take hop)).start _, rfl⟩
    · have hlen : (as ++ flagSample s.env.params).length = as.length + 6 := by simp
      have hlen' : (as ++ pollRound s.env.params).length = as.length + 7 := by simp
      obtain ⟨m, rfl⟩ : ∃ m, n = (as ++ pollRound s.env.params).length + m := ⟨n - (as.length + 7), by omega⟩
      have hpoll := s.runsThrough_until_poll has l
      rw [if_pos (by simpa using hbusy 0 (by omega))] at hpoll
      have hsame := s.afterEvents_duringPolls (List.forall_mem_append.2 ⟨has, hround⟩)
      have hnext := ih m (by omega) (s := s.afterEvents (as ++ pollRound s.env.params))
        (duringPolls_pairCycle s.env.params s.width8) fun j hj => ?_
      · rw [hsame.params] at hnext
        obtain ⟨u, op, es, hrun, hu, hseq⟩ := hnext
        exact ⟨u, op, es, (steps_add _ _ hpoll.run).trans hrun, hsame.trans hu, hseq⟩
      · rw [hsame.params, hsame.width8] at hj ⊢
        have hlater := hbusy (j + 1)
        rw [Nat.succ_mul] at hlater
        rw [State.afterEvents_levelAt]
        convert hlater (by omega) using 2
        omega

/-- A busy block refuses every instruction, an address out of range first (46_host_operations.md R197 (c)). -/
theorem exec_of_busy {u : State} (h : u.busy = true) (i : Instr) :
    exec i u = .refused .busy ∨ exec i u = .refused .constructorArgument := by
  have hserve (t : State) : u.serve t = .refused .busy := if_pos h
  have hread (t : State) : u.serveRead t = .refused .busy := if_pos h
  cases i with
  | setup r m k => exact .inl (if_pos h)
  | rdd x => exact .inl (hread _)
  | rds x => exact .inl (hread _)
  | setCgram a =>
    by_cases ha : a ≤ 0x3F
    · exact .inl ((if_pos ha).trans (hserve _))
    · exact .inr (if_neg ha)
  | setDdram a =>
    by_cases ha : a ≤ 0x7F
    · exact .inl ((if_pos ha).trans (hserve _))
    · exact .inr (if_neg ha)
  | _ => exact .inl (hserve _)

/-! ## The whole busy-wait -/

/-- What comes before the first poll: the lines of the width become inputs, RS = 0, RW = 1 (43_bus_decoder.md R150). -/
def busyWaitStart (w : Bool) : List Micro := linesIn w ++ [.drive .RS false, .drive .RW true]

/-- The rounds of `k` polls that read "busy". -/
def busyRounds (p : Params) (w : Bool) (k : Nat) : List Micro :=
  (List.replicate k (pollRound p ++ pairCycle p w)).flatten

/-- The events of a busy-wait in which `k` polls read "busy" and the next "ready". -/
def State.busyWaitEvents (s : State) (k : Nat) : List Micro :=
  busyWaitStart s.width8 ++ busyRounds s.env.params s.width8 k ++ flagSample s.env.params ++ s.pollsEnd

theorem busyWait_append (p : Params) (w : Bool) (rest : List Micro) :
    busyWait p w ++ rest = busyWaitStart w ++ (poll p ++ (pollTail p w ++ linesOut w ++ rest)) := by
  simp [busyWait, busyWaitStart]

theorem duringPolls_busyWaitStart (w : Bool) : ∀ op ∈ busyWaitStart w, op.duringPolls = true := by
  rw [← List.all_eq_true]
  cases w <;> rfl

theorem length_busyWaitStart (w : Bool) : (busyWaitStart w).length = (if w then 8 else 4) + 2 := by
  cases w <;> rfl

theorem duringPolls_busyRounds (p : Params) (w : Bool) (k : Nat) : ∀ op ∈ busyRounds p w k, op.duringPolls = true := by
  intro op hop
  obtain ⟨round, hround, hop⟩ := List.mem_flatten.1 hop
  rw [List.eq_of_mem_replicate hround] at hop
  exact List.forall_mem_append.2 ⟨duringPolls_pollRound p, duringPolls_pairCycle p w⟩ op hop

theorem length_busyRounds (p : Params) (w : Bool) (k : Nat) :
    (busyRounds p w k).length = k * (7 + (pairCycle p w).length) := by
  simp [busyRounds]

theorem duringPolls_pollsEnd (s : State) : ∀ op ∈ s.pollsEnd, op.duringPolls = true :=
  List.all_eq_true.1 (State.all_pollsEnd (fun _ _ => rfl) (fun _ => rfl) (fun _ _ => rfl) s)

theorem State.duringPolls_busyWaitEvents (s : State) (k : Nat) : ∀ op ∈ s.busyWaitEvents k, op.duringPolls = true := by
  simp only [State.busyWaitEvents, List.forall_mem_append]
  exact ⟨⟨⟨duringPolls_busyWaitStart _, duringPolls_busyRounds _ _ k⟩, duringPolls_flagSample _⟩, duringPolls_pollsEnd s⟩

/-! ## Its run -/

/-- `k` polls that read "busy" run as `k` rounds, and the next poll stands again. -/
theorem State.runsThrough_busyRounds (k : Nat) {s : State} (l : List Micro)
    (hbusy : ∀ j, j < k → s.levelAt (j * (7 + (pairCycle s.env.params s.width8).length) + 2) .D7 = true) :
    s.RunsThrough (poll s.env.params ++ l) (busyRounds s.env.params s.width8 k) (poll s.env.params ++ l) := by
  induction k generalizing s with
  | zero => exact ⟨rfl, rfl⟩
  | succ k ih =>
    have hround : ∀ op ∈ pollRound s.env.params ++ pairCycle s.env.params s.width8, op.duringPolls = true :=
      List.forall_mem_append.2 ⟨duringPolls_pollRound _, duringPolls_pairCycle _ _⟩
    have hsame := s.afterEvents_duringPolls hround
    have hpoll := s.runsThrough_poll l
    rw [if_pos (by simpa using hbusy 0 (by omega)), pollAgain_append] at hpoll
    have hpair := State.RunsThrough.straight (straight_of_duringPolls (duringPolls_pairCycle s.env.params s.width8))
      (s.afterEvents (pollRound s.env.params)) (poll s.env.params ++ l)
    have hnext := ih (s := s.afterEvents (pollRound s.env.params ++ pairCycle s.env.params s.width8)) fun j hj => ?_
    · rw [hsame.params, hsame.width8] at hnext
      exact (hpoll.append hpair).append hnext
    · have hlater := hbusy (j + 1) (by omega)
      rw [Nat.succ_mul] at hlater
      rw [hsame.params, hsame.width8, State.afterEvents_levelAt]
      convert hlater using 2
      rw [List.length_append, length_pollRound]
      omega

theorem State.busyWaitEvents_eq (s : State) (k : Nat) :
    s.busyWaitEvents k = busyWaitStart s.width8 ++ (busyRounds s.env.params s.width8 k ++
      (pollRound s.env.params ++ (pollTail s.env.params s.width8 ++ linesOut s.width8))) := by
  simp [State.busyWaitEvents, State.pollsEnd, pollRound]

/-- The busy-wait runs as the straight list of its events. -/
theorem State.runsThrough_busyWait {s : State} {k : Nat} (rest : List Micro)
    (hbusy : ∀ j, j < k → s.levelAt
      ((busyWaitStart s.width8).length + j * (7 + (pairCycle s.env.params s.width8).length) + 2) .D7 = true)
    (hready : s.levelAt
      ((busyWaitStart s.width8).length + k * (7 + (pairCycle s.env.params s.width8).length) + 2) .D7 = false) :
    s.RunsThrough (busyWait s.env.params s.width8 ++ rest) (s.busyWaitEvents k) rest := by
  have hstart := duringPolls_busyWaitStart s.width8
  have hrounds := duringPolls_busyRounds s.env.params s.width8 k
  have hend : ∀ op ∈ pollTail s.env.params s.width8 ++ linesOut s.width8, op.straight = true :=
    fun op hop => straight_pollsEnd s op (.tail _ hop)
  let t := s.afterEvents (busyWaitStart s.width8)
  let u := t.afterEvents (busyRounds s.env.params s.width8 k)
  have ht : SameButPolls s t := s.afterEvents_duringPolls hstart
  have hu : SameButPolls s u := ht.trans (t.afterEvents_duringPolls hrounds)
  have hlevel (i : Nat) : t.levelAt i .D7 = s.levelAt ((busyWaitStart s.width8).length + i) .D7 :=
    s.afterEvents_levelAt _ i .D7
  have hpolls := t.runsThrough_busyRounds k (pollTail s.env.params s.width8 ++ linesOut s.width8 ++ rest) fun j hj => by
    rw [ht.params, ht.width8, hlevel]
    exact hbusy j hj
  have hlast := u.runsThrough_poll (pollTail s.env.params s.width8 ++ linesOut s.width8 ++ rest)
  have hu2 : u.levelAt 2 .D7 = false := by
    rw [State.afterEvents_levelAt, hlevel, length_busyRounds]
    exact hready
  rw [ht.params, ht.width8] at hpolls
  rw [hu2, hu.params] at hlast
  rw [busyWait_append, State.busyWaitEvents_eq]
  exact (State.RunsThrough.straight (straight_of_duringPolls hstart) s _).append
    (hpolls.append (hlast.append (State.RunsThrough.straight hend _ rest)))

/-! ## Its pins -/

theorem busyRounds_succ (p : Params) (w : Bool) (k : Nat) :
    busyRounds p w (k + 1) = pollRound p ++ pairCycle p w ++ busyRounds p w k := rfl

theorem latchesAfter_flagSample (p : Params) (lv : Pin → Bool) : latchesAfter (flagSample p) lv = strobeLow lv := by
  rw [flagSample, latchesAfter_append, latchesAfter_poll]
  rfl

theorem carried_flagSample (p : Params) {d : Pin → Dir} (hd : d .E = .Out) (lv : Pin → Bool) :
    carried d lv (flagSample p) = [fun q => driving (d q) (strobeLow lv q)] := by
  have hflag : ∀ d lv, carried d lv [.updateBf] = [] := carried_of_keepsStrobe rfl
  rw [flagSample, carried_append, carried_poll p hd, hflag]
  rfl

/-- A round turns no pin, and E low is all it leaves on the latches. -/
theorem pinsAfter_round (p : Params) (w : Bool) (d : Pin → Dir) (lv : Pin → Bool) :
    dirsAfter (pollRound p ++ pairCycle p w) d = d ∧ latchesAfter (pollRound p ++ pairCycle p w) lv = strobeLow lv := by
  have hround : latchesAfter (pollRound p) lv = strobeLow lv := latchesAfter_flagSample p lv
  rw [latchesAfter_append, hround]
  unfold pairCycle
  split
  · exact ⟨rfl, (latchesAfter_dummyCycle p _).trans (strobeLow_of_low rfl)⟩
  · exact ⟨rfl, rfl⟩

/-- A round has an edge for its poll and one for its dummy cycle, if it has that. -/
theorem length_carried_round (p : Params) (w : Bool) {d : Pin → Dir} (hd : d .E = .Out) (lv : Pin → Bool) :
    (carried d lv (pollRound p ++ pairCycle p w)).length = 1 + if !w && p.pollPair4 then 1 else 0 := by
  have hwait : ∀ d lv, carried d lv [.wait 0] = [] := carried_of_keepsStrobe rfl
  rw [carried_append, pollRound, carried_append, carried_flagSample p hd, hwait]
  unfold pairCycle
  split
  · have hdirs : dirsAfter (flagSample p ++ [.wait 0]) d = d := rfl
    rw [hdirs, carried_dummyCycle p hd]
    rfl
  · rfl

theorem dirsAfter_busyRounds (p : Params) (w : Bool) (k : Nat) (d : Pin → Dir) : dirsAfter (busyRounds p w k) d = d := by
  induction k with
  | zero => rfl
  | succ k ih =>
    obtain ⟨hdirs, _⟩ := pinsAfter_round p w d fun _ => false
    rw [busyRounds_succ, dirsAfter_append, hdirs, ih]

theorem strobeLow_latchesAfter_busyRounds (p : Params) (w : Bool) (k : Nat) (lv : Pin → Bool) :
    strobeLow (latchesAfter (busyRounds p w k) lv) = strobeLow lv := by
  induction k generalizing lv with
  | zero => rfl
  | succ k ih =>
    obtain ⟨_, hlatches⟩ := pinsAfter_round p w (fun _ => .In) lv
    rw [busyRounds_succ, latchesAfter_append, hlatches, ih]
    exact strobeLow_of_low rfl

theorem length_carried_busyRounds (p : Params) (w : Bool) (k : Nat) {d : Pin → Dir} (hd : d .E = .Out) (lv : Pin → Bool) :
    (carried d lv (busyRounds p w k)).length = k * (1 + if !w && p.pollPair4 then 1 else 0) := by
  induction k generalizing lv with
  | zero => simp [busyRounds, carried]
  | succ k ih =>
    obtain ⟨hdirs, _⟩ := pinsAfter_round p w d lv
    rw [busyRounds_succ, carried_append, List.length_append, length_carried_round p w hd, hdirs, ih]
    ring

/-- During the polls the lines of the width are inputs. -/
theorem State.dirsAfter_busyWaitStart (s : State) : dirsAfter (busyWaitStart s.width8) s.dirOf = s.pollDirs := by
  rw [busyWaitStart, dirsAfter_append, dirsAfter_linesIn]
  rfl

/-- The poll that reads "ready" leaves RS = 0, RW = 1 and E low. -/
theorem State.latchesAfter_ready (s : State) (k : Nat) :
    latchesAfter (busyWaitStart s.width8 ++ busyRounds s.env.params s.width8 k ++ flagSample s.env.params) s.outOf =
      s.pollLatches := by
  rw [latchesAfter_append, latchesAfter_flagSample, latchesAfter_append, strobeLow_latchesAfter_busyRounds, busyWaitStart,
    latchesAfter_append, latchesAfter_linesIn]
  rfl

/-- The lines of the width are outputs again (43_bus_decoder.md R142, R150). -/
theorem State.dirOf_busyWaitEvents (s : State) (k : Nat) :
    (s.afterEvents (s.busyWaitEvents k)).dirOf = fun p => if p.lineAllowed s.width8 then .Out else s.dirOf p := by
  have hflag : dirsAfter (flagSample s.env.params) s.pollDirs = s.pollDirs := rfl
  calc (s.afterEvents (s.busyWaitEvents k)).dirOf
      = dirsAfter (s.busyWaitEvents k) s.dirOf := funext (s.afterEvents_dirOf _)
    _ = _ := by
      simp only [State.busyWaitEvents, dirsAfter_append, s.dirsAfter_busyWaitStart, dirsAfter_busyRounds, hflag,
        dirsAfter_pollsEnd]

/-- RS = 0, RW = 1 and E low are all that has become of the latches (43_bus_decoder.md R150). -/
theorem State.outOf_busyWaitEvents (s : State) (k : Nat) :
    (s.afterEvents (s.busyWaitEvents k)).outOf = s.pollLatches := by
  calc (s.afterEvents (s.busyWaitEvents k)).outOf
      = latchesAfter (s.busyWaitEvents k) s.outOf := funext (s.afterEvents_outOf _)
    _ = s.pollLatches := by
      rw [State.busyWaitEvents, latchesAfter_append, s.latchesAfter_ready, latchesAfter_pollsEnd]

/-- One strobe cycle for each poll, each dummy cycle of a pair and each cycle of the tail (43_bus_decoder.md R151). -/
theorem State.length_carried_busyWaitEvents {s : State} (hE : s.dirOf .E = .Out) (k : Nat) :
    (carried s.dirOf s.outOf (s.busyWaitEvents k)).length =
      k * (1 + if !s.width8 && s.env.params.pollPair4 then 1 else 0) + 1 +
        if s.width8 then s.env.params.pollTail8 else s.env.params.pollTail4 := by
  have hstart : ∀ d lv, carried d lv (busyWaitStart s.width8) = [] :=
    carried_of_keepsStrobe (by cases s.width8 <;> rfl)
  have hflag : dirsAfter (flagSample s.env.params) s.pollDirs = s.pollDirs := rfl
  have hpollE : s.pollDirs .E = .Out := hE
  rw [State.busyWaitEvents, carried_append, carried_append, carried_append, s.latchesAfter_ready]
  simp only [dirsAfter_append, s.dirsAfter_busyWaitStart, dirsAfter_busyRounds, hflag, hstart,
    carried_flagSample _ hpollE, carried_pollsEnd hE, List.length_append, length_carried_busyRounds _ _ _ hpollE,
    List.length_replicate, List.length_cons, List.length_nil, Nat.zero_add]

/-- The flag is the level the last poll read. -/
theorem State.bf_busyWaitEvents (s : State) (k : Nat) :
    (s.afterEvents (s.busyWaitEvents k)).bf = s.levelAt
      ((busyWaitStart s.width8).length + k * (7 + (pairCycle s.env.params s.width8).length) + 2) .D7 := by
  obtain ⟨_, _, _, _, _, _, hbf, _⟩ := State.afterEvents_onBus s.pollsEnd s.onBus_pollsEnd
    (s.afterEvents (busyWaitStart s.width8 ++ busyRounds s.env.params s.width8 k ++ flagSample s.env.params))
  rw [State.busyWaitEvents, State.afterEvents_append, hbf, State.afterEvents_append, flagSample,
    State.afterEvents_poll_bf, State.afterEvents_levelAt, List.length_append, length_busyRounds]

theorem State.length_busyWaitEvents (s : State) (k : Nat) :
    (s.busyWaitEvents k).length = (busyWaitStart s.width8).length +
      (k * (7 + (pairCycle s.env.params s.width8).length) + 7) +
      4 * (if s.width8 then s.env.params.pollTail8 else s.env.params.pollTail4) + if s.width8 then 8 else 4 := by
  simp only [State.busyWaitEvents, List.length_append, length_busyRounds, length_flagSample, length_pollsEnd]
  cases s.width8 <;> simp <;> omega

end Sys2Proof.Machine

open Sys2Proof.Machine

/-- Settles O39: the busy-wait runs as `k` rounds, the poll that reads "ready" and the tail, and its steps, its edges and its
pins are those of this list. -/
theorem busyWaitCycleCount : Obligations.BusyWaitCycleCount := by
  intro s rest k hs lines pair tail sampled n hbusy hready
  have hsampled (j : Nat) :
      (busyWaitStart s.width8).length + j * (7 + (pairCycle s.env.params s.width8).length) + 2 = sampled j := by
    rw [length_busyWaitStart, length_pairCycle]
  have hn : (s.busyWaitEvents k).length = n := by
    rw [s.length_busyWaitEvents, length_busyWaitStart, length_pairCycle]
  have hrun := State.runsThrough_busyWait (s := s) (k := k) rest (fun j hj => hsampled j ▸ hbusy j hj) (hsampled k ▸ hready)
  obtain ⟨hsteps, hedges⟩ := hrun
  rw [← hs, State.start_self, hn] at hsteps hedges
  have hsame := (s.afterEvents_duringPolls (s.duringPolls_busyWaitEvents k)).start rest
  obtain ⟨hdeadline, hw, hrbyte, hpull, hwbyte, hop, hrs, htnow, hhi, hlo, hrsp⟩ := hsame.fields
  have hout (p : Pin) : ((s.afterEvents (s.busyWaitEvents k)).start rest).outOf p = s.pollLatches p :=
    congrFun (s.outOf_busyWaitEvents k) p
  refine ⟨_, hsteps, rfl, fun hE => ?_, hout .E, hout .RS, hout .RW, ?_, fun p hp => ?_, fun p => ?_,
    hdeadline, hw, hrbyte, hpull, hwbyte, hop, hrs, htnow, hhi, hlo, hrsp, hsame.params, hsame.host⟩
  · rw [strobes_eq_length_commits, hedges, State.length_carried_busyWaitEvents (State.dirOf_of_drives hE)]
    ring
  · exact (s.bf_busyWaitEvents k).trans (hsampled k ▸ hready)
  · exact (hout p).trans (s.pollLatches_dataLine hp)
  · exact congrFun (s.dirOf_busyWaitEvents k) p

/-- Settles O40: as long as each poll reads 1 the run stays before the loop's end, with something of the loop before what
follows it, so the block is busy. -/
theorem stuckBusyFlagNeverEnds : Obligations.StuckBusyFlagNeverEnds := by
  intro s rest n hs lines pair sampled hbusy
  have hsampled (j : Nat) :
      (busyWaitStart s.width8).length + j * (7 + (pairCycle s.env.params s.width8).length) + 2 = sampled j := by
    rw [length_busyWaitStart, length_pairCycle]
  obtain ⟨u, op, es, hsteps, hsame, hseq⟩ := State.exists_steps_polling n (s := s)
    (l := pollTail s.env.params s.width8 ++ linesOut s.width8 ++ rest) (duringPolls_busyWaitStart s.width8)
    fun j => hsampled j ▸ hbusy j
  rw [← busyWait_append, ← hs, State.start_self] at hsteps
  obtain ⟨hdeadline, hw, hrbyte, _, _, _, _, _, _, _, hrsp⟩ := hsame.fields
  have hub : u.busy = true := by simp [State.busy, hseq]
  refine ⟨u, hsteps, hub, ?_, ?_, hsame.host, hrsp, hdeadline, hw, hrbyte, exec_of_busy hub⟩
  · rw [hseq]
    exact ⟨es ++ op :: (pollTail s.env.params s.width8 ++ linesOut s.width8), by simp⟩
  · rw [hseq]
    simp only [List.length_append, List.length_cons]
    omega
end

section
/-! Proofs about the mode negotiator (44_mode_negotiator.md R161 to R164): what `Negotiate` leaves in `width8` by the width it
finds and the byte's high nibble, and which events of the sequencer change the width. -/

namespace Sys2Proof.Machine

/-! ## The width `Negotiate` leaves -/

/-- From FourBit only the 8-bit pattern leads to EightBit (44_mode_negotiator.md R161). -/
theorem nextWidth_false (b : Byte) : nextWidth false b = decide (b.toNat / 16 = 3) := by simp [nextWidth, isFS8_eq]

/-- From EightBit only the 4-bit pattern leads to FourBit (44_mode_negotiator.md R161). -/
theorem nextWidth_true (b : Byte) : nextWidth true b = !decide (b.toNat / 16 = 2) := by simp [nextWidth, isFS4_eq]

/-- A width `Negotiate` has changed is that of the byte's pattern. -/
theorem pattern_of_nextWidth_ne {w : Bool} {b : Byte} (h : nextWidth w b ≠ w) :
    b.toNat / 16 = 3 ∧ nextWidth w b = true ∨ b.toNat / 16 = 2 ∧ nextWidth w b = false := by
  cases w with
  | false => exact .inl (by simpa [nextWidth_false] using h)
  | true => exact .inr (by simpa [nextWidth_true] using h)

/-- A function-set byte carries the width it asks for in its bit 4 (44_mode_negotiator.md R164). -/
theorem nextWidth_of_functionSet (w : Bool) {b : Byte} (h : b.toNat / 16 = 2 ∨ b.toNat / 16 = 3) :
    nextWidth w b = b.getLsbD 4 := by
  have hbit : b.getLsbD 4 = decide (b.toNat / 16 % 2 = 1) := Nat.testBit_eq_decide_div_mod_eq
  rw [nextWidth_eq_ite, hbit]
  rcases h with h | h <;> simp [h]

/-- Any other byte leaves the width alone (44_mode_negotiator.md R163). -/
theorem nextWidth_of_not_functionSet (w : Bool) {b : Byte} (h₄ : b.toNat / 16 ≠ 2) (h₈ : b.toNat / 16 ≠ 3) :
    nextWidth w b = w := by
  rw [nextWidth_eq_ite, if_neg h₈, if_neg h₄]

theorem nextWidth_idempotent (w : Bool) (b : Byte) : nextWidth (nextWidth w b) b = nextWidth w b := by
  by_cases h : b.toNat / 16 = 2 ∨ b.toNat / 16 = 3
  · rw [nextWidth_of_functionSet _ h, nextWidth_of_functionSet _ h]
  · obtain ⟨h₄, h₈⟩ := not_or.1 h
    exact nextWidth_of_not_functionSet _ h₄ h₈

/-! ## The events that change the width -/

/-- Of the events of SETUP's steps 3 to 5 only the assignment of the configured width changes it (45_node_lifecycle.md R173). -/
theorem Micro.eq_assign_of_duringSetup_of_onWidth8_ne {r m : Bool} {op : Micro} (h : op.duringSetup r m = true) {b : Byte}
    {w : Bool} (hne : op.onWidth8 b w ≠ w) : op = .assign (.width8 m) := by
  cases op with
  | assign a =>
    cases a with
    | width8 x => simpa [Micro.duringSetup] using h
    | _ => exact absurd rfl hne
  | negotiate => simp [Micro.duringSetup] at h
  | _ => exact absurd rfl hne

/-- An event that changes the width is SETUP's assignment, or the `Negotiate` of an instruction write: the status outputs and
the ends of the phases write other registers, and no operational event writes the width. -/
theorem SequencerInv.changes_width8 {s : State} (hi : SequencerInv s) {op : Micro} {rest : List Micro}
    (hs : s.seq = op :: rest) {b : Byte} {w : Bool} (hne : op.onWidth8 b w ≠ w) :
    (s.installed = false ∧ op = .assign (.width8 s.setupM)) ∨
      (s.installed = true ∧ s.op = 0b01#2 ∧ op = .negotiate) := by
  rcases hi.next hs with ⟨hin, ⟨_, _, ⟨hop, _⟩ | ⟨rfl, _⟩⟩ | ⟨_, _, hop⟩⟩ |
    ⟨hin, ⟨_, hop⟩ | ⟨rfl, hwrite, _⟩ | ⟨hop, _⟩⟩
  · exact .inl ⟨hin, Micro.eq_assign_of_duringSetup_of_onWidth8_ne hop hne⟩
  · exact absurd rfl hne
  · rcases hop with rfl | rfl | rfl | ⟨rfl, _⟩ <;> exact absurd rfl hne
  · rcases hop with rfl | rfl | rfl | ⟨rfl, _⟩ <;> exact absurd rfl hne
  · exact .inr ⟨hin, hwrite, rfl⟩
  · exact absurd (Micro.operational_onWidth8 hop b w) hne

end Sys2Proof.Machine

open Sys2Proof.Machine

/-- Settles O50: a step writes the width only by its event, and an event that changes it is SETUP's assignment or a
`Negotiate`, which leaves another width only on that width's pattern. -/
theorem widthChangesOnlyByFunctionSet : Obligations.WidthChangesOnlyByFunctionSet := by
  intro s t hi h hne
  rcases step_event_or_sameRecord h with ⟨op, rest, hs, rfl⟩ | hsame
  · have hwidth : ((s.envMove.start rest).event op).width8 = op.onWidth8 s.wbyte s.width8 :=
      (s.envMove.start rest).event_width8 op
    rw [hwidth] at hne ⊢
    rcases hi.changes_width8 hs hne with ⟨hin, rfl⟩ | ⟨hin, hwrite, rfl⟩
    · exact .inl ⟨hin, rest, hs⟩
    · exact .inr ⟨hin, hwrite, ⟨rest, hs⟩, pattern_of_nextWidth_ne hne⟩
  · exact absurd hsame.width8 hne

/-- Settles O7: `Negotiate` writes `width8` alone, and from each width one pattern leads to the other. -/
theorem negotiateTransitions : Obligations.NegotiateTransitions := by
  intro s
  have hwidth : s.negotiate.width8 = nextWidth s.width8 s.wbyte := rfl
  refine ⟨rfl, fun hw => ?_, fun hw => ?_⟩
  · rw [hwidth, hw, nextWidth_false, decide_eq_true_eq]
  · rw [hwidth, hw, nextWidth_true, Bool.not_eq_false', decide_eq_true_eq]

/-- Settles O8: `Negotiate` keeps the byte it looks at, so twice is `nextWidth` twice, which is `nextWidth` once. -/
theorem negotiateIdempotent : Obligations.NegotiateIdempotent := fun s =>
  ⟨congrArg (fun w => { s with width8 := w }) (nextWidth_idempotent s.width8 s.wbyte),
    nextWidth_of_functionSet s.width8, nextWidth_of_not_functionSet s.width8⟩
end

section
/-! Proofs about the node's lifecycle (45_node_lifecycle.md R170 to R182): which pins a SETUP finds failing, what it leaves when
it fails, and what it leaves when its pins are valid. -/

namespace Sys2Proof.Machine

/-! ## The validation -/

theorem getLsbD_pinBit (p q : Pin) : p.bit.getLsbD q.index.val = decide (q = p) := by
  cases p <;> cases q <;> rfl

theorem getLsbD_maskOf (ps : List Pin) (q : Pin) : (maskOf ps).getLsbD q.index.val = decide (q ∈ ps) := by
  induction ps with
  | nil => rw [maskOf, List.foldr_nil, BitVec.getLsbD_zero]; rfl
  | cons p ps ih =>
    have hcons : maskOf (p :: ps) = p.bit ||| maskOf ps := rfl
    simp only [hcons, BitVec.getLsbD_or, ih, getLsbD_pinBit, List.mem_cons, Bool.decide_or]

/-- `bad` has one bit per failing used pin (45_node_lifecycle.md R171). -/
theorem getLsbD_failingPins (r m : Bool) (k : PinVec) (p : Pin) :
    (failingPins r m k).getLsbD p.index.val = (p.used r m && !k.getLsbD p.index.val) := by
  have hlt : p.index.val < 11 := p.index.isLt
  simp only [failingPins, BitVec.getLsbD_and, BitVec.getLsbD_not, getLsbD_maskOf, mem_usedPins, hlt, decide_true,
    Bool.true_and, Bool.decide_eq_true]

/-- Every bit of a pin vector is some pin's (10_state.md R21). -/
theorem Pin.exists_index_eq (i : Fin 11) : ∃ p : Pin, p.index = i := by
  have hall : ∀ i : Fin 11, ∃ p ∈ usedPins true true, p.index = i := by decide
  obtain ⟨p, _, hp⟩ := hall i
  exact ⟨p, hp⟩

theorem pinVec_eq_zero_iff (b : PinVec) : b = 0 ↔ ∀ p : Pin, b.getLsbD p.index.val = false := by
  refine ⟨fun h p => h ▸ BitVec.getLsbD_zero, fun h => BitVec.eq_of_getLsbD_eq fun i hi => ?_⟩
  obtain ⟨p, hp⟩ := Pin.exists_index_eq ⟨i, hi⟩
  have hbit := h p
  rw [hp] at hbit
  exact hbit.trans BitVec.getLsbD_zero.symm

/-- No pin fails when every used pin is valid (45_node_lifecycle.md R171). -/
theorem failingPins_eq_zero_iff (r m : Bool) (k : PinVec) :
    failingPins r m k = 0 ↔ ∀ p : Pin, p.used r m = true → k.getLsbD p.index.val = true := by
  rw [pinVec_eq_zero_iff]
  refine forall_congr' fun p => ?_
  rw [getLsbD_failingPins]
  cases p.used r m <;> cases k.getLsbD p.index.val <;> decide

/-! ## Accepting a SETUP -/

section
variable {s : State} {r m : Bool} {k : PinVec}

theorem exec_setup (hs : s.seq = []) (hin : s.installed = false) :
    exec (.setup r m k) s = .next ((s.latchSetup r m k).start
      (if failingPins r m k = 0 then setupEvents s.env.params r m else failedSetupEvents (failingPins r m k))) := by
  have hexec : exec (.setup r m k) s = execSetup r m k s := rfl
  rw [hexec, execSetup, if_neg (by simp [hs]), if_neg (by simp [hin])]
  split <;> rfl

theorem exec_setup_of_valid (hs : s.seq = []) (hin : s.installed = false)
    (hk : ∀ p : Pin, p.used r m = true → k.getLsbD p.index.val = true) :
    exec (.setup r m k) s = .next ((s.latchSetup r m k).start (setupEvents s.env.params r m)) := by
  rw [exec_setup hs hin, if_pos ((failingPins_eq_zero_iff r m k).2 hk)]

theorem exec_setup_of_failing (hs : s.seq = []) (hin : s.installed = false)
    (hk : ∃ p : Pin, p.used r m = true ∧ k.getLsbD p.index.val = false) :
    exec (.setup r m k) s = .next ((s.latchSetup r m k).start (failedSetupEvents (failingPins r m k))) := by
  obtain ⟨p, hp, hbit⟩ := hk
  have hbad : failingPins r m k ≠ 0 := fun h =>
    Bool.false_ne_true (hbit.symm.trans ((failingPins_eq_zero_iff r m k).1 h p hp))
  rw [exec_setup hs hin, if_neg hbad]

end

theorem setupEvents_eq_expected (p : Params) (r m : Bool) : setupEvents p r m = Expected.setup p r m := by
  cases r <;> cases m <;> rfl

/-! ## A failing SETUP -/

/-- `u` is `s` but for the status outputs, the sequencer with its response, and the environment. -/
def SameButStatus (s u : State) : Prop :=
  u = { s with setupOk := u.setupOk, cause := u.cause, badPins := u.badPins, seq := u.seq, rspValid := u.rspValid,
               env := u.env }

theorem SameButStatus.trans {s t u : State} (h : SameButStatus s t) (k : SameButStatus t u) : SameButStatus s u :=
  Eq.trans k (by rw [h])

/-- An event that writes a status output writes nothing else but the response (60_exceptions.md R211). -/
theorem Micro.writesStatus_event {op : Micro} (h : op.writesStatus = true) (s : State) :
    SameButStatus s (s.envMove.event op) := by
  cases op with
  | assign a =>
    cases a with
    | setupOk | cause | badPins => rfl
    | _ => simp [Micro.writesStatus] at h
  | raise c info => rfl
  | _ => simp [Micro.writesStatus] at h

theorem State.afterEvents_writesStatus {es : List Micro} (h : ∀ op ∈ es, op.writesStatus = true) (s : State) :
    SameButStatus s (s.afterEvents es) := by
  induction es generalizing s with
  | nil => rfl
  | cons op es ih =>
    obtain ⟨hop, hes⟩ := List.forall_mem_cons.1 h
    exact (Micro.writesStatus_event hop s).trans (ih hes _)

theorem writesStatus_failedSetupEvents (bad : PinVec) : ∀ op ∈ failedSetupEvents bad, op.writesStatus = true :=
  List.all_eq_true.1 rfl

/-- A failing SETUP stopped before or after any of its four steps: the error, which ends it, is the last. -/
theorem steps_failedSetup_take {n : Nat} (hn : n ≤ 4) (s : State) (bad : PinVec) :
    steps n (s.start (failedSetupEvents bad)) =
      .next ((s.afterEvents ((failedSetupEvents bad).take n)).start ((failedSetupEvents bad).drop n)) := by
  rcases Nat.lt_or_eq_of_le hn with hlt | rfl
  · have hsplit : failedSetupEvents bad = (failedSetupEvents bad).take 3 ++ [.raise .cfgErr bad] := rfl
    have hle : n ≤ ((failedSetupEvents bad).take 3).length := Nat.le_of_lt_succ hlt
    rw [hsplit, steps_straight_take (List.all_eq_true.1 rfl) hle, List.take_append_of_le_length hle,
      List.drop_append_of_le_length hle]
  · rw [steps_failedSetup]
    rfl

/-- The whole state after it but for the environment's moves (60_exceptions.md R211). -/
theorem exists_steps_failedSetup (s : State) (bad : PinVec) :
    ∃ e : Env, steps 4 (s.start (failedSetupEvents bad)) =
        .next { s with setupOk := false, cause := 1, badPins := bad, seq := [], rspValid := true, env := e } ∧
      e.params = s.env.params ∧ e.host = s.env.host := by
  have hstatus := writesStatus_failedSetupEvents bad
  have hsame := State.afterEvents_writesStatus (fun op hop => hstatus op (List.mem_of_mem_take (i := 3) hop)) s
  obtain ⟨_, _, _, _, _, _, hparams, hhost⟩ := State.afterEvents_frame ((failedSetupEvents bad).take 3) s
  have hraise : ∀ u, SameButStatus s u → u.envMove.raise .cfgErr bad =
      { s with setupOk := false, cause := 1, badPins := bad, seq := [], rspValid := true, env := u.env.advance } :=
    fun u hu => by rw [hu]; rfl
  exact ⟨_, (steps_failedSetup s bad).trans (congrArg _ (hraise _ hsame)), hparams, hhost⟩

/-! ## The pins a SETUP touches -/

/-- The unused pins (45_node_lifecycle.md R175). -/
theorem Pin.used_eq_false_iff {r m : Bool} {p : Pin} :
    p.used r m = false ↔ r = false ∧ p = .RW ∨ m = false ∧ (p = .D0 ∨ p = .D1 ∨ p = .D2 ∨ p = .D3) := by
  cases p <;> simp [Pin.used]

/-- A pin event, if it is one, is on a used pin. -/
def Micro.onUsedPin (r m : Bool) : Micro → Bool
  | .drive p _ | .pinMode p _ | .pullUp p | .sample p _ => p.used r m
  | _ => true

theorem onUsedPin_setupEvents (p : Params) (r m : Bool) : ∀ op ∈ setupEvents p r m, op.onUsedPin r m = true := by
  cases r <;> cases m <;> exact List.all_eq_true.1 rfl

theorem Micro.onUsedPin_fixed {r m : Bool} {op : Micro} (h : op.onUsedPin r m = true) {q : Pin} (hq : q.used r m = false) :
    (∀ y, op.onPull q y = y) ∧ (∀ y, op.onDir q y = y) ∧ ∀ y, op.onOut q y = y := by
  have hne : ∀ p : Pin, p.used r m = true → p ≠ q := by
    rintro p hp rfl
    simp [hp] at hq
  cases op with
  | drive p | pinMode p | pullUp p => simp [Micro.onPull, Micro.onDir, Micro.onOut, hne p h]
  | _ => exact ⟨fun _ => rfl, fun _ => rfl, fun _ => rfl⟩

/-- Events on used pins leave an unused pin alone (45_node_lifecycle.md R175). -/
theorem State.afterEvents_of_unused {es : List Micro} {r m : Bool} (h : ∀ op ∈ es, op.onUsedPin r m = true) {q : Pin}
    (hq : q.used r m = false) (s : State) :
    (s.afterEvents es).pullOf q = s.pullOf q ∧ (s.afterEvents es).dirOf q = s.dirOf q ∧
    (s.afterEvents es).outOf q = s.outOf q := by
  rw [State.afterEvents_pullOf, State.afterEvents_dirOf, State.afterEvents_outOf]
  refine ⟨after_of_fixed (fun op hop => ?_) _, after_of_fixed (fun op hop => ?_) _, after_of_fixed (fun op hop => ?_) _⟩ <;>
    obtain ⟨hpull, hdir, hout⟩ := Micro.onUsedPin_fixed (h op hop) hq
  · exact hpull
  · exact hdir
  · exact hout

/-! ## The run of a SETUP with valid pins, and the used pins it leaves -/

theorem straight_setupEvents (p : Params) (r m : Bool) : ∀ op ∈ setupEvents p r m, op.straight = true := by
  cases r <;> cases m <;> exact List.all_eq_true.1 rfl

theorem length_setupEvents (p : Params) (r m : Bool) :
    (setupEvents p r m).length = 9 + 3 * (6 + r.toNat + 4 * m.toNat) + (if m then 0 else 6) := by
  cases r <;> cases m <;> rfl

/-- The used pins are left low, but for D5 after the priming cycle (45_node_lifecycle.md R174, R177). -/
theorem after_setupEvents_onOut (p : Params) {r m : Bool} {q : Pin} (hq : q.used r m = true) (x : Bool) :
    after (Micro.onOut q) (setupEvents p r m) x = (decide (q = .D5) && !m) := by
  have hmem := (mem_usedPins r m q).2 hq
  cases m with
  | true => simp [setupEvents, setupLast, after_idlePins, Micro.onOut, hmem]
  | false =>
    have hprime : after (Micro.onOut q) (priming p) false = decide (q = .D5) := by cases q <;> rfl
    simp [setupEvents, setupLast, after_idlePins, Micro.onOut, hmem, hprime]

/-- Every used pin after a SETUP (45_node_lifecycle.md R174, R177). -/
theorem State.afterEvents_setupEvents_of_used (s : State) (p : Params) {r m : Bool} {q : Pin} (hq : q.used r m = true) :
    (s.afterEvents (setupEvents p r m)).pullOf q = .Up ∧ (s.afterEvents (setupEvents p r m)).dirOf q = .Out ∧
    (s.afterEvents (setupEvents p r m)).outOf q = (decide (q = .D5) && !m) := by
  obtain ⟨_, hpins⟩ := after_setupEvents_pins p r m
  obtain ⟨hdir, hpull⟩ := hpins q hq
  rw [State.afterEvents_pullOf, State.afterEvents_dirOf, State.afterEvents_outOf]
  exact ⟨hpull _, hdir _, after_setupEvents_onOut p hq _⟩

/-! ## The registers it leaves -/

/-- Events on the pins and waits write pins and the clock only. -/
theorem State.afterEvents_onBus_eq {es : List Micro} (h : ∀ op ∈ es, op.onBus = true) (s : State) :
    s.afterEvents es = { s with dir := (s.afterEvents es).dir, pull := (s.afterEvents es).pull,
                                out := (s.afterEvents es).out, env := (s.afterEvents es).env } := by
  ext1 <;> simp only [State.afterEvents_onBus es h s, State.afterEvents_frame es s]

/-- Step 3 of SETUP (45_node_lifecycle.md R173). -/
def setupRecordEvents (r m : Bool) : List Micro :=
  [.assign (.readEn r), .assign (.mode8En m), .assign (.deadline 0), .assign (.width8 m)]

/-- Steps 4 and 5 of SETUP (45_node_lifecycle.md R174, R177). -/
def setupPinEvents (p : Params) (r m : Bool) : List Micro := idlePins (usedPins r m) ++ (if m then [] else priming p)

theorem setupEvents_eq_append (p : Params) (r m : Bool) :
    setupEvents p r m = setupRecordEvents r m ++ setupPinEvents p r m ++ .assign (.installed true) :: setupLast := by
  simp [setupEvents, setupRecordEvents, setupPinEvents]

theorem onBus_setupPinEvents (p : Params) (r m : Bool) : ∀ op ∈ setupPinEvents p r m, op.onBus = true := by
  cases r <;> cases m <;> exact List.all_eq_true.1 rfl

/-- The registers after a SETUP (45_node_lifecycle.md R173, R178): its record and the status outputs are written, the
response is raised, and no other register changes. -/
theorem State.exists_afterEvents_setupEvents (s : State) (p : Params) (r m : Bool) :
    ∃ d pl o e, s.afterEvents (setupEvents p r m) =
      { s with readEn := r, mode8En := m, deadline := 0, width8 := m, installed := true, setupOk := true, cause := 0,
               badPins := 0, rspValid := true, dir := d, pull := pl, out := o, env := e } := by
  rw [setupEvents_eq_append, State.afterEvents_append, State.afterEvents_append,
    State.afterEvents_onBus_eq (onBus_setupPinEvents p r m)]
  exact ⟨_, _, _, _, rfl⟩

/-! ## Its falling edges of E, and its waits -/

theorem edges_append (es fs : List Micro) (d : Dir) (x : Bool) :
    edges d x (es ++ fs) = edges d x es + edges (after (Micro.onDir .E) es d) (after (Micro.onOut .E) es x) fs := by
  induction es generalizing d x with
  | nil => simp [edges]
  | cons op es ih => simp only [List.cons_append, edges, ih, after_cons, Nat.add_assoc]

/-- An E that is low and never driven high does not fall. -/
theorem edges_of_low {es : List Micro} (h : es.all (fun op => op.onOut .E false == false) = true) (d : Dir) :
    edges d false es = 0 ∧ after (Micro.onOut .E) es false = false := by
  induction es generalizing d with
  | nil => exact ⟨rfl, rfl⟩
  | cons op es ih =>
    obtain ⟨hop, hes⟩ := Bool.and_eq_true_iff.1 h
    have hlow : (driving d false == some true) = false := by cases d <;> rfl
    simpa [edges, eq_of_beq hop, hlow] using ih hes _

/-- With E low before it, a SETUP has the one strobe cycle of its priming (45_node_lifecycle.md R177, R178). -/
theorem edges_setupEvents (p : Params) (r m : Bool) (d : Dir) :
    edges d false (setupEvents p r m) = if m then 0 else 1 := by
  have hsplit : setupEvents p r m = (setupRecordEvents r m ++ idlePins (usedPins r m)) ++
      ((if m then [] else priming p) ++ .assign (.installed true) :: setupLast) := by
    simp [setupEvents, setupRecordEvents]
  have hout : after (Micro.onDir .E) (setupRecordEvents r m ++ idlePins (usedPins r m)) d = .Out := by
    simp [setupRecordEvents, after_idlePins, Micro.onDir, mem_usedPins, Pin.used]
  have hlow : (setupRecordEvents r m ++ idlePins (usedPins r m)).all (fun op => op.onOut .E false == false) = true := by
    cases r <;> cases m <;> rfl
  obtain ⟨hedges, hE⟩ := edges_of_low hlow d
  rw [hsplit, edges_append, hedges, hout, hE, Nat.zero_add]
  cases m <;> rfl

/-- SETUP waits only for its priming (45_node_lifecycle.md R177). -/
theorem after_onNow_setupEvents (p : Params) (r m : Bool) (t : Nat) :
    after Micro.onNow (setupEvents p r m) t = t + if m then 0 else 2 * p.tPw + p.tPrime := by
  cases m with
  | true => cases r <;> rfl
  | false =>
    have hwaits : after Micro.onNow (setupEvents p r false) t = t + p.tPw + p.tPw + p.tPrime := by cases r <;> rfl
    rw [hwaits, if_neg Bool.false_ne_true]
    omega

end Sys2Proof.Machine

open Sys2Proof.Machine

/-- Settles O31: the transaction is a straight run through its events; its registers, each used and each unused pin, its edges
of E and its waits are those of the list. -/
theorem setupCompletes : Obligations.SetupCompletes := by
  intro s r m k hs hin hk n
  have hstraight := straight_setupEvents s.env.params r m
  have hlength : (setupEvents s.env.params r m).length = n := length_setupEvents s.env.params r m
  have hrun := steps_straight _ hstraight (s.latchSetup r m k) []
  have hstrobes := strobes_straight _ hstraight (s.latchSetup r m k) []
  have htime := State.afterEvents_now_eq (setupEvents s.env.params r m) (s.latchSetup r m k)
  rw [List.append_nil, hlength] at hrun hstrobes
  rw [hlength, after_onNow_setupEvents] at htime
  have hused := fun p hp => (s.latchSetup r m k).afterEvents_setupEvents_of_used s.env.params (r := r) (m := m) (q := p) hp
  have hunused := fun p hp => State.afterEvents_of_unused (onUsedPin_setupEvents s.env.params r m) (q := p) hp
    (s.latchSetup r m k)
  obtain ⟨_, _, _, _, _, _, hparams, hhost⟩ := State.afterEvents_frame (setupEvents s.env.params r m) (s.latchSetup r m k)
  obtain ⟨d, pl, o, e, hu⟩ := (s.latchSetup r m k).exists_afterEvents_setupEvents s.env.params r m
  rw [hu] at hrun htime hparams hhost
  simp only [hu] at hused hunused
  refine ⟨_, _, exec_setup_of_valid hs hin hk, hrun, ⟨rfl, rfl⟩, rfl, rfl, rfl, rfl, rfl, rfl, rfl, rfl, hused, hunused,
    rfl, rfl, rfl, rfl, rfl, rfl, rfl, rfl, rfl, hparams, hhost, fun hE => ?_, htime⟩
  have hlow : (s.latchSetup r m k).outOf .E = false := hE
  rw [hstrobes, hlow, edges_setupEvents]

/-- Settles O33: `bad_pins` is the vector of the failing used pins, and the status events, the error last, write nothing else. -/
theorem configErrorReportsEveryPin : Obligations.ConfigErrorReportsEveryPin := by
  intro s r m k hs hin hk
  obtain ⟨e, hrun, hparams, hhost⟩ := exists_steps_failedSetup (s.latchSetup r m k) (failingPins r m k)
  refine ⟨failingPins r m k, _, _, getLsbD_failingPins r m k, exec_setup_of_failing hs hin hk, rfl, hrun, ?_, hparams, hhost⟩
  rw [← hs]
  rfl

/-- Settles O34: every event of the transaction is on a used pin, so at every moment of it an unused one is as before. -/
theorem setupLeavesUnusedPinsAlone : Obligations.SetupLeavesUnusedPinsAlone := by
  intro s r m k hs hin hk
  have hon := onUsedPin_setupEvents s.env.params r m
  refine ⟨_, exec_setup_of_valid hs hin hk, fun op hop q hq => ?_, fun n u q hn hu hq => ?_⟩
  · have hused : q.used r m = true := by
      have hop := hon op hop
      rcases hq with rfl | ⟨d, rfl⟩ | ⟨x, rfl⟩ | ⟨d, rfl⟩ <;> exact hop
    have hnot := mt (Pin.used_eq_false_iff (r := r) (m := m) (p := q)).2 (by simp [hused])
    simpa [not_or] using hnot
  · have hrun := steps_straight_take (straight_setupEvents s.env.params r m) hn (s.latchSetup r m k) []
    simp only [List.append_nil] at hrun
    cases hrun.symm.trans hu
    exact State.afterEvents_of_unused (fun op hop => hon op (List.mem_of_mem_take hop)) (Pin.used_eq_false_iff.2 hq)
      (s.latchSetup r m k)

/-- Settles O21: with no failing pin the operands are latched and the events of steps 3 to 6 loaded. -/
theorem setupStarts : Obligations.SetupStarts := by
  intro s r m k hs hin hk
  rw [exec_setup_of_valid hs hin hk, setupEvents_eq_expected]
  rfl

/-- Settles O32: each of the four events writes a status output and no pin or register of the record. -/
theorem failedSetupKeepsPinsAndRecord : Obligations.FailedSetupKeepsPinsAndRecord := by
  intro s r m k hs hin hk
  have hstatus := writesStatus_failedSetupEvents (failingPins r m k)
  refine ⟨_, exec_setup_of_failing hs hin hk, fun op hop q => ?_, fun n u hn hu => ?_, _, steps_failedSetup _ _, rfl, rfl, rfl⟩
  · have hop := hstatus op hop
    refine ⟨?_, fun d => ?_, fun x => ?_⟩ <;> rintro rfl <;> simp [Micro.writesStatus] at hop
  · cases (steps_failedSetup_take hn (s.latchSetup r m k) _).symm.trans hu
    have hsame := State.afterEvents_writesStatus (fun op hop => hstatus op (List.mem_of_mem_take (i := n) hop))
      (s.latchSetup r m k)
    rw [hsame]
    exact ⟨rfl, rfl, rfl, rfl, rfl, rfl, rfl, rfl⟩
end

section
/-! Proofs about the host port (46_host_operations.md R190 to R197): what an idle block does with the request it finds, what it
refuses, and what a memory write starts and leaves. -/

namespace Sys2Proof.Machine

/-! ## The request an idle block takes -/

/-- The word presented is the request the next step runs, and the requests held behind it stay (46_host_operations.md R191). -/
theorem step_presenting (s : State) (w : PortWord) :
    step (s.presenting w) = exec (decodeWord w) { s with seq := [], env := s.env.advance } :=
  step_request (q := .port w) (rest := s.env.host) rfl rfl rfl

/-! ## What is refused -/

theorem State.serve_of_busy {s : State} (h : s.busy = true) (started : State) : s.serve started = .refused .busy := if_pos h

theorem State.serveRead_of_busy {s : State} (h : s.busy = true) (started : State) :
    s.serveRead started = .refused .busy := if_pos h

theorem State.serve_of_not_installed {s : State} (hs : s.seq = []) (hin : s.installed = false) (started : State) :
    s.serve started = .refused .notInstalled := by
  simp [State.serve, hs, hin]

theorem State.serveRead_of_not_installed {s : State} (hs : s.seq = []) (hin : s.installed = false) (started : State) :
    s.serveRead started = .refused .notInstalled := by
  simp [State.serveRead, hs, hin]

theorem State.serveRead_of_not_readEn {s : State} (h : s.Ready) (hr : s.readEn = false) (started : State) :
    s.serveRead started = .refused .readWithoutCapability := by
  obtain ⟨hs, hin⟩ := h
  simp [State.serveRead, hs, hin, hr]

/-- A well-formed instruction is SETUP, or a write the block serves, or a read (46_host_operations.md R192). -/
theorem exec_cases_of_wellFormed {i : Instr} (hw : WellFormed i) (s : State) :
    (∃ r m k, i = .setup r m k) ∨ (∃ started, exec i s = s.serve started) ∨
      ∃ started, exec i s = s.serveRead started := by
  cases hb : instructionByte i with
  | some b => exact .inr (.inl ⟨_, exec_instructionByte hb hw⟩)
  | none =>
    cases i with
    | setup r m k => exact .inl ⟨r, m, k, rfl⟩
    | wrd d => exact .inr (.inl ⟨_, rfl⟩)
    | rdd x | rds x => exact .inr (.inr ⟨_, rfl⟩)
    | _ => cases hb

/-! ## A memory write -/

/-- A ready block accepts a memory write, and its sequencer holds the events of `Write(1, d)` (46_host_operations.md R193). -/
theorem exec_wrd {s : State} (hready : s.Ready) (d : Byte) :
    exec (.wrd d) s = .next ((s.latchWrite 0b00#2 d).start (s.latchWrite 0b00#2 d).writeEvents) :=
  State.serve_ready hready

/-- To latch a memory write touches none of the registers a write keeps or reads. -/
theorem WriteBegun.latchedMemory (s : State) (d : Byte) : WriteBegun s (s.latchWrite 0b00#2 d) :=
  ⟨⟨by constructor <;> rfl, rfl, rfl, rfl⟩, rfl, rfl, rfl, rfl, rfl⟩

end Sys2Proof.Machine

open Sys2Proof Sys2Proof.Machine

/-- Settles O25: the write that a memory write starts is that of a block without `READ_EN`. -/
theorem blindMemoryWriteCompletes : Obligations.BlindMemoryWriteCompletes := fun s d hready hr =>
  ⟨_, exec_wrd hready d, (WriteBegun.latchedMemory s d).blindWrite hr, selectDelayClass_memory s.env.params d⟩

/-- Settles O27: the write that a memory write starts is that of a block with `READ_EN`. -/
theorem polledMemoryWriteCompletes : Obligations.PolledMemoryWriteCompletes := fun s d hready hr =>
  ⟨_, exec_wrd hready d, (WriteBegun.latchedMemory s d).polledWrite hr⟩

/-- Settles O11: an idle block runs the request that stands first at the port, and a table word is put there. -/
theorem stepRunsTheDecodedInstruction : Obligations.StepRunsTheDecodedInstruction := by
  refine ⟨fun s q rest i hs hh hf => step_request hs hh hf, fun s nbits w i hi => ?_⟩
  obtain ⟨q, hq, rfl⟩ := Option.map_eq_some_iff.1 hi
  rw [State.withFetchWord, hq]
  exact step_presenting s q

/-- Settles O18: the events a memory write starts are the spec's. -/
theorem memoryWriteStarts : Obligations.MemoryWriteStarts := by
  intro s d hready
  rw [exec_wrd hready, State.writeEvents_eq_expected]
  rfl

/-- Settles O24: `serve` and `serveRead` test for busy, then for installed, then for `READ_EN`, and SETUP tests likewise. -/
theorem requestsNotServed : Obligations.RequestsNotServed := by
  refine ⟨fun i s hw hs => ?busy, fun i s hw hsetup hs hin => ?notInstalled, fun x s hready hr => ?noCapability,
    fun r m k s hready => ?alreadyInstalled⟩
  case busy =>
    have hbusy : s.busy = true := by simpa [State.busy] using hs
    rcases exec_cases_of_wellFormed hw s with ⟨r, m, k, rfl⟩ | ⟨t, ht⟩ | ⟨t, ht⟩
    · exact if_pos hbusy
    · exact ht.trans (State.serve_of_busy hbusy t)
    · exact ht.trans (State.serveRead_of_busy hbusy t)
  case notInstalled =>
    rcases exec_cases_of_wellFormed hw s with ⟨r, m, k, rfl⟩ | ⟨t, ht⟩ | ⟨t, ht⟩
    · exact absurd rfl (hsetup r m k)
    · exact ht.trans (State.serve_of_not_installed hs hin t)
    · exact ht.trans (State.serveRead_of_not_installed hs hin t)
  case noCapability =>
    exact ⟨State.serveRead_of_not_readEn hready hr _, State.serveRead_of_not_readEn hready hr _⟩
  case alreadyInstalled =>
    obtain ⟨hs, hin⟩ := hready
    simp [exec, execSetup, hs, hin]
end

section
/-! Proofs about the run of a read (43_bus_decoder.md R141 to R149; 46_host_operations.md R195, R196): it waits as a write does,
or not at all, and then runs through its cycles; the state it ends in, and the byte its samples make up. -/

namespace Sys2Proof.Machine

/-! ## The events of a read -/

/-- What a read waits for: nothing, or `AwaitReady`, whose first poll reads "ready" (43_bus_decoder.md R141). -/
def State.readWait (s : State) : List Micro := if s.rs then s.readyAwait else []

/-- The lines become inputs, RS gets the target and RW says read (43_bus_decoder.md R144, R145). -/
def State.readStart (s : State) : List Micro := linesIn s.width8 ++ [.drive .RS s.rs, .drive .RW true]

/-- The cycles of a read, the lines given back, and the byte (43_bus_decoder.md R144, R145). -/
def State.readCycles (s : State) : List Micro :=
  if s.width8 then readByte s.env.params ++ [.rbyteFromLines] else readNibbles s.env.params ++ [.rbyteFromNibbles]

/-- What a read does after it has waited. -/
def State.readTail (s : State) : List Micro := s.readStart ++ s.readCycles ++ [.respond]

/-- The state in which a read ends when its first poll, if it has one, reads "ready". -/
def State.readDone (s : State) : State := (s.afterEvents (s.readWait ++ s.readTail)).start []

theorem State.readEvents_eq (s : State) : s.readEvents = s.readAwait ++ s.readTail := by
  cases hw : s.width8 <;>
    simp [State.readEvents, State.read8, State.read4, State.readTail, State.readStart, State.readCycles, readByte,
      readNibbles, hw]

theorem straight_readTail (s : State) : ∀ op ∈ s.readTail, op.straight = true := by
  rw [← List.all_eq_true]
  unfold State.readTail State.readStart State.readCycles
  cases s.width8 <;> rfl

theorem length_readTail (s : State) : s.readTail.length = if s.width8 then 32 else 28 := by
  unfold State.readTail State.readStart State.readCycles
  cases s.width8 <;> rfl

/-! ## Its run -/

/-- `AwaitReady` runs as the straight list of its events. -/
theorem State.runsThrough_awaitReady {s : State} (hready : s.ReadsReady) (rest : List Micro) :
    s.RunsThrough (s.awaitReady ++ rest) s.readyAwait rest :=
  ⟨steps_awaitReady hready rest,
    (commits_awaitReady s rest hready le_rfl).trans (commits_straight _ (straight_readyAwait s) s rest)⟩

theorem State.runsThrough_readEvents {s : State} (hready : s.rs = true → s.ReadsReady) :
    s.RunsThrough s.readEvents (s.readWait ++ s.readTail) [] := by
  have htail := State.RunsThrough.straight (straight_readTail s) (s.afterEvents s.readWait) []
  rw [List.append_nil] at htail
  rw [s.readEvents_eq]
  refine State.RunsThrough.append ?_ htail
  unfold State.readAwait State.readWait
  split
  · rename_i hrs
    exact State.runsThrough_awaitReady (hready hrs) s.readTail
  · exact ⟨rfl, rfl⟩

/-! ## What it leaves unchanged -/

/-- `u` is `s` but for the directions and latches of the pins, what a poll and a read write, the response, the sequencer, the
clock and what the environment shows. -/
structure SameButRead (s u : State) : Prop where
  registers : u = { s with dir := u.dir, out := u.out, rbyte := u.rbyte, v := u.v, bf := u.bf, hi := u.hi, lo := u.lo,
                           tnow := u.tnow, rspValid := u.rspValid, seq := u.seq, env := u.env }
  params    : u.env.params = s.env.params
  host      : u.env.host = s.env.host

theorem SameButRead.trans {s t u : State} (h : SameButRead s t) (k : SameButRead t u) : SameButRead s u where
  registers := k.registers.trans (by rw [h.registers])
  params    := k.params.trans h.params
  host      := k.host.trans h.host

theorem SameButRead.sameSetup {s u : State} (h : SameButRead s u) : SameSetup s u := by
  obtain ⟨hu, hparams, hhost⟩ := h
  constructor
  case params => exact hparams
  case host => exact hhost
  all_goals rw [hu]

theorem SameButRead.fields {s u : State} (h : SameButRead s u) :
    u.width8 = s.width8 ∧ u.deadline = s.deadline ∧ u.op = s.op ∧ u.wbyte = s.wbyte ∧ u.rs = s.rs := by
  rw [h.registers]
  exact ⟨rfl, rfl, rfl, rfl, rfl⟩

/-- The events of a read, its tests apart (43_bus_decoder.md R144, R145, R150). -/
def Micro.duringRead : Micro → Bool
  | .drive _ _ | .pinMode _ _ | .sample _ _ | .clockRead | .wait _ | .waitUntil _ | .updateBf | .rbyteFromLines
  | .rbyteFromNibbles | .respond => true
  | _ => false

theorem Micro.duringRead_event {op : Micro} (h : op.duringRead = true) (s : State) :
    SameButRead s (s.envMove.event op) := by
  cases op with
  | sample p dst => cases dst <;> exact ⟨rfl, rfl, rfl⟩
  | drive | pinMode | clockRead | wait | waitUntil | updateBf | rbyteFromLines | rbyteFromNibbles | respond =>
    exact ⟨rfl, rfl, rfl⟩
  | _ => simp [Micro.duringRead] at h

theorem State.afterEvents_duringRead {es : List Micro} (h : es.all Micro.duringRead = true) (s : State) :
    SameButRead s (s.afterEvents es) := by
  induction es generalizing s with
  | nil => exact ⟨rfl, rfl, rfl⟩
  | cons op es ih =>
    obtain ⟨hop, hes⟩ := Bool.and_eq_true_iff.1 h
    exact (Micro.duringRead_event hop s).trans (ih hes _)

theorem State.duringRead_readyAwait (s : State) : s.readyAwait.all Micro.duringRead = true := by
  have hfirst : s.firstPoll.all Micro.duringRead = true := by
    unfold State.firstPoll State.pollApproach
    cases Expected.sleeps s <;> cases s.width8 <;> rfl
  have hend : s.pollsEnd.all Micro.duringRead = true :=
    State.all_pollsEnd (fun _ _ => rfl) (fun _ => rfl) (fun _ _ => rfl) s
  unfold State.readyAwait
  split
  · rw [List.all_append, hfirst, hend]
    rfl
  · rfl

theorem State.sameButRead_readWait (s : State) : SameButRead s (s.afterEvents s.readWait) := by
  unfold State.readWait
  split
  · exact s.afterEvents_duringRead s.duringRead_readyAwait
  · exact ⟨rfl, rfl, rfl⟩

theorem State.sameButRead_readTail (s : State) : SameButRead s (s.afterEvents s.readTail) := by
  refine s.afterEvents_duringRead ?_
  unfold State.readTail State.readStart State.readCycles
  cases s.width8 <;> rfl

/-- What a read does after it has waited is the same in the state it then finds. -/
theorem State.readTail_afterEvents_readWait (s : State) : (s.afterEvents s.readWait).readTail = s.readTail := by
  have hsame := s.sameButRead_readWait
  obtain ⟨hw, _, _, _, hrs⟩ := hsame.fields
  simp only [State.readTail, State.readStart, State.readCycles, hsame.params, hw, hrs]

theorem State.readDone_eq (s : State) :
    s.readDone = ((s.afterEvents s.readWait).afterEvents (s.afterEvents s.readWait).readTail).start [] := by
  rw [State.readDone, State.afterEvents_append, s.readTail_afterEvents_readWait]

theorem State.sameButRead_readDone (s : State) : SameButRead s s.readDone := by
  rw [s.readDone_eq]
  exact (s.sameButRead_readWait.trans (State.sameButRead_readTail _)).trans ⟨rfl, rfl, rfl⟩

/-! ## The pins it leaves -/

theorem State.dirsAfter_readTail (s : State) (d : Pin → Dir) :
    dirsAfter s.readTail d = fun p => if p.lineAllowed s.width8 then .Out else d p := by
  funext p
  unfold State.readTail State.readStart State.readCycles
  cases s.width8 <;> cases p <;> rfl

/-- E is low again, RS and RW are as the read has set them, and no line's latch was touched. -/
theorem State.latchesAfter_readTail (s : State) (lv : Pin → Bool) :
    latchesAfter s.readTail lv .E = false ∧ latchesAfter s.readTail lv .RS = s.rs ∧
    latchesAfter s.readTail lv .RW = true ∧
    ∀ p : Pin, p.isDataLine = true → latchesAfter s.readTail lv p = lv p := by
  unfold State.readTail State.readStart State.readCycles
  cases s.width8 <;>
    refine ⟨rfl, rfl, rfl, fun p hp => ?_⟩ <;>
    cases p with
    | RS | RW | E => cases hp
    | _ => rfl

theorem State.dirsAfter_readWait (s : State) :
    dirsAfter s.readWait s.dirOf = if s.rs then s.writeDirs else s.dirOf := by
  unfold State.readWait
  split
  · exact dirsAfter_readyAwait s
  · rfl

theorem State.latchesAfter_readWait {s : State} {p : Pin} (hp : p.isDataLine = true) :
    latchesAfter s.readWait s.outOf p = s.outOf p := by
  unfold State.readWait
  split
  · rw [latchesAfter_readyAwait]
    split
    · exact s.pollLatches_dataLine hp
    · rfl
  · rfl

theorem State.readDone_dirOf (s : State) :
    s.readDone.dirOf = fun p => if p.lineAllowed s.width8 then .Out else s.dirOf p := by
  have hdirs : s.readDone.dirOf = dirsAfter (s.readWait ++ s.readTail) s.dirOf := funext (s.afterEvents_dirOf _)
  funext p
  rw [hdirs, dirsAfter_append, s.dirsAfter_readTail, s.dirsAfter_readWait]
  by_cases hp : p.lineAllowed s.width8 = true
  · simp only [if_pos hp]
  · cases s.rs <;> simp [hp, State.writeDirs]

theorem State.readDone_outOf (s : State) :
    s.readDone.outOf = latchesAfter s.readTail (latchesAfter s.readWait s.outOf) := by
  rw [← latchesAfter_append]
  exact funext (s.afterEvents_outOf _)

/-! ## Its strobe cycles -/

theorem length_carried_readCycle (p : Params) (lines : List Pin) (dst : SampleTo) {d : Pin → Dir} (hd : d .E = .Out)
    (lv : Pin → Bool) : (carried d lv (readCycle p lines dst)).length = 1 := by
  rw [readCycle_eq_strobeCycle, carried_strobeCycle (by simp [Micro.keepsStrobe]) _ hd]
  rfl

theorem dirsAfter_readCycle (p : Params) (lines : List Pin) (dst : SampleTo) (d : Pin → Dir) :
    dirsAfter (readCycle p lines dst) d = d := by
  rw [readCycle_eq_strobeCycle, dirsAfter_strobeCycle]
  induction lines with
  | nil => rfl
  | cons q lines ih => exact ih

/-- One strobe cycle, or two in 4-bit width (43_bus_decoder.md R144, R145). -/
theorem State.length_carried_readTail (s : State) {d : Pin → Dir} (hd : d .E = .Out) (lv : Pin → Bool) :
    (carried d lv s.readTail).length = if s.width8 then 1 else 2 := by
  have hstart : s.readStart.all Micro.keepsStrobe = true := by
    unfold State.readStart
    cases s.width8 <;> rfl
  have hout : dirsAfter s.readStart d .E = .Out := (dirsAfter_strobe hstart d).trans hd
  have hend (w : Bool) : ∀ d lv, carried d lv (linesOut w) = [] := carried_of_keepsStrobe (by cases w <;> rfl)
  have hlines : ∀ d lv, carried d lv [.rbyteFromLines] = [] := carried_of_keepsStrobe rfl
  have hnibbles : ∀ d lv, carried d lv [.rbyteFromNibbles] = [] := carried_of_keepsStrobe rfl
  have hrespond : ∀ d lv, carried d lv [.respond] = [] := carried_of_keepsStrobe rfl
  rw [State.readTail, carried_append, carried_append, carried_of_keepsStrobe hstart, hrespond, State.readCycles]
  cases s.width8 <;>
    simp [readByte, readNibbles, carried_append, hend, hlines, hnibbles, length_carried_readCycle, dirsAfter_readCycle, hout]

theorem State.strobes_readEvents {s : State} (hready : s.rs = true → s.ReadsReady) (hE : s.dirOf .E = .Out) :
    strobes (s.readWait ++ s.readTail).length (s.start s.readEvents) =
      (carried s.dirOf s.outOf s.readWait).length + if s.width8 then 1 else 2 := by
  have hout : dirsAfter s.readWait s.dirOf .E = .Out := by
    rw [s.dirsAfter_readWait]
    cases s.rs <;> simpa [State.writeDirs, Pin.lineAllowed, Pin.isDataLine] using hE
  rw [strobes_eq_length_commits, (State.runsThrough_readEvents hready).edges, carried_append, List.length_append,
    s.length_carried_readTail hout]

/-! ## The byte -/

/-- The cycle of an 8-bit read leaves in `rbyte` the level each line had at its sample (43_bus_decoder.md R144). -/
theorem State.getLsbD_rbyte_readByte (r : State) {j : Nat} (hj : j < 8) :
    (r.afterEvents (readByte r.env.params ++ [.rbyteFromLines])).rbyte.getLsbD (7 - j) =
      r.levelAt (2 + j) (lines8.reverse.getD j .D7) := by
  let shown : Byte := BitVec.ofFnLE fun i : Fin 8 => r.levelAt (2 + (7 - i)) (lines8.getD i .D7)
  have hbit : ∀ j, j < 8 → r.levelAt (2 + j) (lines8.reverse.getD j .D7) =
      shown.getLsbD (lines8.reverse.getD j .D7).index.val := by
    intro j hj
    interval_cases j <;> simp [shown, lines8, Pin.index]
  rw [State.afterEvents_readByte_rbyte hbit, hbit j hj]
  interval_cases j <;> rfl

/-- The two cycles of a 4-bit read leave in `rbyte` the level each line had at its samples, those of the first cycle in the
high nibble (43_bus_decoder.md R145; 30_encoding.md R81). -/
theorem State.getLsbD_rbyte_readNibbles (r : State) {j : Nat} (hj : j < 4) :
    (r.afterEvents (readNibbles r.env.params ++ [.rbyteFromNibbles])).rbyte.getLsbD (7 - j) =
      r.levelAt (2 + j) (lines4.reverse.getD j .D7) ∧
    (r.afterEvents (readNibbles r.env.params ++ [.rbyteFromNibbles])).rbyte.getLsbD (3 - j) =
      r.levelAt (10 + j) (lines4.reverse.getD j .D7) := by
  let shown : Byte := BitVec.ofFnLE fun i : Fin 8 =>
    if i.val < 4 then r.levelAt (10 + (3 - i)) (lines4.getD i .D7) else r.levelAt (2 + (7 - i)) (lines4.getD (i - 4) .D7)
  have hhi : ∀ j, j < 4 → r.levelAt (2 + j) (lines4.reverse.getD j .D7) =
      (hiNibble shown).getLsbD ((lines4.reverse.getD j .D7).index.val - 4) := by
    intro j hj
    interval_cases j <;> simp [shown, lines4, Pin.index, hiNibble]
  have hlo : ∀ j, j < 4 → r.levelAt (10 + j) (lines4.reverse.getD j .D7) =
      (loNibble shown).getLsbD ((lines4.reverse.getD j .D7).index.val - 4) := by
    intro j hj
    interval_cases j <;> simp [shown, lines4, Pin.index, loNibble]
  rw [State.afterEvents_readNibbles_rbyte hhi hlo]
  interval_cases j <;> simp [shown, lines4]

/-- The byte is there when the cycles are over; the response leaves it. -/
theorem State.afterEvents_readTail_rbyte (s : State) :
    (s.afterEvents s.readTail).rbyte = ((s.afterEvents s.readStart).afterEvents s.readCycles).rbyte := by
  simp [State.readTail, State.afterEvents_append, State.event]

theorem length_readStart (s : State) : s.readStart.length = if s.width8 then 10 else 6 := by
  unfold State.readStart
  cases s.width8 <;> rfl

/-- The byte of an 8-bit read by the level of each line at its sample. -/
theorem State.readTail_rbyte8 {s : State} (hw : s.width8 = true) {j : Nat} (hj : j < 8) :
    (s.afterEvents s.readTail).rbyte.getLsbD (7 - j) = s.levelAt (12 + j) (lines8.reverse.getD j .D7) := by
  obtain ⟨_, _, _, _, _, _, hparams, _⟩ := s.afterEvents_frame s.readStart
  have hbit := (s.afterEvents s.readStart).getLsbD_rbyte_readByte hj
  rw [hparams, State.afterEvents_levelAt, length_readStart, if_pos hw, ← Nat.add_assoc] at hbit
  rw [State.afterEvents_readTail_rbyte, State.readCycles, if_pos hw]
  exact hbit

/-- The byte of a 4-bit read by the levels of each line at its samples. -/
theorem State.readTail_rbyte4 {s : State} (hw : s.width8 = false) {j : Nat} (hj : j < 4) :
    (s.afterEvents s.readTail).rbyte.getLsbD (7 - j) = s.levelAt (8 + j) (lines4.reverse.getD j .D7) ∧
    (s.afterEvents s.readTail).rbyte.getLsbD (3 - j) = s.levelAt (16 + j) (lines4.reverse.getD j .D7) := by
  obtain ⟨_, _, _, _, _, _, hparams, _⟩ := s.afterEvents_frame s.readStart
  have hbits := (s.afterEvents s.readStart).getLsbD_rbyte_readNibbles hj
  rw [hparams, State.afterEvents_levelAt, State.afterEvents_levelAt, length_readStart, hw, if_neg Bool.false_ne_true,
    ← Nat.add_assoc, ← Nat.add_assoc] at hbits
  rw [State.afterEvents_readTail_rbyte, State.readCycles, hw, if_neg Bool.false_ne_true]
  exact hbits

/-- The same of the whole read, counted from its first step. -/
theorem State.readDone_rbyte8 {s : State} (hw : s.width8 = true) {j : Nat} (hj : j < 8) :
    s.readDone.rbyte.getLsbD (7 - j) = s.levelAt (s.readWait.length + (12 + j)) (lines8.reverse.getD j .D7) := by
  obtain ⟨hwidth, _⟩ := s.sameButRead_readWait.fields
  rw [s.readDone_eq, ← State.afterEvents_levelAt]
  exact State.readTail_rbyte8 (hwidth.trans hw) hj

theorem State.readDone_rbyte4 {s : State} (hw : s.width8 = false) {j : Nat} (hj : j < 4) :
    s.readDone.rbyte.getLsbD (7 - j) = s.levelAt (s.readWait.length + (8 + j)) (lines4.reverse.getD j .D7) ∧
    s.readDone.rbyte.getLsbD (3 - j) = s.levelAt (s.readWait.length + (16 + j)) (lines4.reverse.getD j .D7) := by
  obtain ⟨hwidth, _⟩ := s.sameButRead_readWait.fields
  rw [s.readDone_eq, ← State.afterEvents_levelAt, ← State.afterEvents_levelAt]
  exact State.readTail_rbyte4 (hwidth.trans hw) hj

/-- In 4-bit width the byte is made of the two nibbles, which stay (30_encoding.md R81). -/
theorem State.readDone_rbyte_eq_append {s : State} (hw : s.width8 = false) :
    s.readDone.rbyte = s.readDone.hi ++ s.readDone.lo := by
  rw [State.readDone, State.readTail, State.readCycles, hw, if_neg Bool.false_ne_true]
  simp [State.afterEvents_append, State.event, joinNibbles]

/-! ## The other registers -/

/-- The wait for ready leaves the nibbles. -/
theorem State.readWait_nibbles (s : State) :
    (s.afterEvents s.readWait).hi = s.hi ∧ (s.afterEvents s.readWait).lo = s.lo := by
  have hbus := s.duringWrite_busEvents
  rw [State.busEvents, List.append_assoc, List.all_append, Bool.and_eq_true] at hbus
  obtain ⟨hawait, _⟩ := hbus
  obtain ⟨hsame, _⟩ := s.afterEvents_duringWrite hawait
  unfold State.readWait
  split
  · exact ⟨hsame.hi, hsame.lo⟩
  · exact ⟨rfl, rfl⟩

/-- An 8-bit read samples into `v`, a 4-bit one into the nibbles (30_encoding.md R81; 43_bus_decoder.md R143). -/
theorem State.sampled_readTail_of_other {s : State} {dst : SampleTo} (hdst : if s.width8 then dst ≠ .v else dst = .v)
    (level : Nat → Pin → Bool) {n : Nat} (x : BitVec n) : sampled dst level 0 s.readTail x = x := by
  unfold State.readTail State.readStart State.readCycles
  cases hw : s.width8 with
  | true =>
    rw [hw, if_pos rfl] at hdst
    cases dst with
    | v => exact absurd rfl hdst
    | hi | lo => rfl
  | false =>
    rw [hw, if_neg Bool.false_ne_true] at hdst
    subst hdst
    rfl

/-- An 8-bit read leaves the nibbles. -/
theorem State.readDone_nibbles {s : State} (hw : s.width8 = true) : s.readDone.hi = s.hi ∧ s.readDone.lo = s.lo := by
  obtain ⟨_, hhi, hlo⟩ := (s.afterEvents s.readWait).afterEvents_samples s.readTail
  obtain ⟨hhi', hlo'⟩ := s.readWait_nibbles
  rw [State.sampled_readTail_of_other (by simp [hw])] at hhi hlo
  rw [State.readDone, State.afterEvents_append]
  exact ⟨hhi.trans hhi', hlo.trans hlo'⟩

/-- An event that writes neither the flag of a poll nor the clock last read. -/
def Micro.keepsFlagAndClock : Micro → Bool
  | .updateBf | .clockRead => false
  | _ => true

theorem Micro.keepsFlagAndClock_event {op : Micro} (h : op.keepsFlagAndClock = true) (s : State) :
    (s.envMove.event op).bf = s.bf ∧ (s.envMove.event op).tnow = s.tnow := by
  cases op with
  | updateBf | clockRead => simp [Micro.keepsFlagAndClock] at h
  | _ => simp [State.event]

/-- The read itself polls nothing and reads no clock. -/
theorem State.readTail_flag_clock (s : State) :
    (s.afterEvents s.readTail).bf = s.bf ∧ (s.afterEvents s.readTail).tnow = s.tnow := by
  have hkeep : ∀ op ∈ s.readTail, op.keepsFlagAndClock = true := by
    rw [← List.all_eq_true]
    unfold State.readTail State.readStart State.readCycles
    cases s.width8 <;> rfl
  exact ⟨State.afterEvents_keep State.bf s.readTail s fun op hop t => (Micro.keepsFlagAndClock_event (hkeep op hop) t).1,
    State.afterEvents_keep State.tnow s.readTail s fun op hop t => (Micro.keepsFlagAndClock_event (hkeep op hop) t).2⟩

/-- The flag `AwaitReady` leaves is the level its poll read. -/
theorem State.readyAwait_bf {s : State} (hready : s.ReadsReady) (hr : s.readEn = true) :
    (s.afterEvents s.readyAwait).bf = false := by
  obtain ⟨_, _, _, _, _, _, hbf, _⟩ := State.afterEvents_onBus s.pollsEnd s.onBus_pollsEnd (s.afterEvents s.firstPoll)
  rw [State.readyAwait, if_pos hr, State.afterEvents_append, hbf, s.afterEvents_firstPoll_bf, hready hr]

/-- Without a wait the read takes its waits: two for each of its cycles (46_host_operations.md R200). -/
theorem State.readTail_now {s : State} (h : s.idealClock s.readTail.length) :
    (s.afterEvents s.readTail).env.now = s.env.now + (if s.width8 then 2 else 4) * s.env.params.tPw := by
  rw [State.afterEvents_now_eq _ _ h]
  unfold State.readTail State.readStart State.readCycles
  cases s.width8 with
  | true =>
    change s.env.now + s.env.params.tPw + s.env.params.tPw = s.env.now + 2 * s.env.params.tPw
    omega
  | false =>
    change s.env.now + s.env.params.tPw + s.env.params.tPw + s.env.params.tPw + s.env.params.tPw =
      s.env.now + 4 * s.env.params.tPw
    omega

/-! ## What a read leaves -/

/-- A ready block with `READ_EN` = 1 accepts a read, and its sequencer holds the events of `Read` (46_host_operations.md R195,
R196). -/
theorem exec_read {s : State} (hready : s.Ready) (hr : s.readEn = true) (x : Byte) :
    exec (.rdd x) s = .next ((s.latchRead 0b10#2).start (s.latchRead 0b10#2).readEvents) ∧
    exec (.rds x) s = .next ((s.latchRead 0b11#2).start (s.latchRead 0b11#2).readEvents) :=
  ⟨State.serveRead_ready hready hr, State.serveRead_ready hready hr⟩

theorem State.readLeft (s : State) (op : BitVec 2) :
    ReadLeft s (s.latchRead op).readDone op (!op.getLsbD 0) := by
  have hsame := (s.latchRead op).sameButRead_readDone
  have hlatched : SameSetup s (s.latchRead op) := by constructor <;> rfl
  obtain ⟨hwidth, hdeadline, hop, hwbyte, hrs⟩ := hsame.fields
  have hdirs := (s.latchRead op).readDone_dirOf
  have houts := (s.latchRead op).readDone_outOf
  obtain ⟨hlow, htarget, hdirection, hlines⟩ := (s.latchRead op).latchesAfter_readTail
    (latchesAfter (s.latchRead op).readWait (s.latchRead op).outOf)
  rw [← houts] at hlow htarget hdirection hlines
  exact {
    responded   := ⟨rfl, by simp [State.readDone, State.readTail, State.afterEvents_append, State.event]⟩
    same        := hlatched.trans hsame.sameSetup
    width8      := hwidth
    deadline    := hdeadline
    opLatch     := hop
    wbyte       := hwbyte
    rsLatch     := hrs
    strobe      := hlow
    target      := htarget
    direction   := hdirection
    lines p hp  := (hlines p hp).trans (State.latchesAfter_readWait hp)
    dir p       := congrFun hdirs p }

/-- The bits of the byte of an 8-bit read, most significant line first. -/
theorem State.readDone_bits8 {s : State} (hw : s.width8 = true) {d : Nat} (hd : s.readWait.length = d) :
    s.readDone.rbyte.getLsbD 7 = s.levelAt (d + 12) .D7 ∧ s.readDone.rbyte.getLsbD 6 = s.levelAt (d + 13) .D6 ∧
    s.readDone.rbyte.getLsbD 5 = s.levelAt (d + 14) .D5 ∧ s.readDone.rbyte.getLsbD 4 = s.levelAt (d + 15) .D4 ∧
    s.readDone.rbyte.getLsbD 3 = s.levelAt (d + 16) .D3 ∧ s.readDone.rbyte.getLsbD 2 = s.levelAt (d + 17) .D2 ∧
    s.readDone.rbyte.getLsbD 1 = s.levelAt (d + 18) .D1 ∧ s.readDone.rbyte.getLsbD 0 = s.levelAt (d + 19) .D0 := by
  subst hd
  have hbit (j : Nat) (hj : j < 8) := State.readDone_rbyte8 hw hj
  exact ⟨hbit 0 (by decide), hbit 1 (by decide), hbit 2 (by decide), hbit 3 (by decide), hbit 4 (by decide),
    hbit 5 (by decide), hbit 6 (by decide), hbit 7 (by decide)⟩

/-- The bits of the byte of a 4-bit read, the first cycle being the high nibble. -/
theorem State.readDone_bits4 {s : State} (hw : s.width8 = false) {d : Nat} (hd : s.readWait.length = d) :
    s.readDone.rbyte.getLsbD 7 = s.levelAt (d + 8) .D7 ∧ s.readDone.rbyte.getLsbD 6 = s.levelAt (d + 9) .D6 ∧
    s.readDone.rbyte.getLsbD 5 = s.levelAt (d + 10) .D5 ∧ s.readDone.rbyte.getLsbD 4 = s.levelAt (d + 11) .D4 ∧
    s.readDone.rbyte.getLsbD 3 = s.levelAt (d + 16) .D7 ∧ s.readDone.rbyte.getLsbD 2 = s.levelAt (d + 17) .D6 ∧
    s.readDone.rbyte.getLsbD 1 = s.levelAt (d + 18) .D5 ∧ s.readDone.rbyte.getLsbD 0 = s.levelAt (d + 19) .D4 := by
  subst hd
  obtain ⟨h7, h3⟩ := State.readDone_rbyte4 hw (j := 0) (by decide)
  obtain ⟨h6, h2⟩ := State.readDone_rbyte4 hw (j := 1) (by decide)
  obtain ⟨h5, h1⟩ := State.readDone_rbyte4 hw (j := 2) (by decide)
  obtain ⟨h4, h0⟩ := State.readDone_rbyte4 hw (j := 3) (by decide)
  exact ⟨h7, h6, h5, h4, h3, h2, h1, h0⟩

end Sys2Proof.Machine

open Sys2Proof.Machine

/-- Settles O29: a status read does not wait, so it is the read's own events, and each bit of the byte is a sample of them. -/
theorem statusReadCompletes : Obligations.StatusReadCompletes := by
  intro s x hready hr
  obtain ⟨_, hexec⟩ := exec_read hready hr x
  let b := s.latchRead 0b11#2
  have hwait : b.readWait = [] := rfl
  have hreads : b.rs = true → b.ReadsReady := fun hrs => absurd hrs Bool.false_ne_true
  have hlength : b.readTail.length = if s.width8 then 32 else 28 := length_readTail b
  have hrun := (State.runsThrough_readEvents hreads).run
  have hdone : b.readDone = (b.afterEvents b.readTail).start [] := rfl
  obtain ⟨hbf, htnow⟩ := b.readTail_flag_clock
  rw [hwait, List.nil_append, hlength] at hrun
  refine ⟨_, b.readDone, hexec, hrun, s.readLeft 0b11#2, hbf, htnow, fun hE => ?_, fun hideal => ?_, fun hw => ?_,
    fun hw => ?_⟩
  · have hstrobes := State.strobes_readEvents hreads (State.dirOf_of_drives hE)
    rwa [hwait, List.nil_append, hlength, carried, List.length_nil, Nat.zero_add] at hstrobes
  · rw [← hlength] at hideal
    exact State.readTail_now (s := b) hideal
  · obtain ⟨hhi, hlo⟩ := State.readDone_nibbles (s := b) hw
    have hbits := State.readDone_bits8 (s := b) hw (congrArg List.length hwait)
    simp only [List.length_nil, Nat.zero_add] at hbits
    exact ⟨hhi, hlo, hbits⟩
  · obtain ⟨hv, _⟩ := b.afterEvents_samples b.readTail
    rw [State.sampled_readTail_of_other (s := b) (by simp [b, hw])] at hv
    have hbits := State.readDone_bits4 (s := b) hw (congrArg List.length hwait)
    simp only [List.length_nil, Nat.zero_add] at hbits
    exact ⟨State.readDone_rbyte_eq_append (s := b) hw, hv, hbits⟩

/-- Settles O30: a memory read waits as a write does and then runs as a status read does, so its samples come after the
busy-wait's steps. -/
theorem memoryReadCompletes : Obligations.MemoryReadCompletes := by
  intro s x hready hr
  obtain ⟨hexec, _⟩ := exec_read hready hr x
  refine ⟨_, hexec, ?_⟩
  intro hpoll tail d
  let b := s.latchRead 0b10#2
  have hwait : b.readWait = b.readyAwait := rfl
  have hreads : b.ReadsReady := fun _ => hpoll
  have hawait : b.readWait.length = d := (length_readyAwait b).trans (if_pos hr)
  have hlength : (b.readWait ++ b.readTail).length = d + if s.width8 then 32 else 28 := by
    rw [List.length_append, hawait]
    exact congrArg _ (length_readTail b)
  have hrun := (State.runsThrough_readEvents fun _ => hreads).run
  rw [hlength] at hrun
  have hbf : b.readDone.bf = false := by
    obtain ⟨htail, _⟩ := (b.afterEvents b.readWait).readTail_flag_clock
    rw [b.readDone_eq]
    exact htail.trans (State.readyAwait_bf hreads hr)
  refine ⟨b.readDone, hrun, s.readLeft 0b10#2, hbf, fun hE => ?_, fun hw => ?_, fun hw => ?_⟩
  · have hout : b.dirOf .E = .Out := State.dirOf_of_drives hE
    have hstrobes := State.strobes_readEvents (fun _ => hreads) hout
    rw [hlength, hwait, carried_readyAwait hout, List.length_replicate] at hstrobes
    exact hstrobes.trans (congrArg (· + _) (if_pos hr))
  · obtain ⟨hhi, hlo⟩ := State.readDone_nibbles (s := b) hw
    exact ⟨hhi, hlo, State.readDone_bits8 (s := b) hw hawait⟩
  · exact ⟨State.readDone_rbyte_eq_append (s := b) hw, State.readDone_bits4 (s := b) hw hawait⟩
end

section
/-! Proofs about power-on, the idle block and the cause codes (70_reset_and_hazards.md R240, R241; 60_exceptions.md R212, R214):
a block that is not to be installed meets the invariants that speak of the transaction's end, and no event writes a cause but
those of the status outputs. -/

namespace Sys2Proof.Machine

/-! ## A block without a SETUP -/

/-- An idle block that is not installed has no transaction that would install it. -/
theorem State.not_live_of_idle {s : State} (hs : s.seq = []) (hin : s.installed = false) : ¬s.Live := by
  simp [State.Live, hs, hin]

theorem SettledInv.of_not_live {s : State} (h : ¬s.Live) : SettledInv s := by
  constructor <;> exact fun hlive => absurd hlive h

theorem WidthInv.of_not_live {s : State} (h : ¬s.Live) : WidthInv s := fun hlive => absurd hlive h

/-- A host that holds no request obeys the hazard rule. -/
theorem HostObeysR252.of_no_request {s : State} (hh : s.env.host = []) : HostObeysR252 s := by
  simp [HostObeysR252, hh]

end Sys2Proof.Machine

open Sys2Proof.Machine

/-- Settles O36: a step changes the cause only by an event of the status outputs; of these a successful SETUP's constant is
code 0, a failing one's constant and its `raise` are code 1, and the others leave the cause alone. -/
theorem reservedCausesNeverAppear : Obligations.ReservedCausesNeverAppear := by
  intro s t hi hcause h
  by_cases hsame : t.cause = s.cause
  · rwa [hsame]
  · obtain ⟨op, rest, hs, hop⟩ := statusIsWrittenBySetupOnly s t hi h (.inr (.inl hsame))
    rw [step_busy hs] at h
    cases h
    rcases hop with ⟨_, rfl | rfl | rfl⟩ | ⟨_, _, rfl | rfl | rfl | rfl⟩
    · exact absurd rfl hsame
    · exact .inl rfl
    · exact absurd rfl hsame
    · exact absurd rfl hsame
    · exact .inr rfl
    · exact absurd rfl hsame
    · exact .inr rfl

/-- Settles O13: the step is the environment's move and the withdrawal of the response. -/
theorem idleBlockWaits : Obligations.IdleBlockWaits := fun _ hs hh => step_no_request hs hh

/-- Settles O43: the block is idle and not installed, so two invariants speak of nothing, and its two times and its clock
are 0. -/
theorem resetMeetsTheInvariants : Obligations.ResetMeetsTheInvariants :=
  have hlive : ¬State.reset.Live := State.not_live_of_idle rfl rfl
  ⟨rfl, rfl, rfl, .of_idle rfl, .of_not_live hlive, .of_not_live hlive, ⟨Nat.le_refl 0, Nat.zero_le _⟩,
    .of_no_request rfl⟩
end
